-- ==== Sys2Proof/Word.lean ====
section
/-! DEFINITION. The word types of the controller: 8-bit bytes, 16-bit device registers, 32-bit host words
(spec/00_scope.md R10). Every value is unsigned. -/

namespace Sys2Proof

/-- `u8` of R10: a byte of a frame, of BUF or of HDRBUF, a device register id, an opcode. -/
abbrev Byte := BitVec 8

/-- `u16` of R10: the width of a device register (REG_WIDTH of R7). -/
abbrev Half := BitVec 16

/-- `u32` of R10: the width of a host-visible register (spec/10_state.md R33). -/
abbrev Word := BitVec 32

end Sys2Proof
end

