-- ==== Sys2Proof/Config.lean ====
section
/-! DEFINITION. What an implementation fixes (the parameters of spec/00_scope.md R8, the constants of R7, the
reference set P0 of R9) and the free values: what the spec leaves to a draw (spec/93_implementation_defined.md
U1, U2). -/

namespace Sys2Proof

/-- CTRL_FRAME_LEN of R7: the bytes of a control frame. -/
abbrev ctrlFrameLen : Nat := 4

/-- CHUNK_MAX of R7: the most bytes of a data chunk. -/
abbrev chunkMax : Nat := 32

/-- HDR_LEN of R7: the bytes of the bootstrap header. -/
abbrev hdrLen : Nat := 48

/-- DUMMY_BYTE of R8, fixed at 0x00: the filler of a read frame (D16). -/
abbrev dummyByte : Byte := 0x00

/-- The parameters a model takes as arguments (R8). They are data: `State.cfg` holds them and no step changes
them (log 5). -/
structure Params where
  /-- READY_POLLS: DREQ samples before a timeout (D12). -/
  readyPolls : Nat
  /-- POLL_INTERVAL_TICKS: the delay after a not-ready sample (D12). -/
  pollIntervalTicks : Nat
  /-- RESET_ASSERT_TICKS: the reset hold (D31). -/
  resetAssertTicks : Nat
  /-- RESET_RECOVER_TICKS: the wait after the release (D31). -/
  resetRecoverTicks : Nat
  /-- WRITE_OP: byte 0 of a register-write frame (D15). -/
  writeOp : Byte
  /-- READ_OP: byte 0 of a register-read frame (D15). -/
  readOp : Byte
  /-- REG_MODE (D14). -/
  regMode : Byte
  /-- REG_CLOCK (D14). -/
  regClock : Byte
  /-- REG_VOLUME (D14). -/
  regVolume : Byte
  /-- REG_REC_WORDS: the "words available" status register (D14). -/
  regRecWords : Byte
  /-- REG_REC_DATA: the data status register (D14). -/
  regRecData : Byte
  /-- REG_REC_PROFILE (D14). -/
  regRecProfile : Byte
  /-- REG_REC_RATE (D14). -/
  regRecRate : Byte
  /-- REG_REC_RESERVED (D14). -/
  regRecReserved : Byte
  /-- REG_REC_STEREO (D14). -/
  regRecStereo : Byte
  /-- BIT_NEWMODE: a mode-word bit index (D17). -/
  bitNewmode : Fin 16
  /-- BIT_ADPCM (D17). -/
  bitAdpcm : Fin 16
  /-- BIT_LINE_IN (D17). -/
  bitLineIn : Fin 16
  /-- BIT_SOFT_RESET (D17). -/
  bitSoftReset : Fin 16
  /-- CLOCK_DEFAULT (D19). -/
  clockDefault : Half
  /-- VOL_DEFAULT (D19). -/
  volDefault : Half
  /-- REC_PROFILE_VALUE (D20). -/
  recProfileValue : Half
  /-- VERIFY_ON_INIT: INIT reads REG_CLOCK back (D18). -/
  verifyOnInit : Bool
  /-- BUF_SIZE: the bytes of BUF (D37). -/
  bufSize : Nat
  /-- BLOCK_SIZE: the bytes of an encoded block (D37). -/
  blockSize : Nat
  /-- SAMPLES_PER_BLOCK: a header field (D24). -/
  samplesPerBlock : Half
  /-- FORMAT_TAG: a header field (D24). -/
  formatTag : Half
  /-- BITS_PER_SAMPLE: a header field and a factor of the byte rate (D24). -/
  bitsPerSample : Half
  /-- LEN_MARKER: the streaming length marker of the header (D24). -/
  lenMarker : Word
  /-- BASE: the host address of the window (D40). -/
  base : Nat
  /-- SERIAL_PHY: a label for the bit-level framing; no rule reads it (D42, U18, log 18). -/
  serialPhy : Nat
  deriving DecidableEq, Repr

/-- The bounds of R8 and D37. A configuration outside them is not a model of this controller (U14). -/
abbrev Params.Wf (p : Params) : Prop :=
  1 ≤ p.readyPolls ∧ 20 ≤ p.resetAssertTicks ∧ 100 ≤ p.resetRecoverTicks
    ∧ [p.bitNewmode, p.bitAdpcm, p.bitLineIn, p.bitSoftReset].Nodup
    ∧ p.bufSize % 4 = 0 ∧ 4 ≤ p.bufSize ∧ p.bufSize ≤ 3840
    ∧ 1 ≤ p.blockSize ∧ p.blockSize ≤ p.bufSize
    ∧ 1 ≤ p.bitsPerSample.toNat ∧ p.bitsPerSample.toNat ≤ 16
    ∧ p.base % 4096 = 0

/-- The reference parameter set P0 (R9): a placeholder, for tests and for `State.reset`. R9 gives SERIAL_PHY no
value; 0 is the model's label (DESIGN CHOICE, log 18). -/
def Params.p0 : Params where
  readyPolls := 1000
  pollIntervalTicks := 1
  resetAssertTicks := 20
  resetRecoverTicks := 100
  writeOp := 0x02
  readOp := 0x03
  regMode := 0x00
  regClock := 0x03
  regVolume := 0x0B
  regRecWords := 0x09
  regRecData := 0x08
  regRecProfile := 0x0C
  regRecRate := 0x0D
  regRecReserved := 0x0E
  regRecStereo := 0x0F
  bitNewmode := 11
  bitAdpcm := 12
  bitLineIn := 14
  bitSoftReset := 2
  clockDefault := 0x6000
  volDefault := 0x2020
  recProfileValue := 0x0000
  verifyOnInit := true
  bufSize := 256
  blockSize := 256
  samplesPerBlock := 505
  formatTag := 0x0011
  bitsPerSample := 4
  lenMarker := 0xFFFFFFFF
  base := 0x40000000
  serialPhy := 0

/-- Free value: the answer of a SampleReady that no tape entry supplies (R16, U2). Indexed by the draw counter,
so that every draw is a fresh one (log 3). -/
opaque Config.freeReady : Nat → Bool

/-- Free value: whether an Xfer that no tape entry supplies answers Ok (R16, U2). -/
opaque Config.freeXferOk : Nat → Bool

/-- Free value: whether a Configure that no tape entry supplies answers Ok (R16, U2). -/
opaque Config.freeConfigOk : Nat → Bool

/-- Free value: a byte the device sent that no tape entry supplies (U2), or a byte of BUF or HDRBUF that nothing
has written (U1). -/
opaque Config.freeByte : Nat → Byte

end Sys2Proof
end

