-- ==== Sys2Proof/Syntax.lean ====
section
/-! DEFINITION. The instructions: one constructor per row of spec/opcode_table.json, ten commands of format CMD32
and three device-side frames (spec/30_encoding.md R100). -/

namespace Sys2Proof

/-- The two channels, one chip select each (spec/00_scope.md R13). -/
inductive Channel where
  | ctrl
  | data
  deriving DecidableEq, Repr

/-- The ten command opcodes (R101). -/
inductive Opcode where
  | init | regWrite | regRead | bulkWrite | startRecord | readBlock | startDecode | emitHeader | writeBlock | stop
  deriving DecidableEq, Repr

/-- An instruction. A command's argument `ign` holds the bits of its CMD32 word that it ignores (R102): no
meaning depends on them, but CMD reads the whole word back (spec/10_state.md R34, log 14). -/
inductive Instr where
  /-- INIT (R220). -/
  | init (ign : BitVec 24)
  /-- REG_WRITE r, v (R190). -/
  | regWrite (r : Byte) (v : Half)
  /-- REG_READ r (R195); VALUE is ignored. -/
  | regRead (r : Byte) (ign : Half)
  /-- BULK_WRITE (R200); the length is ARG0. -/
  | bulkWrite (ign : BitVec 24)
  /-- START_RECORD (R250); the rate is ARG0, stereo is ARG1[0]. -/
  | startRecord (ign : BitVec 24)
  /-- READ_BLOCK (R260); the capacity is ARG0. -/
  | readBlock (ign : BitVec 24)
  /-- START_DECODE (R280). -/
  | startDecode (ign : BitVec 24)
  /-- EMIT_HEADER (R285); the rate is ARG0, the channels are ARG1[7:0]. -/
  | emitHeader (ign : BitVec 24)
  /-- WRITE_BLOCK (R290); the block is BUF[0..BLOCK_SIZE-1]. -/
  | writeBlock (ign : BitVec 24)
  /-- STOP (R230). -/
  | stop (ign : BitVec 24)
  /-- CTRL_WRITE: the register-write frame (R105), sent by RegWr (R165). -/
  | ctrlWrite (r : Byte) (v : Half)
  /-- CTRL_READ: the register-read frame (R106), sent by RegRd (R166). -/
  | ctrlRead (r : Byte)
  /-- DATA_CHUNK: a data-channel chunk (R107), sent by SendData (R170). -/
  | dataChunk (payload : List Byte)
  deriving DecidableEq, Repr

end Sys2Proof
end

