-- ==== Sys2Proof/WellFormed.lean ====
section
/-! DEFINITION. Well-formed instructions. Every CMD32 and CTRL4 operand has exactly the width of its field, so the
one check is the length of a data chunk: 1 to 32 bytes (spec/30_encoding.md R107, R108). -/

namespace Sys2Proof

/-- A payload the controller may send as one chunk (R107). -/
abbrev chunkOk (payload : List Byte) : Prop := 1 ≤ payload.length ∧ payload.length ≤ chunkMax

/-- The instruction is one the encodings admit. -/
def Instr.wf : Instr → Bool
  | .init _ => true
  | .regWrite _ _ => true
  | .regRead _ _ => true
  | .bulkWrite _ => true
  | .startRecord _ => true
  | .readBlock _ => true
  | .startDecode _ => true
  | .emitHeader _ => true
  | .writeBlock _ => true
  | .stop _ => true
  | .ctrlWrite _ _ => true
  | .ctrlRead _ => true
  | .dataChunk payload => decide (chunkOk payload)

end Sys2Proof
end

