-- ==== Sys2Proof/Decode.lean ====
section
/-! DEFINITION. The decoder of the three formats (spec/30_encoding.md R100 to R109), total, rejecting by name, and
after it the encoder written from the same tables. -/

namespace Sys2Proof

/-- Why a word or a frame is no instruction. -/
inductive DecodeError where
  /-- OP is outside 0x01 .. 0x0A (R104). -/
  | illegalOpcode (op : Byte)
  /-- A control frame is exactly 4 bytes (R108). -/
  | ctrlLength (n : Nat)
  /-- Byte 0 of a control frame is WRITE_OP or READ_OP (R108). -/
  | ctrlOpcode (op : Byte)
  /-- Bytes 2 and 3 of a read frame are DUMMY_BYTE (R106). -/
  | dummyBytes (b2 b3 : Byte)
  /-- A data chunk has 1 to 32 bytes (R107). -/
  | chunkLength (n : Nat)
  deriving DecidableEq, Repr

/-- What carries an encoded instruction: one host write to CMD, or one Xfer of a channel (R100). -/
inductive Encoded where
  | cmd (w : Word)
  | frame (ch : Channel) (bytes : List Byte)
  deriving DecidableEq, Repr

/-- `v[15:8]` (R10). -/
def hiByte (v : Half) : Byte := v.extractLsb' 8 8

/-- `v[7:0]` (R10). -/
def loByte (v : Half) : Byte := v.extractLsb' 0 8

/-- `a ++ b` of R10: a in the high bits. -/
def catBytes (a b : Byte) : Half := a ++ b

/-- OP of a CMD32 word (R101). -/
def cmdOp (w : Word) : Byte := w.extractLsb' 0 8

/-- REG of a CMD32 word (R101). -/
def cmdReg (w : Word) : Byte := w.extractLsb' 8 8

/-- VALUE of a CMD32 word (R101). -/
def cmdValue (w : Word) : Half := w.extractLsb' 16 16

/-- Bits 31:8 of a CMD32 word: what a command without operands ignores (R102). -/
def cmdIgnored (w : Word) : BitVec 24 := w.extractLsb' 8 24

/-- The command a CMD32 word launches, by OP alone (R101, R102); every other OP is illegal (R104). -/
def decodeCmd (w : Word) : Except DecodeError Instr :=
  match (cmdOp w).toNat with
  | 0x01 => .ok (.init (cmdIgnored w))
  | 0x02 => .ok (.regWrite (cmdReg w) (cmdValue w))
  | 0x03 => .ok (.regRead (cmdReg w) (cmdValue w))
  | 0x04 => .ok (.bulkWrite (cmdIgnored w))
  | 0x05 => .ok (.startRecord (cmdIgnored w))
  | 0x06 => .ok (.readBlock (cmdIgnored w))
  | 0x07 => .ok (.startDecode (cmdIgnored w))
  | 0x08 => .ok (.emitHeader (cmdIgnored w))
  | 0x09 => .ok (.writeBlock (cmdIgnored w))
  | 0x0A => .ok (.stop (cmdIgnored w))
  | _ => .error (.illegalOpcode (cmdOp w))

/-- A control frame (R105, R106). Where WRITE_OP = READ_OP the frame is read as a write (log 19). -/
def decodeCtrl (p : Params) (bytes : List Byte) : Except DecodeError Instr :=
  match bytes with
  | [b0, b1, b2, b3] =>
    if b0 = p.writeOp then .ok (.ctrlWrite b1 (catBytes b2 b3))
    else if b0 = p.readOp then
      if b2 = dummyByte ∧ b3 = dummyByte then .ok (.ctrlRead b1) else .error (.dummyBytes b2 b3)
    else .error (.ctrlOpcode b0)
  | _ => .error (.ctrlLength bytes.length)

/-- A data chunk (R107): told apart by its chip select, not by its bits. -/
def decodeChunk (bytes : List Byte) : Except DecodeError Instr :=
  if chunkOk bytes then .ok (.dataChunk bytes) else .error (.chunkLength bytes.length)

/-- The decoder of all three formats (R100). -/
def decode (p : Params) : Encoded → Except DecodeError Instr
  | .cmd w => decodeCmd w
  | .frame .ctrl bytes => decodeCtrl p bytes
  | .frame .data bytes => decodeChunk bytes

/-- The OP of a command (R101). -/
def Opcode.byte : Opcode → Byte
  | .init => 0x01
  | .regWrite => 0x02
  | .regRead => 0x03
  | .bulkWrite => 0x04
  | .startRecord => 0x05
  | .readBlock => 0x06
  | .startDecode => 0x07
  | .emitHeader => 0x08
  | .writeBlock => 0x09
  | .stop => 0x0A

/-- A CMD32 word of VALUE, REG and OP (R101), `cmd(op, r, v)` of R118. -/
def cmdWord (op : Opcode) (r : Byte) (v : Half) : Word := v ++ r ++ op.byte

/-- A CMD32 word of an OP and the 24 bits the command ignores. -/
def cmdWordIgn (op : Opcode) (ign : BitVec 24) : Word := ign ++ op.byte

/-- The register-write frame (R105): high byte before low byte (spec/20_memory.md R79). -/
def writeFrame (p : Params) (r : Byte) (v : Half) : List Byte := [p.writeOp, r, hiByte v, loByte v]

/-- The register-read frame (R106). -/
def readFrame (p : Params) (r : Byte) : List Byte := [p.readOp, r, dummyByte, dummyByte]

/-- The encoder: the CMD32 word of a command, or the bytes of a frame and the channel that carries them. -/
def encode (p : Params) : Instr → Encoded
  | .init ign => .cmd (cmdWordIgn .init ign)
  | .regWrite r v => .cmd (cmdWord .regWrite r v)
  | .regRead r ign => .cmd (cmdWord .regRead r ign)
  | .bulkWrite ign => .cmd (cmdWordIgn .bulkWrite ign)
  | .startRecord ign => .cmd (cmdWordIgn .startRecord ign)
  | .readBlock ign => .cmd (cmdWordIgn .readBlock ign)
  | .startDecode ign => .cmd (cmdWordIgn .startDecode ign)
  | .emitHeader ign => .cmd (cmdWordIgn .emitHeader ign)
  | .writeBlock ign => .cmd (cmdWordIgn .writeBlock ign)
  | .stop ign => .cmd (cmdWordIgn .stop ign)
  | .ctrlWrite r v => .frame .ctrl (writeFrame p r v)
  | .ctrlRead r => .frame .ctrl (readFrame p r)
  | .dataChunk payload => .frame .data payload

/-- Byte i of a number whose byte 0 is its bits 7:0. -/
def byteOf (w i : Nat) : Byte := BitVec.ofNat 8 (w >>> (8 * i))

/-- The instruction the decoder reads from a word numbered as spec/opcode_table.json numbers it, under P0. A CMD32
row is the 32-bit word itself. A CTRL4 row has byte 0 in bits 31:24, the first sent. The two formats travel on
different buses and the table's 32-bit words do not name theirs: the word is read as CMD32 first and as CTRL4 only
where its OP is illegal (log 13). Another whole number of bytes is a data chunk, its first byte in bits 7:0. -/
def decodeTableWord (nbits w : Nat) : Option Instr :=
  if nbits = 32 then
    match decodeCmd (BitVec.ofNat 32 w) with
    | .ok i => some i
    | .error _ =>
      match decodeCtrl Params.p0 [byteOf w 3, byteOf w 2, byteOf w 1, byteOf w 0] with
      | .ok i => some i
      | .error _ => none
  else if nbits % 8 = 0 then
    match decodeChunk ((List.range (nbits / 8)).map (byteOf w)) with
    | .ok i => some i
    | .error _ => none
  else none

end Sys2Proof
end

