-- ==== Sys2Proof/Machine/State.lean ====
section
/-! DEFINITION. The state of the machine (spec/10_state.md R30, R58), the reasons it stops, and the state after
controller reset. -/

namespace Sys2Proof.Machine

/-- The FSM state, STATUS.STATE (R31). Values 6 and 7 never occur: they have no constructor (U12). -/
inductive Fsm where
  | uninit | reset | idle | recording | decoding | faulted
  deriving DecidableEq, Repr

/-- The result codes (spec/60_exceptions.md R310). Codes 7 to 15 are never produced: no constructor (U12). -/
inductive ResultCode where
  | ok | busError | hwNotResponding | wrongState | badArgument | headerRequired | illegalCommand
  deriving DecidableEq, Repr

/-- The answer of an Xfer (spec/00_scope.md R13): the received bytes, or a transport failure. -/
inductive Reply where
  | ok (rx : List Byte)
  | busErr
  deriving DecidableEq, Repr

/-- A device-side event (R15). -/
inductive Event where
  /-- One SampleReady and its answer. -/
  | ready (b : Bool)
  /-- One Delay and its ticks. -/
  | delay (t : Nat)
  /-- One Xfer: its channel, the bytes sent, its answer. -/
  | xfer (ch : Channel) (tx : List Byte) (r : Reply)
  /-- One SetResetN and its level. -/
  | resetN (v : Bool)
  /-- One Configure and whether it answered Ok. -/
  | configure (ch : Channel) (good : Bool)
  /-- The end of a WaitReady that found no ready sample (spec/41_handshake_bus.md R161). -/
  | timeout
  deriving DecidableEq, Repr

/-- A byte memory: address and byte pairs, addresses strictly rising. An address with no pair holds no value
(R40, U1, log 6). -/
abbrev Memory := List Host.Cell

/-- The two sources of SendData (R170). -/
inductive Source where
  | buf | hdrbuf
  deriving DecidableEq, Repr

/-- A transaction a Body asks for, with what the Body does with the answer. -/
inductive Job where
  /-- RegWr r, v (R165). -/
  | write (r : Byte) (v : Half)
  /-- INIT's readback of REG_CLOCK (spec/43_lifecycle.md R220). -/
  | verify
  /-- REG_READ's register read (spec/42_register_block_io.md R195). -/
  | read (r : Byte)
  /-- READ_BLOCK's read of REG_REC_WORDS, with the capacity (spec/44_adpcm_record.md R260). -/
  | words (cap : Nat)
  /-- READ_BLOCK's read number k of REG_REC_DATA (R260). -/
  | word (k : Nat)
  /-- A chunk of SendData: n bytes of a source from an offset (R170). -/
  | chunk (src : Source) (off n : Nat)
  deriving DecidableEq, Repr

/-- A statement of a Body's pseudocode (files 42 to 45). -/
inductive Stmt where
  | configure (ch : Channel)
  | resetN (v : Bool)
  | delay (t : Nat)
  /-- A WaitReady of its own, its result ignored (R250). -/
  | wait
  | frame (j : Job)
  /-- `complete(code, result)` with the command's FSM change (spec/40_host_interface.md R140). -/
  | finish (code : ResultCode) (result : Word)
  deriving DecidableEq, Repr

/-- The command in progress, `st.cur` (R50): the latched opcode and the statements still to run. The end of the
list stands for the pseudocode's last line `complete(OK, 0)`. -/
structure Cursor where
  op : Opcode
  body : List Stmt
  deriving DecidableEq, Repr

/-- The operands of one Xfer (R13). -/
structure Transaction where
  ch : Channel
  bytes : List Byte
  deriving DecidableEq, Repr

/-- The position inside a procedure of spec/41_handshake_bus.md: the handshake states of R161, then the Xfer that
the wait gates (none for a WaitReady of its own). An Xfer spans two actions, so that its chip select is seen
asserted (R49, log 7). -/
inductive Call where
  /-- SAMPLE: `left` samples of the budget are left; with none left the wait times out. -/
  | sample (left : Nat) (t : Option Transaction)
  /-- DELAY after a not-ready sample. -/
  | pollDelay (left : Nat) (t : Option Transaction)
  /-- The Xfer's chip select is about to be asserted. -/
  | select (t : Transaction)
  /-- The bytes are about to be shifted and the chip select released. -/
  | shift (t : Transaction)
  deriving DecidableEq, Repr

/-- What a procedure of file 41 returned to its Body. -/
inductive Ret where
  | ready
  | timeout
  | reply (r : Reply)
  deriving DecidableEq, Repr

/-- The width of a host access (spec/20_memory.md R72, R73). -/
inductive Width where
  | w8 | w16 | w32
  deriving DecidableEq, Repr

/-- An input from outside the controller: the two host instructions (spec/30_encoding.md R116), two of its
pseudo-instructions, and the controller's own reset (spec/70_reset_and_hazards.md R340). -/
inductive Input where
  /-- MemRead. -/
  | read (addr : Nat) (width : Width)
  /-- MemWrite. -/
  | write (addr : Nat) (width : Width) (v : Word)
  /-- `wait_idle` (R117): a poll of STATUS, and again while the value read has BUSY = 1. `gaps` is the host's timing of
  the polls that land while a command runs: the next poll lands as any access does, and an entry is taken for the wait to
  the poll after it. With no entry left, the next poll comes once the command has completed (log 17). -/
  | waitIdle (gaps : List Nat)
  /-- `check OFF, MASK, VAL` (R119). -/
  | check (addr : Nat) (mask val : Word)
  /-- Controller reset. -/
  | reset
  deriving DecidableEq, Repr

/-- What the host has seen. -/
inductive HostRecord where
  /-- A read: its address and the value returned (spec/20_memory.md R74). -/
  | read (addr : Nat) (v : Word)
  /-- The host program stopped as failed at a `check` (spec/30_encoding.md R119). -/
  | programFailed
  deriving DecidableEq, Repr

/-- The device's answers to come, one tape per primitive that it answers (R16). A tape used up is followed by free
values (log 3). -/
structure DeviceTape where
  dreq : List Bool
  xfers : List Reply
  configs : List Bool
  deriving DecidableEq, Repr

/-- The state: R30, the fields of STATUS apart (R37), the device-side outputs, the internal state, the trace, the
parameters, and the model's own record of the world outside. -/
structure State where
  /-- The parameters of R8; no step changes them. -/
  cfg : Params
  /-- CMD (R34). -/
  cmd : Word
  /-- ARG0 (R35). -/
  arg0 : Word
  /-- ARG1 (R36). -/
  arg1 : Word
  /-- STATUS.STATE (R31). -/
  fsm : Fsm
  /-- STATUS.BUSY (R47). -/
  busy : Bool
  /-- STATUS.TMO (R42). -/
  tmo : Bool
  /-- STATUS.OVR (R43). -/
  ovr : Bool
  /-- STATUS.HDR (R45). -/
  hdr : Bool
  /-- STATUS.INIT (R46). -/
  initFlag : Bool
  /-- STATUS.RESULT_CODE (R310). -/
  code : ResultCode
  /-- STATUS.BERR (R44). -/
  berr : Bool
  /-- RESULT (R38). -/
  result : Word
  /-- TMO_COUNT (R39). -/
  tmoCount : Word
  /-- BUF (R40). -/
  buf : Memory
  /-- The level of RESET_N (R48): false holds the codec in reset. -/
  resetN : Bool
  /-- CS_CTRL is asserted (R49). -/
  csCtrl : Bool
  /-- CS_DATA is asserted (R49). -/
  csData : Bool
  /-- st.HDRBUF (R50). -/
  hdrbuf : Memory
  /-- st.cur (R50): the command in progress. -/
  cur : Option Cursor
  /-- st.cur (R50): the position inside a procedure of file 41. -/
  call : Option Call
  /-- st.cur (R50): the answer the last procedure returned, until the Body takes it. -/
  ret : Option Ret
  /-- The device trace (R15), oldest event first. -/
  trace : List Event
  /-- MODEL's own: the device's answers to come. -/
  dev : DeviceTape
  /-- MODEL's own: how many free values have been drawn (log 4). -/
  draws : Nat
  /-- MODEL's own: the inputs to come, each with the controller actions that pass before it lands while a command
  runs (log 2). -/
  inputs : List (Nat × Input)
  /-- MODEL's own: what the host has seen so far, oldest first (log 23). -/
  hostLog : List HostRecord
  deriving DecidableEq, Repr

/-- Why the machine stops with a fault. -/
inductive Fault where
  /-- Raised by a host access that is not an aligned 32-bit access: a bus error of the host agent, with no change
  of the controller (R73, U13). Safe: nothing is claimed of the run after it. -/
  | hostBusError (addr : Nat) (width : Width)
  deriving DecidableEq, Repr

/-- Why the machine has no next state. -/
inductive Refusal where
  /-- An instruction with no meaning yet. Safe. -/
  | notModelled (mnemonic : String)
  /-- Raised by every step of a configuration outside the bounds of R8 and D37 (U14). Safe. -/
  | badConfiguration
  /-- Raised by a host access outside the window: it is not the controller's to answer (R71, log 11). Safe. -/
  | outsideWindow (addr : Nat)
  /-- Raised by a data chunk of 0 or of more than 32 bytes: a frame the controller never sends (R108). Safe. -/
  | chunkNeverSent (n : Nat)
  /-- Raised by a frame asked for while a transaction is in progress: the controller never overlaps two (R88).
  Safe. -/
  | transactionInProgress
  deriving DecidableEq, Repr

/-- Every controller state element at its reset value (R58), for the parameters `p`. BUF and HDRBUF hold no value
in any byte. The model's own fields start empty (logs 2, 3, 4, 23). -/
def State.resetWith (p : Params) : State where
  cfg := p
  cmd := 0
  arg0 := 0
  arg1 := 0
  fsm := .uninit
  busy := false
  tmo := false
  ovr := false
  hdr := false
  initFlag := false
  code := .ok
  berr := false
  result := 0
  tmoCount := 0
  buf := []
  resetN := false
  csCtrl := false
  csData := false
  hdrbuf := []
  cur := none
  call := none
  ret := none
  trace := []
  dev := { dreq := [], xfers := [], configs := [] }
  draws := 0
  inputs := []
  hostLog := []

/-- The machine right after controller reset (spec/70_reset_and_hazards.md R340), with the reference parameters P0
(R9, log 5). -/
def State.reset : State := State.resetWith Params.p0

end Sys2Proof.Machine
end

