-- ==== Sys2Proof/Machine/Operands.lean ====
section
/-! DEFINITION. Operand forms: the operands a command takes from ARG0, ARG1 and the parameters (spec/30_encoding.md
R103), the derived mode words (spec/00_scope.md R8), byte orders (spec/20_memory.md R78 to R81), and the layout of
the host window (spec/10_state.md R33, R41). -/

namespace Sys2Proof.Machine

/-! ### Mode words (R8, D17): each is written whole, never read-modify-written (R90). -/

/-- One bit of a mode word. -/
def modeBit (i : Fin 16) : Half := (1 : Half) <<< i.val

/-- MODE_RECORD: new-mode, ADPCM and line-input. -/
def modeRecord (p : Params) : Half := modeBit p.bitNewmode ||| modeBit p.bitAdpcm ||| modeBit p.bitLineIn

/-- MODE_DECODE: new-mode only. -/
def modeDecode (p : Params) : Half := modeBit p.bitNewmode

/-- MODE_SOFT_RESET: new-mode and soft reset. -/
def modeSoftReset (p : Params) : Half := modeBit p.bitNewmode ||| modeBit p.bitSoftReset

/-! ### Operands of the commands (R103). No operand is sign-extended or scaled. -/

/-- `1 ≤ sample_rate ≤ 65535` (D21). -/
def rateOk (sr : Word) : Bool := decide (1 ≤ sr.toNat ∧ sr.toNat ≤ 65535)

/-- `sr[15:0]`, the value of the rate register (R250). -/
def rateHalf (sr : Word) : Half := sr.extractLsb' 0 16

/-- `zext_16(ARG1[0])`, the value of the stereo register (R250). -/
def stereoHalf (arg1 : Word) : Half := (arg1.extractLsb' 0 1).zeroExtend 16

/-- `ARG1[7:0]`, the channel count of EMIT_HEADER (R285). -/
def channelsByte (arg1 : Word) : Byte := arg1.extractLsb' 0 8

/-- A channel count is 1 or 2 (D21). -/
def channelsOk (ch : Byte) : Bool := decide (ch = 1 ∨ ch = 2)

/-- READ_BLOCK's capacity `min(ARG0, BUF_SIZE)` (R260). -/
def capacity (p : Params) (arg0 : Word) : Nat := min arg0.toNat p.bufSize

/-- The words READ_BLOCK reads: `min(a, cap div 2)` (R260). -/
def wordCount (avail : Half) (cap : Nat) : Nat := min avail.toNat (cap / 2)

/-! ### Byte orders -/

/-- The value of a register read: `rx2 ++ rx3` of the response, rx0 and rx1 discarded (R79, R106). -/
def readValue (rx : List Byte) : Half := catBytes (rx.getD 2 0) (rx.getD 3 0)

/-- `zext_32` of a register value (R195). -/
def zext32 (v : Half) : Word := v.zeroExtend 32

/-- A 16-bit field, low byte first (R81). -/
def le16 (v : Half) : List Byte := [v.extractLsb' 0 8, v.extractLsb' 8 8]

/-- A 32-bit value, low byte first: a header field (R81), a BUF word (R78). -/
def le32 (v : Word) : List Byte :=
  [v.extractLsb' 0 8, v.extractLsb' 8 8, v.extractLsb' 16 8, v.extractLsb' 24 8]

/-- `b3 ++ b2 ++ b1 ++ b0`: a BUF word from its bytes (R78). -/
def wordOfBytes (bs : List Byte) : Word := bs.getD 3 0 ++ bs.getD 2 0 ++ bs.getD 1 0 ++ bs.getD 0 0

/-! ### The host window (R33, R41, R71) -/

/-- What stands at an aligned offset of the window. -/
inductive WindowReg where
  | cmd | arg0 | arg1 | status | result | tmoCount
  /-- BUF word k, at offset 0x100 + 4k. -/
  | bufWord (k : Nat)
  | unmapped
  deriving DecidableEq, Repr

/-- The offset of CMD. -/
abbrev offCmd : Nat := 0x000
/-- The offset of ARG0. -/
abbrev offArg0 : Nat := 0x004
/-- The offset of ARG1. -/
abbrev offArg1 : Nat := 0x008
/-- The offset of STATUS. -/
abbrev offStatus : Nat := 0x00C
/-- The offset of RESULT. -/
abbrev offResult : Nat := 0x010
/-- The offset of TMO_COUNT. -/
abbrev offTmoCount : Nat := 0x014
/-- The offset of BUF. -/
abbrev offBuf : Nat := 0x100
/-- The bytes of the window: 4 KiB. -/
abbrev windowSize : Nat := 0x1000

/-- The register at an aligned offset (R33); every other offset is unmapped (R41). -/
def windowReg (p : Params) (off : Nat) : WindowReg :=
  if off = offCmd then .cmd
  else if off = offArg0 then .arg0
  else if off = offArg1 then .arg1
  else if off = offStatus then .status
  else if off = offResult then .result
  else if off = offTmoCount then .tmoCount
  else if offBuf ≤ off ∧ off < offBuf + p.bufSize then .bufWord ((off - offBuf) / 4)
  else .unmapped

/-- The address falls in the window (R71). -/
abbrev inWindow (p : Params) (addr : Nat) : Prop := p.base ≤ addr ∧ addr < p.base + windowSize

/-- A legal access is a 32-bit access at an offset that is a multiple of 4 (R72, R73). -/
abbrev accessLegal (p : Params) (addr : Nat) (width : Width) : Prop :=
  width = .w32 ∧ (addr - p.base) % 4 = 0

end Sys2Proof.Machine
end

