-- ==== Sys2Proof/Machine/Flags.lean ====
section
/-! DEFINITION. STATUS and its flags (spec/10_state.md R31, R37, R42 to R47), the state check (spec/40_host_interface.md
R136) and the FSM change of a completion (R32). -/

namespace Sys2Proof.Machine

/-- STATUS.STATE, bits 2:0 (R31). -/
def Fsm.bits : Fsm → BitVec 3
  | .uninit => 0
  | .reset => 1
  | .idle => 2
  | .recording => 3
  | .decoding => 4
  | .faulted => 5

/-- STATUS.RESULT_CODE, bits 11:8 (spec/60_exceptions.md R310). -/
def ResultCode.bits : ResultCode → BitVec 4
  | .ok => 0
  | .busError => 1
  | .hwNotResponding => 2
  | .wrongState => 3
  | .badArgument => 4
  | .headerRequired => 5
  | .illegalCommand => 6

/-- One flag as one bit. -/
def flagBit (b : Bool) : BitVec 1 := if b then 1 else 0

/-- The STATUS word (R37): bits 31:13 read as 0. -/
def statusWord (s : State) : Word :=
  (0 : BitVec 19) ++ flagBit s.berr ++ s.code.bits ++ flagBit s.initFlag ++ flagBit s.hdr ++ flagBit s.ovr
    ++ flagBit s.tmo ++ flagBit s.busy ++ s.fsm.bits

/-- A write of v to STATUS (spec/20_memory.md R75): clears each of TMO, OVR and BERR whose bit in v is 1. -/
def clearFlags (v : Word) (s : State) : State :=
  { s with
    tmo := s.tmo && !v.getLsbD 4
    ovr := s.ovr && !v.getLsbD 5
    berr := s.berr && !v.getLsbD 12 }

/-- A host write ignored because BUSY = 1 (R132). -/
def ignoredWrite (s : State) : State := { s with ovr := true }

/-- `sat32(c + 1)` (R39). -/
def satSucc (c : Word) : Word := if c = 0xFFFFFFFF then c else c + 1

/-- What a timed-out WaitReady writes (R42, spec/41_handshake_bus.md R161). -/
def timeoutFlags (s : State) : State := { s with tmo := true, tmoCount := satSucc s.tmoCount }

/-- `Allowed(op, STATE, HDR)` (R136). -/
def allowed (op : Opcode) (fsm : Fsm) (hdr : Bool) : Bool :=
  match op, fsm with
  | .init, .uninit => true
  | .init, .idle => true
  | .init, .faulted => true
  | .init, _ => false
  | .regWrite, .idle => true
  | .regWrite, .recording => true
  | .regWrite, .decoding => true
  | .regWrite, _ => false
  | .regRead, .idle => true
  | .regRead, .recording => true
  | .regRead, .decoding => true
  | .regRead, _ => false
  | .bulkWrite, .idle => true
  | .bulkWrite, .recording => true
  | .bulkWrite, .decoding => true
  | .bulkWrite, _ => false
  | .startRecord, .idle => true
  | .startRecord, _ => false
  | .readBlock, .recording => true
  | .readBlock, _ => false
  | .startDecode, .idle => true
  | .startDecode, _ => false
  | .emitHeader, .decoding => !hdr
  | .emitHeader, _ => false
  | .writeBlock, .decoding => true
  | .writeBlock, _ => false
  | .stop, .idle => true
  | .stop, .recording => true
  | .stop, .decoding => true
  | .stop, _ => false

/-- The changes of STATE, INIT and HDR that a Body makes as it completes (R32, spec/60_exceptions.md R312). Every
outcome not named leaves them. -/
def finishFsm (op : Opcode) (code : ResultCode) (s : State) : State :=
  match op, code with
  | .init, .ok => { s with fsm := .idle, initFlag := true }
  | .init, _ => { s with fsm := .faulted }
  | .stop, .ok => { s with fsm := .idle }
  | .stop, _ => { s with fsm := .faulted }
  | .startRecord, .ok => { s with fsm := .recording }
  | .startDecode, .ok => { s with fsm := .decoding, hdr := false }
  | .emitHeader, .ok => { s with hdr := true }
  | _, _ => s

end Sys2Proof.Machine
end

