-- ==== Sys2Proof/Machine/Ops.lean ====
section
/-! DEFINITION. The shared operations: byte memory, free values, the device primitives (spec/00_scope.md R13), the
procedures of spec/41_handshake_bus.md, completion (spec/40_host_interface.md R140), which takes the place of an
exception here (spec/60_exceptions.md R310, R317), and controller reset (spec/70_reset_and_hazards.md R340). -/

namespace Sys2Proof.Machine

/-! ### Byte memory (BUF, HDRBUF) -/

/-- The canonical form: addresses strictly rising. (An unlisted address holds no value, so no entry can equal what
one reads as.) -/
abbrev Memory.wf (m : Memory) : Prop := m.Pairwise (fun a b => a.1 < b.1)

/-- The value of a byte; none where nothing has written it (spec/10_state.md R40). -/
def Memory.read? : Memory → Nat → Option Byte
  | [], _ => none
  | (b, v) :: m, a => if a = b then some v else Memory.read? m a

/-- A byte written in its place, keeping the canonical form. -/
def Memory.write : Memory → Nat → Byte → Memory
  | [], a, v => [(a, v)]
  | (b, w) :: m, a, v =>
    if a < b then (a, v) :: (b, w) :: m
    else if a = b then (a, v) :: m
    else (b, w) :: Memory.write m a v

/-- Bytes written at rising addresses. -/
def Memory.writeAll (m : Memory) (a : Nat) : List Byte → Memory
  | [] => m
  | v :: vs => Memory.writeAll (m.write a v) (a + 1) vs

/-- n bytes from address a, and the draw counter after: a byte that nothing has written is a fresh free value
(U1). -/
def Memory.readAll (m : Memory) (a : Nat) (d : Nat) : Nat → List Byte × Nat
  | 0 => ([], d)
  | n + 1 =>
    match m.read? a with
    | some v => (v :: (Memory.readAll m (a + 1) d n).1, (Memory.readAll m (a + 1) d n).2)
    | none => (Config.freeByte d :: (Memory.readAll m (a + 1) (d + 1) n).1, (Memory.readAll m (a + 1) (d + 1) n).2)

/-- The memory a SendData source names (R170). -/
def State.source (s : State) : Source → Memory
  | .buf => s.buf
  | .hdrbuf => s.hdrbuf

/-! ### The host's turn (log 2) -/

/-- No access lands before the command in progress completes: none is to come, or the next one is the last poll of a
`wait_idle`. -/
def quietInputs : List (Nat × Input) → Bool
  | [] => true
  | (_, .waitIdle gaps) :: _ => gaps.isEmpty
  | (_, .read _ _) :: _ => false
  | (_, .write _ _ _) :: _ => false
  | (_, .check _ _ _) :: _ => false
  | (_, .reset) :: _ => false

/-- An input lands now, between two actions of the command in progress (R138). -/
def dueInputs : List (Nat × Input) → Bool
  | [] => false
  | (w, i) :: rest => !quietInputs ((w, i) :: rest) && w == 0

/-- The inputs once one more controller action has passed. -/
def tickInputs : List (Nat × Input) → List (Nat × Input)
  | [] => []
  | (w, i) :: rest => if quietInputs ((w, i) :: rest) then (w, i) :: rest else (w - 1, i) :: rest

/-- No access lands before the command in progress completes. -/
def State.quiet (s : State) : Bool := quietInputs s.inputs

/-- An input lands now. -/
def State.due (s : State) : Bool := dueInputs s.inputs

/-- One controller action has passed. -/
def tick (s : State) : State := { s with inputs := tickInputs s.inputs }

/-! ### Device primitives (R13): each adds its event to the trace (R15) -/

/-- An event added to the trace. -/
def State.emit (s : State) (e : Event) : State := { s with trace := s.trace ++ [e] }

/-- `SampleReady()`: the answer of DREQ, from the tape or free (R16). -/
def sampleAnswer (s : State) : Bool :=
  match s.dev.dreq with
  | b :: _ => b
  | [] => Config.freeReady s.draws

/-- `SampleReady()`: its event. -/
def sampleReady (s : State) : State :=
  match s.dev.dreq with
  | b :: rest => { s with dev := { s.dev with dreq := rest }, trace := s.trace ++ [.ready b] }
  | [] => { s with draws := s.draws + 1, trace := s.trace ++ [.ready (Config.freeReady s.draws)] }

/-- `Delay(t)`: an event and no other effect. -/
def delayFor (t : Nat) (s : State) : State := s.emit (.delay t)

/-- `SetResetN(v)`. -/
def setResetN (v : Bool) (s : State) : State := { s.emit (.resetN v) with resetN := v }

/-- `Configure(ch)`: the answer. -/
def configAnswer (s : State) : Bool :=
  match s.dev.configs with
  | b :: _ => b
  | [] => Config.freeConfigOk s.draws

/-- `Configure(ch)`: its event; an Err sets BERR at this step (R139). -/
def configure (ch : Channel) (s : State) : State :=
  match s.dev.configs with
  | b :: rest =>
    { s with
      dev := { s.dev with configs := rest }
      trace := s.trace ++ [.configure ch b]
      berr := s.berr || !b }
  | [] =>
    { s with
      draws := s.draws + 1
      trace := s.trace ++ [.configure ch (Config.freeConfigOk s.draws)]
      berr := s.berr || !Config.freeConfigOk s.draws }

/-- Exactly n received bytes (R13): those the tape gives, completed by free ones. -/
def fitBytes (n : Nat) (rx : List Byte) (d : Nat) : List Byte :=
  rx.take n ++ (List.range (n - rx.length)).map fun i => Config.freeByte (d + i)

/-- `Xfer`: the answer to n bytes. -/
def xferAnswer (n : Nat) (s : State) : Reply :=
  match s.dev.xfers with
  | .busErr :: _ => .busErr
  | .ok rx :: _ => .ok (fitBytes n rx s.draws)
  | [] => if Config.freeXferOk s.draws then .ok (fitBytes n [] (s.draws + 1)) else .busErr

/-- The free values an Xfer of n bytes draws. -/
def xferDraws (n : Nat) (s : State) : Nat :=
  match s.dev.xfers with
  | .busErr :: _ => 0
  | .ok rx :: _ => n - rx.length
  | [] => 1 + n

/-- The chip selects with the one of a channel at a level (R49). -/
def setSelect (ch : Channel) (v : Bool) (s : State) : State :=
  match ch with
  | .ctrl => { s with csCtrl := v }
  | .data => { s with csData := v }

/-- `Xfer(ch, bytes)`: its event, its answer's BERR (R139), and its chip select released. -/
def xfer (t : Transaction) (s : State) : State :=
  setSelect t.ch false
    { s with
      dev := { s.dev with xfers := s.dev.xfers.tail }
      draws := s.draws + xferDraws t.bytes.length s
      trace := s.trace ++ [.xfer t.ch t.bytes (xferAnswer t.bytes.length s)]
      berr := s.berr || decide (xferAnswer t.bytes.length s = .busErr) }

/-! ### Procedures of file 41: WaitReady, and the transaction it gates (R160) -/

/-- WaitReady has returned w: the transaction it gates comes next, if there is one. A TIMEOUT goes on exactly as
READY does (R163). -/
def afterWait (w : Ret) (t : Option Transaction) (s : State) : State :=
  match t with
  | none => { s with call := none, ret := some w }
  | some t => { s with call := some (.select t) }

/-- One action of a procedure (R161, R165, R166, R170). -/
def callStep (c : Call) (s : State) : State :=
  match c with
  | .sample 0 t => afterWait .timeout t ((timeoutFlags s).emit .timeout)
  | .sample (n + 1) t =>
    if sampleAnswer s then afterWait .ready t (sampleReady s)
    else { sampleReady s with call := some (.pollDelay n t) }
  | .pollDelay n t => { delayFor s.cfg.pollIntervalTicks s with call := some (.sample n t) }
  | .select t => { setSelect t.ch true s with call := some (.shift t) }
  | .shift t => { xfer t s with call := none, ret := some (.reply (xferAnswer t.bytes.length s)) }

/-- The most actions a procedure has left: every wait is bounded by READY_POLLS (R141). -/
def Call.cost : Call → Nat
  | .sample n _ => 2 * n + 3
  | .pollDelay n _ => 2 * n + 4
  | .select _ => 2
  | .shift _ => 1

/-- At most n actions of the procedure in progress, up to its return or to the next input that lands. -/
def runCall : Nat → State → State
  | 0, s => s
  | n + 1, s =>
    match s.call with
    | none => s
    | some c => if s.due then s else runCall n (tick (callStep c s))

/-- The procedure in progress run up to its return or to the next input that lands. -/
def finishCall (s : State) : State :=
  match s.call with
  | none => s
  | some c => runCall c.cost s

/-- A procedure of file 41 is called: WaitReady (R161), then the Xfer it gates. -/
def beginCall (t : Option Transaction) (s : State) : State :=
  { s with call := some (.sample s.cfg.readyPolls t), ret := none }

/-- WaitReady and the transaction it gates, up to the return or to the next input that lands (R160). -/
def transact (t : Option Transaction) (s : State) : State := finishCall (beginCall t s)

/-! ### Completion and reset -/

/-- `complete(code, result)` (R140), one action. It is all that an error leaves (R317). -/
def complete (code : ResultCode) (result : Word) (s : State) : State :=
  { s with result := result, code := code, busy := false, cur := none, call := none, ret := none }

/-- Controller reset (R340): every controller state element at its reset value in one step, a command in progress
abandoned (R341). The parameters stay, and so do the world outside and the host's log (log 16). -/
def controllerReset (s : State) : State :=
  { State.resetWith s.cfg with dev := s.dev, draws := s.draws, inputs := s.inputs, hostLog := s.hostLog }

end Sys2Proof.Machine
end

