-- ==== Sys2Proof/Machine/Header.lean ====
section
/-! DEFINITION. The 48-byte bootstrap header (spec/45_adpcm_decode.md R284). -/

namespace Sys2Proof.Machine

/-- The byte-rate field: `(sr × ch × BITS_PER_SAMPLE) div 8`, exact over the naturals (R284, R286). -/
def byteRate (p : Params) (sr : Word) (ch : Byte) : Nat := sr.toNat * ch.toNat * p.bitsPerSample.toNat / 8

/-- The bytes of BuildHeader(sr, ch) (R284): every field little-endian. -/
def headerBytes (p : Params) (sr : Word) (ch : Byte) : List Byte :=
  [0x52, 0x49, 0x46, 0x46] ++ le32 p.lenMarker
    ++ [0x57, 0x41, 0x56, 0x45]
    ++ [0x66, 0x6D, 0x74, 0x20] ++ le32 20
    ++ le16 p.formatTag ++ le16 (ch.zeroExtend 16) ++ le32 sr ++ le32 (BitVec.ofNat 32 (byteRate p sr ch))
    ++ le16 (BitVec.ofNat 16 p.blockSize) ++ le16 p.bitsPerSample ++ le16 2 ++ le16 p.samplesPerBlock
    ++ [0x64, 0x61, 0x74, 0x61] ++ le32 p.lenMarker

/-- BuildHeader(sr, ch): HDRBUF is written in full (R284). -/
def buildHeader (sr : Word) (ch : Byte) (s : State) : State :=
  { s with hdrbuf := s.hdrbuf.writeAll 0 (headerBytes s.cfg sr ch) }

end Sys2Proof.Machine
end

