-- ==== Sys2Proof/Machine/Sequencer.lean ====
section
/-! DEFINITION. The sequencer: how a Body advances, one statement at a time (spec/40_host_interface.md R138,
spec/10_state.md R50, R52), and how a command is launched (R130 to R136). -/

namespace Sys2Proof.Machine

/-! ### The frames a Body asks for -/

/-- The bytes of BUF or HDRBUF that a chunk sends. -/
def chunkBytes (src : Source) (off n : Nat) (s : State) : List Byte := ((s.source src).readAll off s.draws n).1

/-- The frame a job sends, as an instruction (R105 to R107). -/
def Job.instr (j : Job) (s : State) : Instr :=
  match j with
  | .write r v => .ctrlWrite r v
  | .verify => .ctrlRead s.cfg.regClock
  | .read r => .ctrlRead r
  | .words _ => .ctrlRead s.cfg.regRecWords
  | .word _ => .ctrlRead s.cfg.regRecData
  | .chunk src off n => .dataChunk (chunkBytes src off n s)

/-- The state once the frame's operands are taken: a chunk draws a free value for each byte it sends that nothing
has written (U1). The bytes are taken when the frame's WaitReady begins (log 20). -/
def Job.load (j : Job) (s : State) : State :=
  match j with
  | .chunk src off n => { s with draws := ((s.source src).readAll off s.draws n).2 }
  | .write _ _ | .verify | .read _ | .words _ | .word _ => s

/-- The transaction of a frame. -/
def frameOf (p : Params) (i : Instr) : Option Transaction :=
  match encode p i with
  | .cmd _ => none
  | .frame ch bytes => some { ch := ch, bytes := bytes }

/-- The statements of SendData(src, len): its chunks in order, each full but the last (R170, R171). -/
def sendData (src : Source) (len : Nat) : List Stmt :=
  (List.range ((len + (chunkMax - 1)) / chunkMax)).map fun c =>
    .frame (.chunk src (chunkMax * c) (min chunkMax (len - chunkMax * c)))

/-! ### What a Body does with an answer -/

/-- RESULT when a job's transaction fails: 0, but the bytes already stored where READ_BLOCK drains (R260). -/
def Job.partialResult : Job → Word
  | .word k => BitVec.ofNat 32 (2 * k)
  | .write _ _ | .verify | .read _ | .words _ | .chunk _ _ _ => 0

/-- The Body goes on with other statements. -/
def setBody (op : Opcode) (body : List Stmt) (s : State) : State :=
  { s with cur := some { op := op, body := body }, ret := none }

/-- READ_BLOCK's statements once a words are known to be available (R260). -/
def drainBody (avail : Half) (cap : Nat) : List Stmt :=
  if avail = 0 then [.finish .ok 0]
  else
    (List.range (wordCount avail cap)).map (fun k => .frame (.word k))
      ++ [.finish .ok (BitVec.ofNat 32 (2 * wordCount avail cap))]

/-- A recorded word stored big-endian in BUF (spec/20_memory.md R80). -/
def storeWord (k : Nat) (w : Half) (s : State) : State :=
  { s with buf := (s.buf.write (2 * k) (hiByte w)).write (2 * k + 1) (loByte w) }

/-- The Body's next statements after an Ok answer. -/
def bodyAfter (p : Params) (j : Job) (rx : List Byte) (rest : List Stmt) : List Stmt :=
  match j with
  | .write _ _ => rest
  | .verify => if readValue rx = p.clockDefault then rest else [.finish .hwNotResponding 0]
  | .read _ => [.finish .ok (zext32 (readValue rx))]
  | .words cap => drainBody (readValue rx) cap
  | .word _ => rest
  | .chunk _ _ _ => rest

/-- What an Ok answer writes. R138 does not say which step READ_BLOCK's stores belong to: they are an action of their
own, so that a host access may land after the Xfer and before them, or after them and before the next SampleReady or
the completion, with BUSY = 1 (DESIGN CHOICE, log 24). -/
def storeAnswer (j : Job) (rx : List Byte) (s : State) : State :=
  match j with
  | .word k => tick (storeWord k (readValue rx) s)
  | .write _ _ | .verify | .read _ | .words _ | .chunk _ _ _ => s

/-- The Body takes the answer of its frame: BUSERR ends it (R14, R167), with no retry and no further primitive. No
controller action passes but READ_BLOCK's stores (log 24). -/
def takeAnswer (op : Opcode) (j : Job) (r : Ret) (rest : List Stmt) (s : State) : State :=
  match r with
  | .reply .busErr => setBody op [.finish .busError j.partialResult] s
  | .reply (.ok rx) => setBody op (bodyAfter s.cfg j rx rest) (storeAnswer j rx s)
  | .ready => setBody op rest s
  | .timeout => setBody op rest s

/-- The completion of a command, one action: its FSM change, then `complete` (R140). -/
def finish (op : Opcode) (code : ResultCode) (result : Word) (s : State) : State :=
  complete code result (finishFsm op code s)

/-! ### One advance of a Body -/

/-- A Body's next statement. A wait or a frame advances twice: the procedure, then the answer. -/
def advanceStmt (op : Opcode) (st : Stmt) (rest : List Stmt) (s : State) : State :=
  match st with
  | .configure ch =>
    setBody op (if configAnswer s then rest else [.finish .busError 0]) (tick (configure ch s))
  | .resetN v => setBody op rest (tick (setResetN v s))
  | .delay t => setBody op rest (tick (delayFor t s))
  | .wait =>
    match s.ret with
    | none => transact none s
    | some _ => setBody op rest s
  | .frame j =>
    match s.ret with
    | none => transact (frameOf s.cfg (j.instr s)) (j.load s)
    | some r => takeAnswer op j r rest s
  | .finish code result => finish op code result s

/-- The command in progress advances: the procedure it is in, or its next statement. The end of the Body is
`complete(OK, 0)`. -/
def advance (s : State) : State :=
  match s.call with
  | some _ => finishCall s
  | none =>
    match s.cur with
    | none => s
    | some { op := op, body := [] } => finish op .ok 0 s
    | some { op := op, body := st :: rest } => advanceStmt op st rest s

/-- The advances a statement may take. -/
def Stmt.cost : Stmt → Nat
  | .configure _ => 1
  | .resetN _ => 1
  | .delay _ => 1
  | .wait => 2
  | .frame (.words cap) => 2 * (cap / 2) + 3
  | .frame _ => 2
  | .finish _ _ => 1

/-- The advances a Body may take: every loop is bounded (R141). -/
def bodyCost (body : List Stmt) : Nat := (body.map Stmt.cost).sum + 1

/-- At most n advances, up to the command's completion or to the next input that lands. -/
def runBody : Nat → State → State
  | 0, s => s
  | n + 1, s =>
    match s.cur with
    | none => s
    | some _ => if s.due then s else runBody n (advance s)

/-! ### Launch -/

/-- A legal CMD word w written by the host (R131): ignored while BUSY = 1 (R132); else launched (R133), with
WRONG_STATE where the state check fails (R135), and otherwise run as its Body, from the assignments that stand
before the first primitive (log 8), up to its completion or to the next input that lands (log 1). -/
def launch (op : Opcode) (w : Word) (enter : State → State) (body : State → List Stmt) (s : State) : State :=
  if s.busy then ignoredWrite s
  else if allowed op s.fsm s.hdr then
    let s := enter { s with cmd := w, busy := true, call := none, ret := none }
    runBody (bodyCost (body s)) { s with cur := some { op := op, body := body s } }
  else complete .wrongState 0 { s with cmd := w, busy := true }

/-- An illegal CMD word written by the host (R134). -/
def illegalCommand (w : Word) (s : State) : State :=
  if s.busy then ignoredWrite s else complete .illegalCommand 0 { s with cmd := w, busy := true }

end Sys2Proof.Machine
end

