-- ==== Sys2Proof/Machine/RegisterIO.lean ====
section
/-! DEFINITION. REG_WRITE, REG_READ and BULK_WRITE (spec/42_register_block_io.md). -/

namespace Sys2Proof.Machine

/-- A Body with no assignment before its first primitive. -/
def enterPlain (s : State) : State := s

/-- Body(REG_WRITE) (R190). -/
def regWriteBody (r : Byte) (v : Half) (_ : State) : List Stmt := [.frame (.write r v)]

/-- REG_WRITE (R190). -/
def execRegWrite (r : Byte) (v : Half) (s : State) : Host.Outcome State Fault Refusal :=
  .next (launch .regWrite (cmdWord .regWrite r v) enterPlain (regWriteBody r v) s)

/-- Body(REG_READ) (R195). -/
def regReadBody (r : Byte) (_ : State) : List Stmt := [.frame (.read r)]

/-- REG_READ (R195). -/
def execRegRead (r : Byte) (ign : Half) (s : State) : Host.Outcome State Fault Refusal :=
  .next (launch .regRead (cmdWord .regRead r ign) enterPlain (regReadBody r) s)

/-- Body(BULK_WRITE) (R200): len = ARG0. -/
def bulkWriteBody (s : State) : List Stmt :=
  if s.arg0.toNat > s.cfg.bufSize then [.finish .badArgument 0] else sendData .buf s.arg0.toNat

/-- BULK_WRITE (R200). -/
def execBulkWrite (ign : BitVec 24) (s : State) : Host.Outcome State Fault Refusal :=
  .next (launch .bulkWrite (cmdWordIgn .bulkWrite ign) enterPlain bulkWriteBody s)

end Sys2Proof.Machine
end

