-- ==== Sys2Proof/Machine/Decoding.lean ====
section
/-! DEFINITION. START_DECODE, EMIT_HEADER and WRITE_BLOCK (spec/45_adpcm_decode.md). -/

namespace Sys2Proof.Machine

/-- Body(START_DECODE) (R280). -/
def startDecodeBody (s : State) : List Stmt := [.frame (.write s.cfg.regMode (modeDecode s.cfg))]

/-- START_DECODE (R280). -/
def execStartDecode (ign : BitVec 24) (s : State) : Host.Outcome State Fault Refusal :=
  .next (launch .startDecode (cmdWordIgn .startDecode ign) enterPlain startDecodeBody s)

/-- EMIT_HEADER's arguments are in range (R285): the rate in ARG0, the channels in ARG1[7:0]. -/
def headerArgsOk (s : State) : Bool := rateOk s.arg0 && channelsOk (channelsByte s.arg1)

/-- Body(EMIT_HEADER) before its first primitive: BuildHeader, unless an argument is out of range (R285). -/
def emitHeaderEnter (s : State) : State :=
  if headerArgsOk s then buildHeader s.arg0 (channelsByte s.arg1) s else s

/-- Body(EMIT_HEADER) from its first primitive (R285). -/
def emitHeaderBody (s : State) : List Stmt :=
  if headerArgsOk s then sendData .hdrbuf hdrLen else [.finish .badArgument 0]

/-- EMIT_HEADER (R285). -/
def execEmitHeader (ign : BitVec 24) (s : State) : Host.Outcome State Fault Refusal :=
  .next (launch .emitHeader (cmdWordIgn .emitHeader ign) emitHeaderEnter emitHeaderBody s)

/-- Body(WRITE_BLOCK) (R290). -/
def writeBlockBody (s : State) : List Stmt :=
  if s.hdr then sendData .buf s.cfg.blockSize else [.finish .headerRequired 0]

/-- WRITE_BLOCK (R290). -/
def execWriteBlock (ign : BitVec 24) (s : State) : Host.Outcome State Fault Refusal :=
  .next (launch .writeBlock (cmdWordIgn .writeBlock ign) enterPlain writeBlockBody s)

end Sys2Proof.Machine
end

