-- ==== Sys2Proof/Machine/Frames.lean ====
section
/-! DEFINITION. The three device-side frames as instructions (spec/30_encoding.md R105 to R107): what the controller
does to send one. A Body's frame is run by these meanings (Machine/Step.lean). -/

namespace Sys2Proof.Machine

/-- A frame sent: one WaitReady and one Xfer (R160). The controller never overlaps two transactions (R88). -/
def sendFrame (t : Transaction) (s : State) : Host.Outcome State Fault Refusal :=
  match s.call with
  | some _ => .refused .transactionInProgress
  | none => .next (transact (some t) s)

/-- CTRL_WRITE: RegWr(r, v) (R165). `ret` holds the answer. -/
def execCtrlWrite (r : Byte) (v : Half) (s : State) : Host.Outcome State Fault Refusal :=
  sendFrame { ch := .ctrl, bytes := writeFrame s.cfg r v } s

/-- CTRL_READ: RegRd(r) (R166). `ret` holds the answer; its value is `readValue`. -/
def execCtrlRead (r : Byte) (s : State) : Host.Outcome State Fault Refusal :=
  sendFrame { ch := .ctrl, bytes := readFrame s.cfg r } s

/-- DATA_CHUNK: one chunk of SendData (R170). A payload of 0 or of more than 32 bytes is never sent (R108). -/
def execDataChunk (payload : List Byte) (s : State) : Host.Outcome State Fault Refusal :=
  if chunkOk payload then sendFrame { ch := .data, bytes := payload } s
  else .refused (.chunkNeverSent payload.length)

end Sys2Proof.Machine
end

