-- ==== Sys2Proof/Machine/Lifecycle.lean ====
section
/-! DEFINITION. INIT and STOP (spec/43_lifecycle.md). -/

namespace Sys2Proof.Machine

/-- INIT's readback, where VERIFY_ON_INIT asks for it (R220, D18). -/
def verifyStmts (p : Params) : List Stmt := if p.verifyOnInit then [.frame .verify] else []

/-- Body(INIT) from its first primitive (R220). -/
def initBody (s : State) : List Stmt :=
  [ .configure .ctrl, .configure .data,
    .resetN false, .delay s.cfg.resetAssertTicks, .resetN true, .delay s.cfg.resetRecoverTicks,
    .frame (.write s.cfg.regMode (modeSoftReset s.cfg)),
    .frame (.write s.cfg.regClock s.cfg.clockDefault),
    .frame (.write s.cfg.regVolume s.cfg.volDefault) ] ++ verifyStmts s.cfg

/-- Body(INIT) before its first primitive: STATE <- RESET, INIT <- 0, HDR <- 0 (R220, R221). -/
def initEnter (s : State) : State := { s with fsm := .reset, initFlag := false, hdr := false }

/-- INIT (R220). -/
def execInit (ign : BitVec 24) (s : State) : Host.Outcome State Fault Refusal :=
  .next (launch .init (cmdWordIgn .init ign) initEnter initBody s)

/-- Body(STOP) from its first primitive (R230). -/
def stopBody (s : State) : List Stmt := [.frame (.write s.cfg.regMode (modeSoftReset s.cfg))]

/-- Body(STOP) before its first primitive: HDR <- 0 (R230). -/
def stopEnter (s : State) : State := { s with hdr := false }

/-- STOP (R230). -/
def execStop (ign : BitVec 24) (s : State) : Host.Outcome State Fault Refusal :=
  .next (launch .stop (cmdWordIgn .stop ign) stopEnter stopBody s)

end Sys2Proof.Machine
end

