-- ==== Sys2Proof/Machine/Record.lean ====
section
/-! DEFINITION. START_RECORD and READ_BLOCK (spec/44_adpcm_record.md). -/

namespace Sys2Proof.Machine

/-- Body(START_RECORD) (R250): the mode word, a WaitReady of its own, then the four record-control registers. -/
def startRecordBody (s : State) : List Stmt :=
  if rateOk s.arg0 then
    [ .frame (.write s.cfg.regMode (modeRecord s.cfg)), .wait,
      .frame (.write s.cfg.regRecProfile s.cfg.recProfileValue),
      .frame (.write s.cfg.regRecRate (rateHalf s.arg0)),
      .frame (.write s.cfg.regRecReserved 0x0000),
      .frame (.write s.cfg.regRecStereo (stereoHalf s.arg1)) ]
  else [.finish .badArgument 0]

/-- START_RECORD (R250). -/
def execStartRecord (ign : BitVec 24) (s : State) : Host.Outcome State Fault Refusal :=
  .next (launch .startRecord (cmdWordIgn .startRecord ign) enterPlain startRecordBody s)

/-- Body(READ_BLOCK) (R260): the status read; the drain follows from its answer (`drainBody`). -/
def readBlockBody (s : State) : List Stmt := [.frame (.words (capacity s.cfg s.arg0))]

/-- READ_BLOCK (R260). -/
def execReadBlock (ign : BitVec 24) (s : State) : Host.Outcome State Fault Refusal :=
  .next (launch .readBlock (cmdWordIgn .readBlock ign) enterPlain readBlockBody s)

end Sys2Proof.Machine
end

