-- ==== Sys2Proof/Machine/Dispatch.lean ====
section
/-! DEFINITION. One arm per constructor of Instr: its meaning. A command's meaning is a host write of its word to
CMD (spec/40_host_interface.md R131). -/

namespace Sys2Proof.Machine

def exec (i : Instr) (s : State) : Host.Outcome State Fault Refusal :=
  match i with
  | .init ign => Sys2Proof.Machine.execInit ign s
  | .regWrite r v => Sys2Proof.Machine.execRegWrite r v s
  | .regRead r ign => Sys2Proof.Machine.execRegRead r ign s
  | .bulkWrite ign => Sys2Proof.Machine.execBulkWrite ign s
  | .startRecord ign => Sys2Proof.Machine.execStartRecord ign s
  | .readBlock ign => Sys2Proof.Machine.execReadBlock ign s
  | .startDecode ign => Sys2Proof.Machine.execStartDecode ign s
  | .emitHeader ign => Sys2Proof.Machine.execEmitHeader ign s
  | .writeBlock ign => Sys2Proof.Machine.execWriteBlock ign s
  | .stop ign => Sys2Proof.Machine.execStop ign s
  | .ctrlWrite r v => Sys2Proof.Machine.execCtrlWrite r v s
  | .ctrlRead r => Sys2Proof.Machine.execCtrlRead r s
  | .dataChunk payload => Sys2Proof.Machine.execDataChunk payload s

end Sys2Proof.Machine
end

