-- ==== Sys2Proof/Machine/HostWindow.lean ====
section
/-! DEFINITION. The host's side: reads and writes of the window (spec/20_memory.md R72 to R76), and the inputs that
land on the controller. -/

namespace Sys2Proof.Machine

/-- The four bytes of BUF word k as a host read draws them (R74, R78). -/
def bufWordBytes (s : State) (k : Nat) : List Byte := (s.buf.readAll (4 * k) s.draws 4).1

/-- The value a host read returns (R74). -/
def readReg (r : WindowReg) (s : State) : Word :=
  match r with
  | .cmd => s.cmd
  | .arg0 => s.arg0
  | .arg1 => s.arg1
  | .status => statusWord s
  | .result => s.result
  | .tmoCount => s.tmoCount
  | .bufWord k => wordOfBytes (bufWordBytes s k)
  | .unmapped => 0

/-- The draw counter after a host read: a BUF byte that nothing has written is a free value (U1). No host read has
another effect on the controller (R74). -/
def readDraws (r : WindowReg) (s : State) : Nat :=
  match r with
  | .bufWord k => (s.buf.readAll (4 * k) s.draws 4).2
  | .cmd | .arg0 | .arg1 | .status | .result | .tmoCount | .unmapped => s.draws

/-- A legal host read of a register at an address: the value goes to the host's log. -/
def hostRead (addr : Nat) (s : State) : State :=
  { s with
    draws := readDraws (windowReg s.cfg (addr - s.cfg.base)) s
    hostLog := s.hostLog ++ [.read addr (readReg (windowReg s.cfg (addr - s.cfg.base)) s)] }

/-- `wait_idle` comes to its next poll, after the first of `gaps`. -/
def pollAgain (gaps : List Nat) (s : State) : State :=
  { s with inputs := (gaps.headD 0, .waitIdle gaps.tail) :: s.inputs }

/-- A poll of `wait_idle` (R117): `hr STATUS -> s`, and again if `s[3] = 1`. -/
def pollStatus (gaps : List Nat) (s : State) : State :=
  if (readReg .status s).getLsbD 3 then pollAgain gaps (hostRead (s.cfg.base + offStatus) s)
  else hostRead (s.cfg.base + offStatus) s

/-- The inputs without the host program's: a controller reset comes from outside it, and stays, as many controller
actions away as the program's accesses before it waited for (log 17). -/
def dropProgram : Nat → List (Nat × Input) → List (Nat × Input)
  | _, [] => []
  | n, (w, .reset) :: rest => (n + w, .reset) :: dropProgram 0 rest
  | n, (w, .read _ _) :: rest => dropProgram (n + w) rest
  | n, (w, .write _ _ _) :: rest => dropProgram (n + w) rest
  | n, (w, .waitIdle gaps) :: rest => dropProgram (n + w + gaps.sum) rest
  | n, (w, .check _ _ _) :: rest => dropProgram (n + w) rest

/-- The host program stops as failed: it issues no further access, and the controller is not affected (R119). -/
def stopProgram (s : State) : State :=
  { s with inputs := dropProgram 0 s.inputs, hostLog := s.hostLog ++ [.programFailed] }

/-- The write of v to BUF word k: its four bytes together (R75, R76). -/
def writeBufWord (k : Nat) (v : Word) (s : State) : State := { s with buf := s.buf.writeAll (4 * k) (le32 v) }

/-- A host write of v to CMD (R131): the command its word decodes to, or an illegal one. -/
def writeCmd (v : Word) (s : State) : Host.Outcome State Fault Refusal :=
  match decodeCmd v with
  | .ok i => exec i s
  | .error _ => .next (illegalCommand v s)

/-- A legal host write of v to a register (R75). -/
def writeReg (r : WindowReg) (v : Word) (s : State) : Host.Outcome State Fault Refusal :=
  match r with
  | .cmd => writeCmd v s
  | .arg0 => .next (if s.busy then ignoredWrite s else { s with arg0 := v })
  | .arg1 => .next (if s.busy then ignoredWrite s else { s with arg1 := v })
  | .status => .next (clearFlags v s)
  | .result => .next s
  | .tmoCount => .next s
  | .bufWord k => .next (if s.busy then ignoredWrite s else writeBufWord k v s)
  | .unmapped => .next s

/-- An access that reaches the window and is legal goes on; one outside the window is not the controller's (log 11);
an illegal one is a bus error of the host (R73). -/
def guardAccess (addr : Nat) (width : Width) (s : State) (act : State → Host.Outcome State Fault Refusal) :
    Host.Outcome State Fault Refusal :=
  if inWindow s.cfg addr then
    if accessLegal s.cfg addr width then act s else .fault (.hostBusError addr width)
  else .refused (.outsideWindow addr)

/-- An input takes effect. -/
def perform (i : Input) (s : State) : Host.Outcome State Fault Refusal :=
  match i with
  | .read addr width => guardAccess addr width s fun s => .next (hostRead addr s)
  | .write addr width v => guardAccess addr width s (writeReg (windowReg s.cfg (addr - s.cfg.base)) v)
  | .waitIdle gaps => .next (pollStatus gaps s)
  | .check addr mask val =>
    guardAccess addr .w32 s fun s =>
      .next (if readReg (windowReg s.cfg (addr - s.cfg.base)) s &&& mask = val then hostRead addr s
        else stopProgram (hostRead addr s))
  | .reset => .next (controllerReset s)

end Sys2Proof.Machine
end

