-- ==== Sys2Proof/Machine/Step.lean ====
section
/-! DEFINITION. One step, and where the next instruction of a step stands. -/

namespace Sys2Proof.Machine

/-- A step of the command in progress, no input landing: its next frame is an instruction, run by `exec`; anything
else is an advance of the sequencer. -/
def stepBody (s : State) : Host.Outcome State Fault Refusal :=
  match s.call, s.ret, s.cur with
  | none, none, some { op := _, body := .frame j :: _ } => exec (j.instr s) (j.load s)
  | _, _, _ => .next (advance s)

/-- One step (log 1). An idle controller takes the next input; with none to come it does nothing (spec/
70_reset_and_hazards.md R342). A controller that runs a command takes an input that is due (spec/
40_host_interface.md R138) or advances. A configuration outside the bounds is refused (U14). -/
def step (s : State) : Host.Outcome State Fault Refusal :=
  if s.cfg.Wf then
    if s.cur.isNone || s.due then
      match s.inputs with
      | [] => .next s
      | (_, i) :: rest => perform i { s with inputs := rest }
    else stepBody s
  else .refused .badConfiguration

/-- The state whose command in progress sends a frame next. -/
def State.withJob (s : State) (op : Opcode) (j : Job) : State :=
  { s with
    busy := true
    cur := some { op := op, body := [.frame j] }
    call := none
    ret := none
    inputs := [] }

/-- The state with a table word where the next step fetches its instruction. The controller fetches no instruction
(spec/10_state.md R52): a command is fetched from the host's next access, a write of its word to CMD; a frame is
fetched from the Body of the command in progress (logs 12, 15). -/
def State.withFetchWord (s : State) (nbits w : Nat) : State :=
  match decodeTableWord nbits w with
  | some (.ctrlWrite r v) => s.withJob .regWrite (.write r v)
  | some (.ctrlRead r) => s.withJob .regRead (.read r)
  | some (.dataChunk payload) =>
    { s with buf := s.buf.writeAll 0 payload }.withJob .bulkWrite (.chunk .buf 0 payload.length)
  | _ =>
    { s with
      busy := false
      cur := none
      call := none
      ret := none
      inputs := (0, .write (s.cfg.base + offCmd) .w32 (BitVec.ofNat 32 w)) :: s.inputs }

end Sys2Proof.Machine
end

