-- ==== Sys2Proof/Machine/Programs.lean ====
section
/-! DEFINITION. Host programs (spec/30_encoding.md R116 to R119): host instructions and pseudo-instructions as the
inputs they stand for, the boot and pipeline sequences of spec/70_reset_and_hazards.md R344 to R346, and the spelling
of the device trace (R119). -/

namespace Sys2Proof.Machine

/-- A host program: inputs, as written with each landing as soon as it may and a `wait_idle` polling once the command
has completed. `pace` gives a program any other timing. -/
abbrev Program := List (Nat × Input)

/-- `hw OFF, IMM` (R116). -/
def hw (p : Params) (off : Nat) (v : Word) : Program := [(0, .write (p.base + off) .w32 v)]

/-- `hr OFF -> NAME` (R116): the value is the next entry of `hostLog`. -/
def hr (p : Params) (off : Nat) : Program := [(0, .read (p.base + off) .w32)]

/-- `BUF+n` (R116). -/
def bufOff (n : Nat) : Nat := offBuf + n

/-- `wait_idle` (R117). -/
def waitIdle : Program := [(0, .waitIdle [])]

/-- `check OFF, MASK, VAL` (R119). -/
def checkReg (p : Params) (off : Nat) (mask val : Word) : Program := [(0, .check (p.base + off) mask val)]

/-- `hw CMD, w ; wait_idle`. -/
def command (p : Params) (w : Word) : Program := hw p offCmd w ++ waitIdle

/-- `init` (R118). -/
def progInit (p : Params) : Program := command p (cmdWord .init 0 0)

/-- `reg_write r, v` (R118). -/
def progRegWrite (p : Params) (r : Byte) (v : Half) : Program := command p (cmdWord .regWrite r v)

/-- `reg_read r -> NAME` (R118). -/
def progRegRead (p : Params) (r : Byte) : Program := command p (cmdWord .regRead r 0) ++ hr p offResult

/-- `bulk_write len` (R118). -/
def progBulkWrite (p : Params) (len : Word) : Program := hw p offArg0 len ++ command p (cmdWord .bulkWrite 0 0)

/-- `start_record sr, st` (R118). -/
def progStartRecord (p : Params) (sr st : Word) : Program :=
  hw p offArg0 sr ++ hw p offArg1 st ++ command p (cmdWord .startRecord 0 0)

/-- `read_block max -> NAME` (R118). -/
def progReadBlock (p : Params) (maxLen : Word) : Program :=
  hw p offArg0 maxLen ++ command p (cmdWord .readBlock 0 0) ++ hr p offResult

/-- `start_decode` (R118). -/
def progStartDecode (p : Params) : Program := command p (cmdWord .startDecode 0 0)

/-- `emit_header sr, ch` (R118). -/
def progEmitHeader (p : Params) (sr ch : Word) : Program :=
  hw p offArg0 sr ++ hw p offArg1 ch ++ command p (cmdWord .emitHeader 0 0)

/-- `write_block` (R118). -/
def progWriteBlock (p : Params) : Program := command p (cmdWord .writeBlock 0 0)

/-- `stop` (R118). -/
def progStop (p : Params) : Program := command p (cmdWord .stop 0 0)

/-- `fill BUF+n, b0 b1 …` (R119): 4m bytes, as the syntax has it; fillBlock takes any number. -/
def fillBuf (p : Params) (n : Nat) : List Byte → Program
  | b0 :: b1 :: b2 :: b3 :: rest => hw p (bufOff n) (b3 ++ b2 ++ b1 ++ b0) ++ fillBuf p (n + 4) rest
  | _ => []

/-- The boot order (R344): INIT, then the check of RESULT_CODE = OK and STATE = IDLE. -/
def bootSequence (p : Params) : Program := progInit p ++ checkReg p offStatus 0x00000F07 0x00000002

/-- The recording sequence with n drains (R345). -/
def recordSequence (p : Params) (sr st : Word) (n : Nat) : Program :=
  progStartRecord p sr st ++ (List.replicate n (progReadBlock p (BitVec.ofNat 32 p.blockSize))).flatten ++ progStop p

/-- `check STATUS` of the result code of the last command (R119). -/
def checkCode (p : Params) (code : ResultCode) : Program := checkReg p offStatus 0x00000F00 (code.bits.zeroExtend 32 <<< 8)

/-- `emit_header sr, ch`, retried until OK (R346): an attempt for each code of `failed`, the outcomes of the attempts
that are not OK, and the attempt that is. Each attempt's result code is tested, so the program goes on only along the
outcomes that it names (log 28). -/
def emitHeaderUntilOk (p : Params) (sr ch : Word) (failed : List ResultCode) : Program :=
  (failed.map fun code => progEmitHeader p sr ch ++ checkCode p code).flatten
    ++ progEmitHeader p sr ch ++ checkCode p .ok

/-- A block written to BUF from offset 0: its last word is completed with zeros, for the host writes whole words
(log 27). -/
def fillBlock (p : Params) (block : List Byte) : Program :=
  fillBuf p 0 (block ++ List.replicate ((4 - block.length % 4) % 4) 0x00)

/-- The decoding sequence: the header once, retried until OK, then the blocks in order (R346). -/
def decodeSequence (p : Params) (sr ch : Word) (failed : List ResultCode) (blocks : List (List Byte)) : Program :=
  progStartDecode p ++ emitHeaderUntilOk p sr ch failed
    ++ (blocks.map fun b => fillBlock p b ++ progWriteBlock p).flatten ++ progStop p

/-- An access at a timing: the wait before it, and for a `wait_idle` the waits before the polls that land while the
command runs, from the first. -/
def paceInput (waits : List Nat) (i : Nat × Input) : Nat × Input :=
  match waits, i with
  | [], i => i
  | w :: ws, (_, .waitIdle _) => (w, .waitIdle (ws ++ [0]))
  | w :: _, (_, .read addr width) => (w, .read addr width)
  | w :: _, (_, .write addr width v) => (w, .write addr width v)
  | w :: _, (_, .check addr mask val) => (w, .check addr mask val)
  | w :: _, (_, .reset) => (w, .reset)

/-- A program at a timing of the host's, access by access (log 2). -/
def pace : List (List Nat) → Program → Program
  | waits :: more, i :: rest => paceInput waits i :: pace more rest
  | [], prog => prog
  | _ :: _, [] => []

/-- A program put before the host's other inputs. -/
def State.withProgram (s : State) (prog : Program) : State := { s with inputs := prog ++ s.inputs }

/-! ### The spelling of the device trace (R119) -/

/-- One hexadecimal digit. -/
def hexDigit (n : Nat) : String := String.singleton ("0123456789ABCDEF".toList.getD n '0')

/-- A byte as two hexadecimal digits. -/
def hexByte (b : Byte) : String := hexDigit (b.toNat / 16) ++ hexDigit (b.toNat % 16)

/-- Bytes between brackets, spaces between them. -/
def hexBytes (bs : List Byte) : String := "[" ++ " ".intercalate (bs.map hexByte) ++ "]"

/-- A channel's name. -/
def channelName : Channel → String
  | .ctrl => "CTRL"
  | .data => "DATA"

/-- The bytes after a read frame: only a read's response is shown (R119). -/
def responseSpelling (p : Params) (ch : Channel) (tx rx : List Byte) : String :=
  match decode p (.frame ch tx) with
  | .ok (.ctrlRead _) => " -> " ++ hexBytes rx
  | _ => ""

/-- The spelling of an event (R119). -/
def Event.spelling (p : Params) : Event → String
  | .ready b => "RDY(" ++ (if b then "1" else "0") ++ ")"
  | .delay t => "DLY(" ++ toString t ++ ")"
  | .xfer ch tx .busErr => channelName ch ++ hexBytes tx ++ " -> BusErr"
  | .xfer ch tx (.ok rx) => channelName ch ++ hexBytes tx ++ responseSpelling p ch tx rx
  | .resetN v => "RSTN(" ++ (if v then "1" else "0") ++ ")"
  | .configure ch good => "CFG(" ++ channelName ch ++ ", " ++ (if good then "Ok" else "Err") ++ ")"
  | .timeout => "TMO"

end Sys2Proof.Machine
end

