-- ==== Sys2Proof/Machine/Reference.lean ====
section
/-! DEFINITION. The pseudocode of the spec written straight through, with no host access landing in between: what the
sequencer's run of a Body is compared with (the statements of Certificates/Slice0). No meaning is built from it. -/

namespace Sys2Proof.Machine

/-- `WaitReady()` as spec/41_handshake_bus.md R161 writes it, with the samples of its budget that are left. -/
def waitReadyRef : Nat → State → State
  | 0, s => (timeoutFlags s).emit .timeout
  | n + 1, s =>
    if sampleAnswer s then sampleReady s
    else waitReadyRef n (delayFor s.cfg.pollIntervalTicks (sampleReady s))

/-- WaitReady, then the Xfer it gates (R160). -/
def frameRef (t : Transaction) (s : State) : State := xfer t (waitReadyRef s.cfg.readyPolls s)

/-- The answer of that Xfer. -/
def frameAnswerRef (t : Transaction) (s : State) : Reply :=
  xferAnswer t.bytes.length (waitReadyRef s.cfg.readyPolls s)

/-- `if RegWr(r, v) = BUSERR: fail`, then the rest (R165). -/
def regWrRef (r : Byte) (v : Half) (fail rest : State → State) (s : State) : State :=
  match frameAnswerRef { ch := .ctrl, bytes := writeFrame s.cfg r v } s with
  | .busErr => fail (frameRef { ch := .ctrl, bytes := writeFrame s.cfg r v } s)
  | .ok _ => rest (frameRef { ch := .ctrl, bytes := writeFrame s.cfg r v } s)

/-- `x <- RegRd(r) ; if x = BUSERR: fail`, then the rest with x (R166). -/
def regRdRef (r : Byte) (fail : State → State) (rest : Half → State → State) (s : State) : State :=
  match frameAnswerRef { ch := .ctrl, bytes := readFrame s.cfg r } s with
  | .busErr => fail (frameRef { ch := .ctrl, bytes := readFrame s.cfg r } s)
  | .ok rx => rest (readValue rx) (frameRef { ch := .ctrl, bytes := readFrame s.cfg r } s)

/-- `if Configure(ch) = Err: fail`, then the rest (R175). -/
def configureRef (ch : Channel) (fail rest : State → State) (s : State) : State :=
  if configAnswer s then rest (configure ch s) else fail (configure ch s)

/-- The chunk of n bytes at an offset, as a transaction. -/
def chunkTransaction (src : Source) (off n : Nat) (s : State) : Transaction :=
  { ch := .data, bytes := chunkBytes src off n s }

/-- `if SendData(src, len) = BUSERR: fail`, then the rest: the loop of R170 from chunk c, with the chunks left. -/
def sendDataRef (src : Source) (len : Nat) (fail rest : State → State) : Nat → Nat → State → State
  | 0, _, s => rest s
  | m + 1, c, s =>
    let n := min chunkMax (len - chunkMax * c)
    let s' := (Job.chunk src (chunkMax * c) n).load s
    match frameAnswerRef (chunkTransaction src (chunkMax * c) n s) s' with
    | .busErr => fail (frameRef (chunkTransaction src (chunkMax * c) n s) s')
    | .ok _ => sendDataRef src len fail rest m (c + 1) (frameRef (chunkTransaction src (chunkMax * c) n s) s')

/-- The number of chunks of a transfer: `(len + 31) div 32` (R171). -/
def chunkCount (len : Nat) : Nat := (len + (chunkMax - 1)) / chunkMax

/-- `fault(E)` of spec/43_lifecycle.md. -/
def faultRef (code : ResultCode) (s : State) : State := complete code 0 { s with fsm := .faulted }

/-- `raise BUS_ERROR` (spec/00_scope.md R14). -/
def raiseBusError (s : State) : State := complete .busError 0 s

/-- The end of Body(INIT) (R220). -/
def initDoneRef (s : State) : State := complete .ok 0 { s with fsm := .idle, initFlag := true }

/-- The verification of Body(INIT) (R220). -/
def initVerifyRef (s : State) : State :=
  if s.cfg.verifyOnInit then
    regRdRef s.cfg.regClock (faultRef .busError)
      (fun x s => if x = s.cfg.clockDefault then initDoneRef s else faultRef .hwNotResponding s) s
  else initDoneRef s

/-- The register writes of Body(INIT) (R220). -/
def initWritesRef (s : State) : State :=
  regWrRef s.cfg.regMode (modeSoftReset s.cfg) (faultRef .busError)
    (fun s => regWrRef s.cfg.regClock s.cfg.clockDefault (faultRef .busError)
      (fun s => regWrRef s.cfg.regVolume s.cfg.volDefault (faultRef .busError) initVerifyRef s) s) s

/-- The reset pulse of Body(INIT) (R220). -/
def resetPulseRef (s : State) : State :=
  delayFor s.cfg.resetRecoverTicks (setResetN true (delayFor s.cfg.resetAssertTicks (setResetN false s)))

/-- Body(INIT) (R220). -/
def initRef (s : State) : State :=
  configureRef .ctrl (faultRef .busError)
    (configureRef .data (faultRef .busError) (fun s => initWritesRef (resetPulseRef s)))
    { s with fsm := .reset, initFlag := false, hdr := false }

/-- Body(STOP) (R230). -/
def stopRef (s : State) : State :=
  regWrRef s.cfg.regMode (modeSoftReset s.cfg) (faultRef .busError)
    (fun s => complete .ok 0 { s with fsm := .idle }) { s with hdr := false }

/-- Body(REG_WRITE) (R190). -/
def regWriteRef (r : Byte) (v : Half) (s : State) : State := regWrRef r v raiseBusError (complete .ok 0) s

/-- Body(REG_READ) (R195). -/
def regReadRef (r : Byte) (s : State) : State := regRdRef r raiseBusError (fun x => complete .ok (zext32 x)) s

/-- Body(BULK_WRITE) (R200). -/
def bulkWriteRef (s : State) : State :=
  if s.arg0.toNat > s.cfg.bufSize then complete .badArgument 0 s
  else sendDataRef .buf s.arg0.toNat raiseBusError (complete .ok 0) (chunkCount s.arg0.toNat) 0 s

/-- The four record-control registers of Body(START_RECORD), in order (R250). -/
def startRecordRegsRef (s : State) : State :=
  regWrRef s.cfg.regRecProfile s.cfg.recProfileValue raiseBusError
    (fun s => regWrRef s.cfg.regRecRate (rateHalf s.arg0) raiseBusError
      (fun s => regWrRef s.cfg.regRecReserved 0x0000 raiseBusError
        (fun s => regWrRef s.cfg.regRecStereo (stereoHalf s.arg1) raiseBusError
          (fun s => complete .ok 0 { s with fsm := .recording }) s) s) s) s

/-- Body(START_RECORD) (R250). -/
def startRecordRef (s : State) : State :=
  if s.arg0.toNat < 1 ∨ s.arg0.toNat > 65535 then complete .badArgument 0 s
  else
    regWrRef s.cfg.regMode (modeRecord s.cfg) raiseBusError
      (fun s => startRecordRegsRef (waitReadyRef s.cfg.readyPolls s)) s

/-- The drain loop of Body(READ_BLOCK) (R260): n words in all, `m` of them left, the next one number k. -/
def drainRef (n : Nat) : Nat → Nat → State → State
  | 0, _, s => complete .ok (BitVec.ofNat 32 (2 * n)) s
  | m + 1, k, s =>
    regRdRef s.cfg.regRecData (complete .busError (BitVec.ofNat 32 (2 * k)))
      (fun w s => drainRef n m (k + 1) (storeWord k w s)) s

/-- Body(READ_BLOCK) (R260). -/
def readBlockRef (s : State) : State :=
  regRdRef s.cfg.regRecWords raiseBusError
    (fun a t =>
      if a = 0 then complete .ok 0 t
      else drainRef (min a.toNat (capacity s.cfg s.arg0 / 2)) (min a.toNat (capacity s.cfg s.arg0 / 2)) 0 t) s

/-- Body(START_DECODE) (R280). -/
def startDecodeRef (s : State) : State :=
  regWrRef s.cfg.regMode (modeDecode s.cfg) raiseBusError
    (fun s => complete .ok 0 { s with fsm := .decoding, hdr := false }) s

/-- Body(EMIT_HEADER) (R285). -/
def emitHeaderRef (s : State) : State :=
  if s.arg0.toNat < 1 ∨ s.arg0.toNat > 65535 ∨ ¬ (channelsByte s.arg1 = 1 ∨ channelsByte s.arg1 = 2) then
    complete .badArgument 0 s
  else
    sendDataRef .hdrbuf hdrLen raiseBusError (fun s => complete .ok 0 { s with hdr := true }) (chunkCount hdrLen) 0
      (buildHeader s.arg0 (channelsByte s.arg1) s)

/-- Body(WRITE_BLOCK) (R290). -/
def writeBlockRef (s : State) : State :=
  if s.hdr = false then complete .headerRequired 0 s
  else sendDataRef .buf s.cfg.blockSize raiseBusError (complete .ok 0) (chunkCount s.cfg.blockSize) 0 s

/-- A CMD word w written by the host (spec/40_host_interface.md R131 to R135), with the command's Body. -/
def commandRef (op : Opcode) (w : Word) (body : State → State) (s : State) : State :=
  if s.busy then { s with ovr := true }
  else if allowed op s.fsm s.hdr then body { s with cmd := w, busy := true }
  else complete .wrongState 0 { s with cmd := w, busy := true }

end Sys2Proof.Machine
end

