-- ==== Sys2Proof/Safety.lean ====
section
/-! DEFINITION. The terms the claims use: what the trace shows, and the invariant of a safe state. -/

namespace Sys2Proof

/-! ### Instructions as commands -/

/-- The opcode of a command; none for a device-side frame. -/
def Instr.opcode? : Instr → Option Opcode
  | .init _ => some .init
  | .regWrite _ _ => some .regWrite
  | .regRead _ _ => some .regRead
  | .bulkWrite _ => some .bulkWrite
  | .startRecord _ => some .startRecord
  | .readBlock _ => some .readBlock
  | .startDecode _ => some .startDecode
  | .emitHeader _ => some .emitHeader
  | .writeBlock _ => some .writeBlock
  | .stop _ => some .stop
  | .ctrlWrite _ _ => none
  | .ctrlRead _ => none
  | .dataChunk _ => none

end Sys2Proof

namespace Sys2Proof.Machine

/-! ### What the trace shows (spec/00_scope.md R15) -/

/-- The control frames sent, in order, whatever their answers. -/
def ctrlFrames : List Event → List (List Byte)
  | [] => []
  | .xfer .ctrl tx _ :: tr => tx :: ctrlFrames tr
  | _ :: tr => ctrlFrames tr

/-- The data chunks sent, in order, whatever their answers. -/
def dataChunks : List Event → List (List Byte)
  | [] => []
  | .xfer .data tx _ :: tr => tx :: dataChunks tr
  | _ :: tr => dataChunks tr

/-- The device data stream (spec/20_memory.md R93): the bytes of the chunks in order. -/
def dataStream (tr : List Event) : List Byte := (dataChunks tr).flatten

/-- The ticks of all the delays. -/
def totalDelay : List Event → Nat
  | [] => 0
  | .delay t :: tr => t + totalDelay tr
  | _ :: tr => totalDelay tr

/-- A transaction the controller may send (spec/30_encoding.md R105 to R108): on the control channel a write frame or
a read frame, on the data channel 1 to 32 bytes. -/
def frameLegal (p : Params) (ch : Channel) (tx : List Byte) : Prop :=
  match ch with
  | .ctrl => (∃ r v, tx = writeFrame p r v) ∨ (∃ r, tx = readFrame p r)
  | .data => chunkOk tx

/-- Every transaction of a trace is one the controller may send. -/
def traceLegal (p : Params) (tr : List Event) : Prop := ∀ ch tx r, Event.xfer ch tx r ∈ tr → frameLegal p ch tx

/-- The event ends a WaitReady. -/
def Event.endsWait : Event → Bool
  | .ready b => b
  | .timeout => true
  | .delay _ => false
  | .xfer _ _ _ => false
  | .resetN _ => false
  | .configure _ _ => false

/-- The event is an Xfer. -/
def Event.isXfer : Event → Bool
  | .xfer _ _ _ => true
  | .ready _ => false
  | .timeout => false
  | .delay _ => false
  | .resetN _ => false
  | .configure _ _ => false

/-- Every Xfer of a trace comes immediately after the end of a WaitReady (spec/41_handshake_bus.md R160). -/
def traceGated (tr : List Event) : Prop :=
  ∀ pre e post, tr = pre ++ e :: post → e.isXfer = true → ∃ pre' w, pre = pre' ++ [w] ∧ w.endsWait = true

/-! ### The invariant -/

/-- The FSM states in which a command may be in progress (spec/40_host_interface.md R136, R221): those that admit it,
but RESET alone for INIT,
and HDR = 0 once STOP has begun (spec/43_lifecycle.md R230). -/
def opRuns (op : Opcode) (fsm : Fsm) (hdr : Bool) : Prop :=
  match op with
  | .init => fsm = .reset
  | .regWrite | .regRead | .bulkWrite => fsm = .idle ∨ fsm = .recording ∨ fsm = .decoding
  | .stop => (fsm = .idle ∨ fsm = .recording ∨ fsm = .decoding) ∧ hdr = false
  | .startRecord | .startDecode => fsm = .idle
  | .readBlock => fsm = .recording
  | .emitHeader => fsm = .decoding ∧ hdr = false
  | .writeBlock => fsm = .decoding

/-- STATE, BUSY, HDR, INIT and st.cur agree (spec/10_state.md R31, R45 to R47, R50). -/
structure ControlInv (s : State) : Prop where
  busy_iff : s.busy = s.cur.isSome
  idle_clean : s.cur = none → s.call = none ∧ s.ret = none
  idle_not_reset : s.cur = none → s.fsm ≠ .reset
  runs : ∀ c, s.cur = some c → opRuns c.op s.fsm s.hdr
  hdr_decoding : s.hdr = true → s.fsm = .decoding
  init_flag : s.initFlag = true → s.fsm ≠ .uninit ∧ s.fsm ≠ .reset
  ready_init : s.fsm = .idle ∨ s.fsm = .recording ∨ s.fsm = .decoding → s.initFlag = true

/-- The chip selects show the Xfer in progress and nothing else (R49). -/
def SelectInv (s : State) : Prop :=
  match s.call with
  | some (.shift t) => s.csCtrl = decide (t.ch = .ctrl) ∧ s.csData = decide (t.ch = .data)
  | _ => s.csCtrl = false ∧ s.csData = false

/-- A statement that the Body of op may hold: who configures, resets and delays (spec/41_handshake_bus.md R175, R176),
who sends which frame, chunks of 1 to 32 bytes (R170), a drain within a capacity that BUF holds (spec/44_adpcm_record.md
R260), and the result codes each command raises (spec/60_exceptions.md R310). -/
def stmtOk (p : Params) (op : Opcode) : Stmt → Prop
  | .configure _ => op = .init
  | .resetN _ => op = .init
  | .delay _ => op = .init
  | .wait => op = .startRecord
  | .frame (.write _ _) => op = .init ∨ op = .regWrite ∨ op = .startRecord ∨ op = .startDecode ∨ op = .stop
  | .frame .verify => op = .init
  | .frame (.read _) => op = .regRead
  | .frame (.words cap) => op = .readBlock ∧ cap ≤ p.bufSize
  | .frame (.word k) => op = .readBlock ∧ 2 * k + 1 < p.bufSize
  | .frame (.chunk src _ n) =>
    (src = .buf ∧ (op = .bulkWrite ∨ op = .writeBlock) ∨ src = .hdrbuf ∧ op = .emitHeader) ∧ 1 ≤ n ∧ n ≤ chunkMax
  | .finish code _ =>
    code = .ok ∨ code = .busError ∨ code = .hwNotResponding ∧ op = .init
      ∨ code = .badArgument ∧ (op = .bulkWrite ∨ op = .startRecord ∨ op = .emitHeader)
      ∨ code = .headerRequired ∧ op = .writeBlock

/-- The Body in progress holds only such statements. -/
def BodyOk (s : State) : Prop := ∀ c, s.cur = some c → ∀ st ∈ c.body, stmtOk s.cfg c.op st

/-- The transaction a call will send. -/
def Call.transaction? : Call → Option Transaction
  | .sample _ t => t
  | .pollDelay _ t => t
  | .select t => some t
  | .shift t => some t

/-- The call has ended its wait: the Xfer is next. -/
def Call.waited : Call → Bool
  | .sample _ _ => false
  | .pollDelay _ _ => false
  | .select _ => true
  | .shift _ => true

/-- What the controller sends is legal and gated (R107, R108, R160), in the trace and in what is still to come. -/
structure WireInv (s : State) : Prop where
  legal : traceLegal s.cfg s.trace
  gated : traceGated s.trace
  body_ok : BodyOk s
  call_ok : ∀ c t, s.call = some c → c.transaction? = some t → frameLegal s.cfg t.ch t.bytes
  call_waited : ∀ c, s.call = some c → c.waited = true → ∃ pre w, s.trace = pre ++ [w] ∧ w.endsWait = true

/-- BUF and HDRBUF are in canonical form and within their bounds (R40, R50). -/
structure MemoryInv (s : State) : Prop where
  buf_wf : s.buf.wf
  hdr_wf : s.hdrbuf.wf
  buf_bound : ∀ e ∈ s.buf, e.1 < s.cfg.bufSize
  hdr_bound : ∀ e ∈ s.hdrbuf, e.1 < hdrLen
  body_ok : BodyOk s

/-- A safe state: what every step keeps. -/
structure Inv (s : State) : Prop where
  control : ControlInv s
  select : SelectInv s
  wire : WireInv s
  memory : MemoryInv s


/-! ### What a step of the whole machine may change -/

/-- n steps. -/
def stepN : Nat → State → Host.Outcome State Fault Refusal
  | 0, s => .next s
  | n + 1, s =>
    match step s with
    | .next t => stepN n t
    | o => o

/-- The command a step works on: the one in progress, or the one that the next input launches. -/
def stepOp (s : State) : Option Opcode :=
  match s.cur, s.inputs with
  | some c, _ => some c.op
  | none, (_, .write addr _ v) :: _ =>
    if addr = s.cfg.base + offCmd then
      match decodeCmd v with
      | .ok i => i.opcode?
      | .error _ => none
    else none
  | none, _ => none

/-- A controller reset lands in this step: it is the next input, and the controller is idle or the input is due. -/
def resetLands (s : State) : Prop := (∃ w rest, s.inputs = (w, .reset) :: rest) ∧ (s.cur = none ∨ s.due = true)

/-- A change of STATE by a command (spec/10_state.md R32), with the result code that comes with it. A step may take
INIT or STOP through several rows of the table. -/
def fsmMove (op : Opcode) (before after : Fsm) (code : ResultCode) (busy : Bool) : Prop :=
  match op with
  | .init =>
    (before = .uninit ∨ before = .idle ∨ before = .faulted ∨ before = .reset)
      ∧ (after = .reset ∧ busy = true ∨ after = .idle ∧ code = .ok ∧ busy = false
        ∨ after = .faulted ∧ (code = .busError ∨ code = .hwNotResponding) ∧ busy = false)
  | .stop =>
    (before = .idle ∨ before = .recording ∨ before = .decoding)
      ∧ (after = .idle ∧ code = .ok ∨ after = .faulted ∧ code = .busError) ∧ busy = false
  | .startRecord => before = .idle ∧ after = .recording ∧ code = .ok ∧ busy = false
  | .startDecode => before = .idle ∧ after = .decoding ∧ code = .ok ∧ busy = false
  | .regWrite | .regRead | .bulkWrite | .readBlock | .emitHeader | .writeBlock => False

/-- The timeouts of a trace. -/
def timeouts (tr : List Event) : Nat := tr.countP fun e => decide (e = .timeout)

/-- The event is a failed answer: BusErr or Err. -/
def Event.failed : Event → Bool
  | .xfer _ _ r => decide (r = .busErr)
  | .configure _ good => !good
  | .ready _ => false
  | .delay _ => false
  | .resetN _ => false
  | .timeout => false

/-! ### Premises of the claims -/

/-- A command is accepted and meets no host access before it completes: BUSY = 0, its state check holds (spec/
40_host_interface.md R133, R136), and no input lands meanwhile. -/
structure Accepts (op : Opcode) (s : State) : Prop where
  idle : s.busy = false
  allow : allowed op s.fsm s.hdr = true
  alone : s.quiet = true

/-- The state once a CMD word is accepted (R133). -/
def accepted (w : Word) (s : State) : State := { s with cmd := w, busy := true }

/-- Bytes that BUF may give from offset 0: its own where it holds one, any value where it holds none (U1). -/
def bufGives (s : State) (bs : List Byte) : Prop :=
  ∀ i v, i < bs.length → s.buf.read? i = some v → bs[i]? = some v

/-- The drain in progress stays within READ_BLOCK's capacity `min(ARG0, BUF_SIZE)` (spec/44_adpcm_record.md R261). -/
def DrainBounded (s : State) : Prop :=
  ∀ c, s.cur = some c → c.op = .readBlock →
    (∀ cap, .frame (.words cap) ∈ c.body → cap = min s.arg0.toNat s.cfg.bufSize)
      ∧ ∀ k, .frame (.word k) ∈ c.body → 2 * k + 1 < 2 * (min s.arg0.toNat s.cfg.bufSize / 2)

/-- The chunks of a transfer: 32 bytes each but the last (spec/41_handshake_bus.md R170, R171). -/
def chunksOf (bs : List Byte) : List (List Byte) :=
  (List.range (chunkCount bs.length)).map fun c => (bs.drop (chunkMax * c)).take chunkMax

/-- The last event is a failed answer and no earlier one is: nothing is done after a failure (spec/00_scope.md R14,
spec/41_handshake_bus.md R167). -/
def failsLast (ev : List Event) : Prop :=
  ∃ pre e, ev = pre ++ [e] ∧ pre.any Event.failed = false ∧ e.failed = true

/-- The bytes received with the Ok answers of the control channel, in order. -/
def okAnswers : List Event → List (List Byte)
  | [] => []
  | .xfer .ctrl _ (.ok rx) :: tr => rx :: okAnswers tr
  | _ :: tr => okAnswers tr

/-- A command that sends the bytes bs to the data channel has completed (spec/41_handshake_bus.md R170): RESULT = 0, no
control frame sent; OK with every chunk sent, joined the bytes bs, and no failed answer, or BUS_ERROR with chunk k failed, the chunks before
it sent and nothing after it; OK where the device answers Ok to each chunk. -/
structure BlockSent (bs : List Byte) (s t : State) : Prop where
  done : t.busy = false ∧ t.result = 0
  sent : ∃ ev, t.trace = s.trace ++ ev ∧ ctrlFrames ev = []
    ∧ ((t.code = .ok ∧ ev.any Event.failed = false ∧ dataChunks ev = chunksOf bs ∧ dataStream ev = bs)
      ∨ (t.code = .busError ∧ ∃ k c pre, (chunksOf bs)[k]? = some c ∧ ev = pre ++ [.xfer .data c .busErr]
          ∧ pre.any Event.failed = false ∧ dataChunks pre = (chunksOf bs).take k))
  ok : ∀ (rs : List (List Byte)) (xs : List Reply), s.dev.xfers = rs.map .ok ++ xs →
    rs.length = (chunksOf bs).length → t.code = .ok

/-- The chunk arithmetic of a transfer of len bytes (spec/41_handshake_bus.md R171), read off the chunks that a command
has sent: `(len + 31) div 32` of them where it ends OK, each of 32 bytes but the last, which has the rest; none, and no
wait, for len = 0; where chunk k fails, k + 1 of them and no event after. -/
structure ChunksSent (len : Nat) (s t : State) (ev : List Event) : Prop where
  trace : t.trace = s.trace ++ ev
  ended : t.code = .ok ∨ t.code = .busError
  all : t.code = .ok → (dataChunks ev).length = (len + 31) / 32
  full : ∀ c chunk, (dataChunks ev)[c]? = some chunk → c + 1 < (len + 31) / 32 → chunk.length = 32
  last : ∀ c chunk, (dataChunks ev)[c]? = some chunk → c + 1 = (len + 31) / 32 →
    chunk.length = len - 32 * ((len + 31) / 32 - 1) ∧ 1 ≤ chunk.length ∧ chunk.length ≤ 32
  none : len = 0 → ev = []
  failed : t.code = .busError → failsLast ev ∧ ∃ k, k < (len + 31) / 32 ∧ (dataChunks ev).length = k + 1

/-- READ_BLOCK has stored the words of the answers ws (spec/44_adpcm_record.md R260, spec/20_memory.md R80): RESULT is
their bytes, word k stands high byte first at BUF[2k], and BUF beyond them is as before. -/
structure WordsStored (ws : List (List Byte)) (s t : State) : Prop where
  result : t.result.toNat = 2 * ws.length
  stored : ∀ k w, ws[k]? = some w →
    w.length = 4 ∧ t.buf.read? (2 * k) = w[2]? ∧ t.buf.read? (2 * k + 1) = w[3]?
  rest : ∀ j, 2 * ws.length ≤ j → t.buf.read? j = s.buf.read? j

end Sys2Proof.Machine
end

