-- ==== Sys2Proof/Certificates/Slice0/Obligations.lean ====
section
/-! DEFINITION. The statements for the provers. Each formalises rules of spec/, which its docstring names; a statement
that rests on a choice of the model names the log entry. -/

open Sys2Proof Sys2Proof.Machine

/-! ### Encodings -/

/-- Decoding what the encoder writes gives the instruction back, for every well-formed instruction of all three formats
(30_encoding.md R101 to R107) and every parameter set whose two control opcodes differ (log 19). -/
def Obligations.DecodeEncode : Prop :=
  ∀ (p : Params) (i : Instr), p.writeOp ≠ p.readOp → i.wf = true → decode p (encode p i) = .ok i

/-- What decodes is the encoding of what it decodes to. For the frames the controller sends this is R105 to R107: every
byte is an operand or fixed. For command words it is the model's choice (log 14): R102 has words that differ only in
unused fields launch identical commands, and the model's instruction keeps those fields because CMD reads the whole word
back (R34), so no two words decode to one term of Instr. That the kept bits do nothing else is UnusedFieldsIgnored. -/
def Obligations.EncodeDecode : Prop :=
  ∀ (p : Params) (e : Encoded) (i : Instr), decode p e = .ok i → encode p i = e

/-- The command of a CMD word is chosen by its bits 7:0 alone, which are one of the ten opcodes (R101); every other word
is illegal (R104). -/
def Obligations.CommandsByOp : Prop :=
  ∀ w : Word,
    (∀ op, (∃ i, decodeCmd w = .ok i ∧ i.opcode? = some op) ↔ w.extractLsb' 0 8 = op.byte)
      ∧ ((∃ e, decodeCmd w = .error e)
          ↔ (w.extractLsb' 0 8).toNat = 0 ∨ 11 ≤ (w.extractLsb' 0 8).toNat)

/-- A command ignores the fields it does not use (R102): two words with the same OP, the same REG where it is used and
the same VALUE where it is used, do the same, but for the word that CMD keeps. Every word is one of the ten commands or
illegal. -/
def Obligations.UnusedFieldsIgnored : Prop :=
  ∀ (v w : Word) (s : State),
    v.extractLsb' 0 8 = w.extractLsb' 0 8 →
    (v.extractLsb' 0 8 = 0x02 ∨ v.extractLsb' 0 8 = 0x03 → v.extractLsb' 8 8 = w.extractLsb' 8 8) →
    (v.extractLsb' 0 8 = 0x02 → v.extractLsb' 16 16 = w.extractLsb' 16 16) →
    (∃ t, writeCmd v s = .next t
      ∧ writeCmd w s = .next { t with cmd := if s.busy then s.cmd else w })
    ∧ ((∃ i op, decodeCmd v = .ok i ∧ i.opcode? = some op) ∨ ∃ e, decodeCmd v = .error e)

/-- Words and frames written out from the spec's tables (R101, R105 to R107) decode to the instructions they stand
for. -/
def Obligations.SpecWordsDecode : Prop :=
  decodeCmd 0x00000001 = .ok (.init 0)
    ∧ decodeCmd 0x10100B02 = .ok (.regWrite 0x0B 0x1010)
    ∧ decodeCmd 0xABCD0303 = .ok (.regRead 0x03 0xABCD)
    ∧ decodeCmd 0x00000004 = .ok (.bulkWrite 0)
    ∧ decodeCmd 0x00000005 = .ok (.startRecord 0)
    ∧ decodeCmd 0x00000006 = .ok (.readBlock 0)
    ∧ decodeCmd 0x00000007 = .ok (.startDecode 0)
    ∧ decodeCmd 0x00000008 = .ok (.emitHeader 0)
    ∧ decodeCmd 0x00000009 = .ok (.writeBlock 0)
    ∧ decodeCmd 0x0000000A = .ok (.stop 0)
    ∧ decode Params.p0 (.frame .ctrl [0x02, 0x0B, 0x20, 0x20]) = .ok (.ctrlWrite 0x0B 0x2020)
    ∧ decode Params.p0 (.frame .ctrl [0x03, 0x09, 0x00, 0x00]) = .ok (.ctrlRead 0x09)
    ∧ decode Params.p0 (.frame .data [0x01, 0x02]) = .ok (.dataChunk [0x01, 0x02])

/-- The frames that decode are the frames the controller may send: on the control channel four bytes, WRITE_OP or
READ_OP first, a read frame filled with 0x00; on the data channel 1 to 32 bytes (R105 to R108). -/
def Obligations.LegalFramesDecode : Prop :=
  ∀ (p : Params) (tx : List Byte),
    ((∃ i, decode p (.frame .ctrl tx) = .ok i)
        ↔ (∃ r a b, tx = [p.writeOp, r, a, b]) ∨ ∃ r, tx = [p.readOp, r, 0x00, 0x00])
      ∧ ((∃ i, decode p (.frame .data tx) = .ok i) ↔ 1 ≤ tx.length ∧ tx.length ≤ 32)

/-! ### The host window -/

/-- A legal host read returns what stands at its offset (20_memory.md R74, 10_state.md R33, R41), busy or not, and does
nothing else to the controller. The model logs the value (log 23), and counts a draw where a BUF byte holds no value
(log 6). -/
def Obligations.HostReadValues : Prop :=
  ∀ (s : State) (off : Nat), off < 0x1000 → off % 4 = 0 →
    ∃ (v : Word) (d : Nat),
      perform (.read (s.cfg.base + off) .w32) s
          = .next { s with hostLog := s.hostLog ++ [.read (s.cfg.base + off) v], draws := d }
        ∧ (off = 0x000 → v = s.cmd) ∧ (off = 0x004 → v = s.arg0) ∧ (off = 0x008 → v = s.arg1)
        ∧ (off = 0x00C → v = statusWord s) ∧ (off = 0x010 → v = s.result) ∧ (off = 0x014 → v = s.tmoCount)
        ∧ (∀ k b0 b1 b2 b3, off = 0x100 + 4 * k → 4 * k < s.cfg.bufSize →
            s.buf.read? (4 * k) = some b0 → s.buf.read? (4 * k + 1) = some b1 →
            s.buf.read? (4 * k + 2) = some b2 → s.buf.read? (4 * k + 3) = some b3 →
            v = b3 ++ b2 ++ b1 ++ b0 ∧ d = s.draws)
        ∧ (0x018 ≤ off → off < 0x100 ∨ 0x100 + s.cfg.bufSize ≤ off → v = 0)
        ∧ (off < 0x100 → d = s.draws)

/-- The fields of STATUS (10_state.md R37), each at its bits, with the numbers of STATE (R31) and of RESULT_CODE
(60_exceptions.md R310); bits 31:13 read as 0. -/
def Obligations.StatusFields : Prop :=
  ∀ s : State,
    (statusWord s).extractLsb' 0 3
        = (match s.fsm with
           | .uninit => 0 | .reset => 1 | .idle => 2 | .recording => 3 | .decoding => 4 | .faulted => 5)
      ∧ (statusWord s).getLsbD 3 = s.busy ∧ (statusWord s).getLsbD 4 = s.tmo ∧ (statusWord s).getLsbD 5 = s.ovr
      ∧ (statusWord s).getLsbD 6 = s.hdr ∧ (statusWord s).getLsbD 7 = s.initFlag
      ∧ (statusWord s).extractLsb' 8 4
        = (match s.code with
           | .ok => 0 | .busError => 1 | .hwNotResponding => 2 | .wrongState => 3 | .badArgument => 4
           | .headerRequired => 5 | .illegalCommand => 6)
      ∧ (statusWord s).getLsbD 12 = s.berr
      ∧ (statusWord s).extractLsb' 13 19 = 0

/-- What a legal host write of v does at each offset, idle and busy (R75). A write to CMD while idle launches (R133):
the command its word decodes to, or ILLEGAL_COMMAND. -/
def Obligations.HostWriteEffects : Prop :=
  ∀ (s : State) (v : Word),
    perform (.write (s.cfg.base + 0x000) .w32 v) s
        = (if s.busy then .next { s with ovr := true }
           else match decodeCmd v with
             | .ok i => exec i s
             | .error _ => .next (complete .illegalCommand 0 (accepted v s)))
      ∧ perform (.write (s.cfg.base + 0x004) .w32 v) s
        = .next (if s.busy then { s with ovr := true } else { s with arg0 := v })
      ∧ perform (.write (s.cfg.base + 0x008) .w32 v) s
        = .next (if s.busy then { s with ovr := true } else { s with arg1 := v })
      ∧ perform (.write (s.cfg.base + 0x00C) .w32 v) s
        = .next { s with tmo := s.tmo && !v.getLsbD 4, ovr := s.ovr && !v.getLsbD 5, berr := s.berr && !v.getLsbD 12 }
      ∧ perform (.write (s.cfg.base + 0x010) .w32 v) s = .next s
      ∧ perform (.write (s.cfg.base + 0x014) .w32 v) s = .next s
      ∧ (∀ k, 4 * k < s.cfg.bufSize → s.cfg.bufSize ≤ 3840 → s.busy = true →
          perform (.write (s.cfg.base + (0x100 + 4 * k)) .w32 v) s = .next { s with ovr := true })
      ∧ (∀ k, 4 * k < s.cfg.bufSize → s.cfg.bufSize ≤ 3840 → s.busy = false →
          ∃ m, perform (.write (s.cfg.base + (0x100 + 4 * k)) .w32 v) s = .next { s with buf := m }
            ∧ m.read? (4 * k) = some (v.extractLsb' 0 8) ∧ m.read? (4 * k + 1) = some (v.extractLsb' 8 8)
            ∧ m.read? (4 * k + 2) = some (v.extractLsb' 16 8) ∧ m.read? (4 * k + 3) = some (v.extractLsb' 24 8)
            ∧ ∀ a, a < 4 * k ∨ 4 * k + 4 ≤ a → m.read? a = s.buf.read? a)
      ∧ (∀ off, off < 0x1000 → off % 4 = 0 → 0x018 ≤ off → off < 0x100 ∨ 0x100 + s.cfg.bufSize ≤ off →
          perform (.write (s.cfg.base + off) .w32 v) s = .next s)

/-- An access of 8 or 16 bits, or at an offset that is no multiple of 4, is a bus error of the host, whatever the
controller does (R73): the run of the host stops there, with no change of the controller. -/
def Obligations.IllegalAccessFaults : Prop :=
  ∀ (s : State) (off : Nat) (width : Width) (v : Word), off < 0x1000 → (width ≠ .w32 ∨ off % 4 ≠ 0) →
    perform (.read (s.cfg.base + off) width) s = .fault (.hostBusError (s.cfg.base + off) width)
      ∧ perform (.write (s.cfg.base + off) width v) s = .fault (.hostBusError (s.cfg.base + off) width)

/-- A host write to CMD, ARG0, ARG1 or a BUF word that lands while a command runs sets OVR and changes nothing else
(40_host_interface.md R132): CMD keeps its word, no event is added, and the command goes on from where it stood. -/
def Obligations.BusyWritesIgnored : Prop :=
  ∀ (s : State) (c : Cursor) (off : Nat) (v : Word) (rest : List (Nat × Input)),
    s.cfg.Wf → s.cur = some c → s.busy = true →
    s.inputs = (0, .write (s.cfg.base + off) .w32 v) :: rest →
    (off = 0x000 ∨ off = 0x004 ∨ off = 0x008 ∨ ∃ k, off = 0x100 + 4 * k ∧ 4 * k < s.cfg.bufSize) →
    step s = .next { s with ovr := true, inputs := rest }

/-! ### Launch -/

/-- A CMD word whose OP is 0x00 or 0x0B to 0xFF completes at once with ILLEGAL_COMMAND and RESULT 0, CMD holding the
word: no event, and STATE, HDR, INIT, ARG0, ARG1 and BUF unchanged (R134). -/
def Obligations.IllegalCommand : Prop :=
  ∀ (s : State) (v : Word), s.busy = false →
    ((v.extractLsb' 0 8).toNat = 0 ∨ 0x0B ≤ (v.extractLsb' 0 8).toNat) →
    writeCmd v s
      = .next { s with cmd := v, code := .illegalCommand, result := 0, busy := false, cur := none, call := none,
                       ret := none }

/-- A legal command that its state check does not allow completes at once with WRONG_STATE and RESULT 0: no event and
no other effect (R135). -/
def Obligations.WrongState : Prop :=
  ∀ (s : State) (i : Instr) (op : Opcode) (w : Word), i.opcode? = some op → encode s.cfg i = .cmd w →
    s.busy = false → allowed op s.fsm s.hdr = false →
    exec i s
      = .next { s with cmd := w, code := .wrongState, result := 0, busy := false, cur := none, call := none,
                       ret := none }

/-- The cells of the `Allowed` table, and that its RESET column is never consulted: STATE = RESET only while INIT runs,
and then BUSY = 1 (R136). -/
def Obligations.AllowedTable : Prop :=
  (∀ (fsm : Fsm) (hdr : Bool),
    (allowed .init fsm hdr = true ↔ fsm = .uninit ∨ fsm = .idle ∨ fsm = .faulted)
      ∧ (∀ op, op = .regWrite ∨ op = .regRead ∨ op = .bulkWrite ∨ op = .stop →
          (allowed op fsm hdr = true ↔ fsm = .idle ∨ fsm = .recording ∨ fsm = .decoding))
      ∧ (∀ op, op = .startRecord ∨ op = .startDecode → (allowed op fsm hdr = true ↔ fsm = .idle))
      ∧ (allowed .readBlock fsm hdr = true ↔ fsm = .recording)
      ∧ (allowed .emitHeader fsm hdr = true ↔ fsm = .decoding ∧ hdr = false)
      ∧ (allowed .writeBlock fsm hdr = true ↔ fsm = .decoding))
  ∧ ∀ s : State, ControlInv s → s.fsm = .reset → s.busy = true ∧ ∃ body, s.cur = some ⟨.init, body⟩

/-- The preconditions a Body checks before its first event (R137, 60_exceptions.md R316): BULK_WRITE's length,
START_RECORD's rate, EMIT_HEADER's rate and channels, WRITE_BLOCK's header. Each ends the command with its code, RESULT
0 and no event, and leaves the rest. -/
def Obligations.Preconditions : Prop :=
  ∀ (s : State) (ign : BitVec 24),
    (Accepts .bulkWrite s → s.cfg.bufSize < s.arg0.toNat →
      exec (.bulkWrite ign) s = .next (complete .badArgument 0 (accepted (ign ++ (0x04 : Byte)) s)))
    ∧ (Accepts .startRecord s → s.arg0.toNat = 0 ∨ 65535 < s.arg0.toNat →
      exec (.startRecord ign) s = .next (complete .badArgument 0 (accepted (ign ++ (0x05 : Byte)) s)))
    ∧ (Accepts .emitHeader s →
      (s.arg0.toNat = 0 ∨ 65535 < s.arg0.toNat ∨ (s.arg1.extractLsb' 0 8 ≠ 1 ∧ s.arg1.extractLsb' 0 8 ≠ 2)) →
      exec (.emitHeader ign) s = .next (complete .badArgument 0 (accepted (ign ++ (0x08 : Byte)) s)))
    ∧ (Accepts .writeBlock s → s.hdr = false →
      exec (.writeBlock ign) s = .next (complete .headerRequired 0 (accepted (ign ++ (0x09 : Byte)) s)))

/-! ### Each command runs its pseudocode to its completion, under every device (no host access landing meanwhile) -/

/-- INIT (43_lifecycle.md R220). -/
def Obligations.InitRunsItsBody : Prop :=
  ∀ (ign : BitVec 24) (s : State), Accepts .init s →
    exec (.init ign) s = .next (initRef (accepted (ign ++ (0x01 : Byte)) s))

/-- REG_WRITE (42_register_block_io.md R190). -/
def Obligations.RegWriteRunsItsBody : Prop :=
  ∀ (r : Byte) (v : Half) (s : State), Accepts .regWrite s →
    exec (.regWrite r v) s = .next (regWriteRef r v (accepted (v ++ r ++ (0x02 : Byte)) s))

/-- REG_READ (R195). -/
def Obligations.RegReadRunsItsBody : Prop :=
  ∀ (r : Byte) (ign : Half) (s : State), Accepts .regRead s →
    exec (.regRead r ign) s = .next (regReadRef r (accepted (ign ++ r ++ (0x03 : Byte)) s))

/-- BULK_WRITE (R200). -/
def Obligations.BulkWriteRunsItsBody : Prop :=
  ∀ (ign : BitVec 24) (s : State), Accepts .bulkWrite s →
    exec (.bulkWrite ign) s = .next (bulkWriteRef (accepted (ign ++ (0x04 : Byte)) s))

/-- START_RECORD (44_adpcm_record.md R250). -/
def Obligations.StartRecordRunsItsBody : Prop :=
  ∀ (ign : BitVec 24) (s : State), Accepts .startRecord s →
    exec (.startRecord ign) s = .next (startRecordRef (accepted (ign ++ (0x05 : Byte)) s))

/-- READ_BLOCK (R260). -/
def Obligations.ReadBlockRunsItsBody : Prop :=
  ∀ (ign : BitVec 24) (s : State), Accepts .readBlock s →
    exec (.readBlock ign) s = .next (readBlockRef (accepted (ign ++ (0x06 : Byte)) s))

/-- START_DECODE (45_adpcm_decode.md R280). -/
def Obligations.StartDecodeRunsItsBody : Prop :=
  ∀ (ign : BitVec 24) (s : State), Accepts .startDecode s →
    exec (.startDecode ign) s = .next (startDecodeRef (accepted (ign ++ (0x07 : Byte)) s))

/-- EMIT_HEADER (R285). -/
def Obligations.EmitHeaderRunsItsBody : Prop :=
  ∀ (ign : BitVec 24) (s : State), Accepts .emitHeader s →
    exec (.emitHeader ign) s = .next (emitHeaderRef (accepted (ign ++ (0x08 : Byte)) s))

/-- WRITE_BLOCK (R290). -/
def Obligations.WriteBlockRunsItsBody : Prop :=
  ∀ (ign : BitVec 24) (s : State), Accepts .writeBlock s →
    exec (.writeBlock ign) s = .next (writeBlockRef (accepted (ign ++ (0x09 : Byte)) s))

/-- STOP (43_lifecycle.md R230). -/
def Obligations.StopRunsItsBody : Prop :=
  ∀ (ign : BitVec 24) (s : State), Accepts .stop s →
    exec (.stop ign) s = .next (stopRef (accepted (ign ++ (0x0A : Byte)) s))

/-! ### The device-side frames and the ready handshake -/

/-- A device-side frame, sent alone, is one WaitReady and one Xfer of its bytes, under every device (41_handshake_bus.md
R160, R165, R166, R170). One asked for while another transaction is in progress is refused, as is a chunk of 0 or of
more than 32 bytes: the controller sends neither (20_memory.md R88, 30_encoding.md R108, log 12). -/
def Obligations.FramesSent : Prop :=
  ∀ s : State,
    (s.call = none → s.quiet = true →
      (∀ r v, exec (.ctrlWrite r v) s
        = .next { frameRef ⟨.ctrl, [s.cfg.writeOp, r, v.extractLsb' 8 8, v.extractLsb' 0 8]⟩ s with
            ret := some (.reply
              (frameAnswerRef ⟨.ctrl, [s.cfg.writeOp, r, v.extractLsb' 8 8, v.extractLsb' 0 8]⟩ s)) })
      ∧ (∀ r, exec (.ctrlRead r) s
        = .next { frameRef ⟨.ctrl, [s.cfg.readOp, r, 0x00, 0x00]⟩ s with
            ret := some (.reply (frameAnswerRef ⟨.ctrl, [s.cfg.readOp, r, 0x00, 0x00]⟩ s)) })
      ∧ (∀ payload : List Byte, 1 ≤ payload.length → payload.length ≤ 32 → exec (.dataChunk payload) s
        = .next { frameRef ⟨.data, payload⟩ s with ret := some (.reply (frameAnswerRef ⟨.data, payload⟩ s)) }))
    ∧ (∀ payload : List Byte, payload.length = 0 ∨ 32 < payload.length →
        exec (.dataChunk payload) s = .refused (.chunkNeverSent payload.length))
    ∧ (s.call ≠ none →
        (∀ r v, exec (.ctrlWrite r v) s = .refused .transactionInProgress)
        ∧ (∀ r, exec (.ctrlRead r) s = .refused .transactionInProgress)
        ∧ ∀ payload : List Byte, 1 ≤ payload.length → payload.length ≤ 32 →
            exec (.dataChunk payload) s = .refused .transactionInProgress)

/-- DREQ found ready on the sample after k not-ready ones ends the wait of every device-side frame (R161, R162): k times
`Ready(0)` and a delay, then `Ready(1)`, then the frame, with no timeout flagged. -/
def Obligations.ReadyOnSampleK : Prop :=
  ∀ (s : State) (i : Instr) (ch : Channel) (tx : List Byte) (k : Nat) (d : List Bool) (rx : List Byte)
    (xs : List Reply) (cs : List Bool),
    i.wf = true → encode s.cfg i = .frame ch tx → s.call = none → s.quiet = true → k < s.cfg.readyPolls →
    rx.length = tx.length → s.dev = ⟨List.replicate k false ++ true :: d, .ok rx :: xs, cs⟩ →
    exec i s
      = .next { s with
          trace := s.trace ++ (List.replicate k [.ready false, .delay s.cfg.pollIntervalTicks]).flatten
            ++ [.ready true, .xfer ch tx (.ok rx)]
          dev := ⟨d, xs, cs⟩
          csCtrl := if ch = .ctrl then false else s.csCtrl
          csData := if ch = .data then false else s.csData
          ret := some (.reply (.ok rx)) }

/-- A timeout is not an error (R161, R163). DREQ never ready in READY_POLLS samples: TMO is set, TMO_COUNT rises by one
and stays at 0xFFFFFFFF, and every device-side frame is sent exactly as after READY. And no command ends with BUS_ERROR
because of a timeout: one that does has had a failed answer. That START_RECORD goes on after its own wait is in
StartRecordRunsItsBody, and that HW_NOT_RESPONDING needs a readback is in VerifyFailure. -/
def Obligations.TimeoutGoesOn : Prop :=
  (∀ (s : State) (i : Instr) (ch : Channel) (tx : List Byte) (d : List Bool) (rx : List Byte) (xs : List Reply)
    (cs : List Bool),
    i.wf = true → encode s.cfg i = .frame ch tx → s.call = none → s.quiet = true →
    rx.length = tx.length → s.dev = ⟨List.replicate s.cfg.readyPolls false ++ d, .ok rx :: xs, cs⟩ →
    exec i s
      = .next { s with
          trace := s.trace
            ++ (List.replicate s.cfg.readyPolls [.ready false, .delay s.cfg.pollIntervalTicks]).flatten
            ++ [.timeout, .xfer ch tx (.ok rx)]
          dev := ⟨d, xs, cs⟩
          tmo := true
          tmoCount := if s.tmoCount = 0xFFFFFFFF then 0xFFFFFFFF else s.tmoCount + 1
          csCtrl := if ch = .ctrl then false else s.csCtrl
          csData := if ch = .data then false else s.csData
          ret := some (.reply (.ok rx)) })
  ∧ ∀ (s t : State) (i : Instr) (op : Opcode) (ev : List Event), i.opcode? = some op → Accepts op s →
      exec i s = .next t → t.trace = s.trace ++ ev → ev.any Event.failed = false → t.code ≠ .busError

/-- What a device-side frame leaves, whatever the device answers and whatever lands meanwhile: every register of the
host window but the flags TMO and BERR and TMO_COUNT, STATE, HDR, INIT, RESET_N, the chip select of the other channel,
the command in progress, and every byte of BUF and HDRBUF. -/
def Obligations.FramesLeave : Prop :=
  ∀ (s t : State) (i : Instr), i.opcode? = none → exec i s = .next t →
    t.cfg = s.cfg ∧ t.cmd = s.cmd ∧ t.arg0 = s.arg0 ∧ t.arg1 = s.arg1 ∧ t.fsm = s.fsm ∧ t.busy = s.busy
      ∧ t.ovr = s.ovr ∧ t.hdr = s.hdr ∧ t.initFlag = s.initFlag ∧ t.code = s.code ∧ t.result = s.result
      ∧ t.resetN = s.resetN ∧ t.cur = s.cur ∧ t.hostLog = s.hostLog
      ∧ (∀ a, t.buf.read? a = s.buf.read? a) ∧ (∀ a, t.hdrbuf.read? a = s.hdrbuf.read? a)
      ∧ ∀ ch tx, encode s.cfg i = .frame ch tx →
          (ch = .ctrl → t.csData = s.csData) ∧ (ch = .data → t.csCtrl = s.csCtrl)

/-! ### The commands with a device that is ready and answers Ok -/

/-- REG_WRITE (R190): one frame, high byte before low byte; RESULT 0, OK, and nothing else changes. -/
def Obligations.RegWriteOk : Prop :=
  ∀ (s : State) (r : Byte) (v : Half) (d : List Bool) (rx : List Byte) (xs : List Reply) (cs : List Bool),
    Accepts .regWrite s → 1 ≤ s.cfg.readyPolls → rx.length = 4 → s.dev = ⟨true :: d, .ok rx :: xs, cs⟩ →
    exec (.regWrite r v) s
      = .next { s with
          cmd := v ++ r ++ (0x02 : Byte), code := .ok, result := 0
          busy := false, cur := none, call := none, ret := none, csCtrl := false, dev := ⟨d, xs, cs⟩
          trace := s.trace ++
            [.ready true, .xfer .ctrl [s.cfg.writeOp, r, v.extractLsb' 8 8, v.extractLsb' 0 8] (.ok rx)] }

/-- REG_READ (R195): RESULT is the last two bytes of the response, zero-extended; its first two are discarded. -/
def Obligations.RegReadOk : Prop :=
  ∀ (s : State) (r : Byte) (ign : Half) (d : List Bool) (x0 x1 x2 x3 : Byte) (xs : List Reply) (cs : List Bool),
    Accepts .regRead s → 1 ≤ s.cfg.readyPolls → s.dev = ⟨true :: d, .ok [x0, x1, x2, x3] :: xs, cs⟩ →
    exec (.regRead r ign) s
      = .next { s with
          cmd := ign ++ r ++ (0x03 : Byte), code := .ok, result := (0 : Half) ++ x2 ++ x3
          busy := false, cur := none, call := none, ret := none, csCtrl := false, dev := ⟨d, xs, cs⟩
          trace := s.trace ++
            [.ready true, .xfer .ctrl [s.cfg.readOp, r, 0x00, 0x00] (.ok [x0, x1, x2, x3])] }

/-- INIT with verification (R220): the channels configured, the reset pulse, the three default writes and the readback
of REG_CLOCK, in that order; STATE = IDLE, INIT = 1, HDR = 0, RESET_N = 1. The mode word has the new-mode and the
soft-reset bit, and no other (00_scope.md R8). -/
def Obligations.InitOk : Prop :=
  ∀ (s : State) (ign : BitVec 24) (d : List Bool) (a b c : List Byte) (x0 x1 : Byte) (xs : List Reply)
    (cs : List Bool),
    Accepts .init s → 1 ≤ s.cfg.readyPolls → s.cfg.verifyOnInit = true →
    a.length = 4 → b.length = 4 → c.length = 4 →
    s.dev = ⟨true :: true :: true :: true :: d,
      .ok a :: .ok b :: .ok c
        :: .ok [x0, x1, s.cfg.clockDefault.extractLsb' 8 8, s.cfg.clockDefault.extractLsb' 0 8] :: xs,
      true :: true :: cs⟩ →
    exec (.init ign) s
      = .next { s with
          cmd := ign ++ (0x01 : Byte), code := .ok, result := 0, fsm := .idle, initFlag := true, hdr := false
          resetN := true, busy := false, cur := none, call := none, ret := none, csCtrl := false, dev := ⟨d, xs, cs⟩
          trace := s.trace ++
            [ .configure .ctrl true, .configure .data true, .resetN false, .delay s.cfg.resetAssertTicks,
              .resetN true, .delay s.cfg.resetRecoverTicks,
              .ready true, .xfer .ctrl [s.cfg.writeOp, s.cfg.regMode, (modeSoftReset s.cfg).extractLsb' 8 8,
                (modeSoftReset s.cfg).extractLsb' 0 8] (.ok a),
              .ready true, .xfer .ctrl [s.cfg.writeOp, s.cfg.regClock, s.cfg.clockDefault.extractLsb' 8 8,
                s.cfg.clockDefault.extractLsb' 0 8] (.ok b),
              .ready true, .xfer .ctrl [s.cfg.writeOp, s.cfg.regVolume, s.cfg.volDefault.extractLsb' 8 8,
                s.cfg.volDefault.extractLsb' 0 8] (.ok c),
              .ready true, .xfer .ctrl [s.cfg.readOp, s.cfg.regClock, 0x00, 0x00]
                (.ok [x0, x1, s.cfg.clockDefault.extractLsb' 8 8, s.cfg.clockDefault.extractLsb' 0 8]) ] }
      ∧ ∀ b : Fin 16, (modeSoftReset s.cfg).getLsbD b = decide (b = s.cfg.bitNewmode ∨ b = s.cfg.bitSoftReset)

/-- STOP and START_DECODE (R230, R280): one mode write each, the whole mode word; STATE = IDLE or DECODING, HDR = 0. STOP's
mode word has the new-mode and the soft-reset bit, START_DECODE's the new-mode bit, and no other (00_scope.md R8). -/
def Obligations.ModeCommandsOk : Prop :=
  ∀ (s : State) (ign : BitVec 24) (d : List Bool) (rx : List Byte) (xs : List Reply) (cs : List Bool),
    1 ≤ s.cfg.readyPolls → rx.length = 4 → s.dev = ⟨true :: d, .ok rx :: xs, cs⟩ →
    (Accepts .stop s → exec (.stop ign) s
      = .next { s with
          cmd := ign ++ (0x0A : Byte), code := .ok, result := 0, fsm := .idle, hdr := false
          busy := false, cur := none, call := none, ret := none, csCtrl := false, dev := ⟨d, xs, cs⟩
          trace := s.trace ++
            [.ready true, .xfer .ctrl [s.cfg.writeOp, s.cfg.regMode, (modeSoftReset s.cfg).extractLsb' 8 8,
              (modeSoftReset s.cfg).extractLsb' 0 8] (.ok rx)] })
    ∧ (Accepts .startDecode s → exec (.startDecode ign) s
      = .next { s with
          cmd := ign ++ (0x07 : Byte), code := .ok, result := 0, fsm := .decoding, hdr := false
          busy := false, cur := none, call := none, ret := none, csCtrl := false, dev := ⟨d, xs, cs⟩
          trace := s.trace ++
            [.ready true, .xfer .ctrl [s.cfg.writeOp, s.cfg.regMode, (modeDecode s.cfg).extractLsb' 8 8,
              (modeDecode s.cfg).extractLsb' 0 8] (.ok rx)] })
    ∧ ∀ b : Fin 16,
        (modeSoftReset s.cfg).getLsbD b = decide (b = s.cfg.bitNewmode ∨ b = s.cfg.bitSoftReset)
          ∧ (modeDecode s.cfg).getLsbD b = decide (b = s.cfg.bitNewmode)

/-- START_RECORD (R250): the mode word, a WaitReady of its own, then the profile, rate, reserved and stereo registers in
that order; STATE = RECORDING. The mode word has the new-mode, the ADPCM and the line-input bit, and no other (00_scope.md
R8). -/
def Obligations.StartRecordOk : Prop :=
  ∀ (s : State) (ign : BitVec 24) (d : List Bool) (a b c e f : List Byte) (xs : List Reply) (cs : List Bool),
    Accepts .startRecord s → 1 ≤ s.cfg.readyPolls → 1 ≤ s.arg0.toNat → s.arg0.toNat ≤ 65535 →
    a.length = 4 → b.length = 4 → c.length = 4 → e.length = 4 → f.length = 4 →
    s.dev = ⟨true :: true :: true :: true :: true :: true :: d,
      .ok a :: .ok b :: .ok c :: .ok e :: .ok f :: xs, cs⟩ →
    exec (.startRecord ign) s
      = .next { s with
          cmd := ign ++ (0x05 : Byte), code := .ok, result := 0, fsm := .recording
          busy := false, cur := none, call := none, ret := none, csCtrl := false, dev := ⟨d, xs, cs⟩
          trace := s.trace ++
            [ .ready true, .xfer .ctrl [s.cfg.writeOp, s.cfg.regMode, (modeRecord s.cfg).extractLsb' 8 8,
                (modeRecord s.cfg).extractLsb' 0 8] (.ok a),
              .ready true,
              .ready true, .xfer .ctrl [s.cfg.writeOp, s.cfg.regRecProfile, s.cfg.recProfileValue.extractLsb' 8 8,
                s.cfg.recProfileValue.extractLsb' 0 8] (.ok b),
              .ready true, .xfer .ctrl [s.cfg.writeOp, s.cfg.regRecRate, s.arg0.extractLsb' 8 8,
                s.arg0.extractLsb' 0 8] (.ok c),
              .ready true, .xfer .ctrl [s.cfg.writeOp, s.cfg.regRecReserved, 0x00, 0x00] (.ok e),
              .ready true, .xfer .ctrl [s.cfg.writeOp, s.cfg.regRecStereo, 0x00,
                if s.arg1.getLsbD 0 then 0x01 else 0x00] (.ok f) ] }
      ∧ ∀ b : Fin 16, (modeRecord s.cfg).getLsbD b
          = decide (b = s.cfg.bitNewmode ∨ b = s.cfg.bitAdpcm ∨ b = s.cfg.bitLineIn)

/-- EMIT_HEADER (R285): the 48 bytes of the header in chunks of 32 and 16; HDRBUF holds them, HDR = 1, and every byte
of BUF is as before. -/
def Obligations.EmitHeaderOk : Prop :=
  ∀ (s : State) (ign : BitVec 24) (d : List Bool) (a b : List Byte) (xs : List Reply) (cs : List Bool),
    Accepts .emitHeader s → 1 ≤ s.cfg.readyPolls → 1 ≤ s.arg0.toNat → s.arg0.toNat ≤ 65535 →
    (s.arg1.extractLsb' 0 8 = 1 ∨ s.arg1.extractLsb' 0 8 = 2) → a.length = 32 → b.length = 16 →
    s.dev = ⟨true :: true :: d, .ok a :: .ok b :: xs, cs⟩ →
    ∃ m, (∀ j, j < 48 → m.read? j = (headerBytes s.cfg s.arg0 (s.arg1.extractLsb' 0 8))[j]?)
      ∧ exec (.emitHeader ign) s
        = .next { s with
            cmd := ign ++ (0x08 : Byte), code := .ok, result := 0, hdr := true, hdrbuf := m
            busy := false, cur := none, call := none, ret := none, csData := false, dev := ⟨d, xs, cs⟩
            trace := s.trace ++
              [ .ready true,
                .xfer .data ((headerBytes s.cfg s.arg0 (s.arg1.extractLsb' 0 8)).take 32) (.ok a),
                .ready true,
                .xfer .data ((headerBytes s.cfg s.arg0 (s.arg1.extractLsb' 0 8)).drop 32) (.ok b) ] }

/-- BULK_WRITE and WRITE_BLOCK complete, and send the bytes of BUF in order, in chunks of 32 but the last (R200, R290,
R170, R171): all of them, with no failed answer, where the command ends OK, as it does where the device answers Ok to
each chunk; where it ends BUS_ERROR a chunk is the last event and the failed one, and the chunks before it were answered
Ok. A byte of BUF that holds no value is sent as any value (U1). Every DREQ behaviour and every answer is covered. -/
def Obligations.BlockDataSent : Prop :=
  ∀ (s : State) (ign : BitVec 24),
    (Accepts .bulkWrite s → s.arg0.toNat ≤ s.cfg.bufSize →
      ∃ t bs, exec (.bulkWrite ign) s = .next t ∧ bs.length = s.arg0.toNat ∧ bufGives s bs ∧ BlockSent bs s t)
    ∧ (Accepts .writeBlock s → s.hdr = true →
      ∃ t bs, exec (.writeBlock ign) s = .next t ∧ bs.length = s.cfg.blockSize ∧ bufGives s bs ∧ BlockSent bs s t)

/-- The chunk arithmetic of SendData (R171), in the events of the three commands that call it, for every BUF, every DREQ
behaviour and every answer: BULK_WRITE of ARG0 bytes, WRITE_BLOCK of BLOCK_SIZE and EMIT_HEADER of 48. -/
def Obligations.ChunkArithmetic : Prop :=
  ∀ (s : State) (ign : BitVec 24),
    (Accepts .bulkWrite s → s.arg0.toNat ≤ s.cfg.bufSize →
      ∃ t ev, exec (.bulkWrite ign) s = .next t ∧ ChunksSent s.arg0.toNat s t ev)
    ∧ (Accepts .writeBlock s → s.hdr = true →
      ∃ t ev, exec (.writeBlock ign) s = .next t ∧ ChunksSent s.cfg.blockSize s t ev)
    ∧ (Accepts .emitHeader s → 1 ≤ s.arg0.toNat → s.arg0.toNat ≤ 65535 →
      (s.arg1.extractLsb' 0 8 = 1 ∨ s.arg1.extractLsb' 0 8 = 2) →
      ∃ t ev, exec (.emitHeader ign) s = .next t ∧ ChunksSent 48 s t ev)

/-- READ_BLOCK (R260) with a words available and every answer Ok: RESULT = 2n for n = min(a, cap div 2), word k stored
high byte first at BUF[2k], and every other byte of BUF as before. Every DREQ behaviour is covered. -/
def Obligations.ReadBlockStores : Prop :=
  ∀ (s : State) (ign : BitVec 24) (x0 x1 a1 a0 : Byte) (ws : List (List Byte)) (xs : List Reply) (n : Nat),
    Accepts .readBlock s → n = min (a1 ++ a0).toNat (min s.arg0.toNat s.cfg.bufSize / 2) →
    s.cfg.bufSize ≤ 3840 →
    ws.length = n → (∀ w ∈ ws, w.length = 4) →
    s.dev.xfers = .ok [x0, x1, a1, a0] :: (ws.map .ok ++ xs) →
    ∃ t, exec (.readBlock ign) s = .next t
      ∧ t.code = .ok ∧ t.result.toNat = 2 * n ∧ t.busy = false ∧ t.fsm = .recording ∧ t.dev.xfers = xs
      ∧ (∀ k w, ws[k]? = some w → t.buf.read? (2 * k) = w[2]? ∧ t.buf.read? (2 * k + 1) = w[3]?)
      ∧ ∀ j, 2 * n ≤ j → t.buf.read? j = s.buf.read? j

/-- READ_BLOCK never writes BUF at or beyond its capacity cap = min(ARG0, BUF_SIZE), nor more than 2 (cap div 2) bytes
(R261), whatever the device answers: in the run from its launch, and in every later step of it where host accesses land
in between. -/
def Obligations.ReadBlockWithinCapacity : Prop :=
  (∀ (s t : State) (ign : BitVec 24), s.busy = false → exec (.readBlock ign) s = .next t →
    DrainBounded t
      ∧ ∀ j, 2 * (min s.arg0.toNat s.cfg.bufSize / 2) ≤ j → t.buf.read? j = s.buf.read? j)
  ∧ ∀ (s t : State) (c : Cursor), ControlInv s → DrainBounded s → s.cur = some c → c.op = .readBlock →
      ¬ resetLands s → step s = .next t →
      DrainBounded t ∧ ∀ j, 2 * (min s.arg0.toNat s.cfg.bufSize / 2) ≤ j → t.buf.read? j = s.buf.read? j

/-! ### Errors -/

/-- A command that ends with BUS_ERROR (60_exceptions.md R312): INIT and STOP leave FAULTED, every other command leaves
STATE; the events before stay, and the last one is the one failed answer; BERR is set; RESULT is 0, but for READ_BLOCK,
where it is 2k for the k recorded words read with an Ok answer (the answers after the first, which is the count's):
those are stored, and BUF from 2k on is as before (R260). -/
def Obligations.BusErrorOutcome : Prop :=
  ∀ (s t : State) (i : Instr) (op : Opcode), i.opcode? = some op → Accepts op s → exec i s = .next t →
    t.code = .busError →
    t.fsm = (if op = .init ∨ op = .stop then .faulted else s.fsm)
      ∧ t.berr = true ∧ t.busy = false ∧ (op ≠ .readBlock → t.result = 0)
      ∧ ∃ ev, t.trace = s.trace ++ ev ∧ failsLast ev ∧ (op = .readBlock → WordsStored (okAnswers ev).tail s t)

/-- HW_NOT_RESPONDING occurs only in INIT, only with VERIFY_ON_INIT = true, and only when the readback of REG_CLOCK
succeeds and differs from CLOCK_DEFAULT; it ends INIT in FAULTED with INIT = 0 (R313). -/
def Obligations.VerifyFailure : Prop :=
  ∀ (s t : State) (i : Instr) (op : Opcode), i.opcode? = some op → Accepts op s → exec i s = .next t →
    t.code = .hwNotResponding →
    op = .init ∧ s.cfg.verifyOnInit = true ∧ t.fsm = .faulted ∧ t.initFlag = false
      ∧ ∃ pre x0 x1 x2 x3,
          t.trace = pre ++ [.xfer .ctrl [s.cfg.readOp, s.cfg.regClock, 0x00, 0x00] (.ok [x0, x1, x2, x3])]
            ∧ x2 ++ x3 ≠ s.cfg.clockDefault

/-- The sticky flags over a command (10_state.md R39, R42, R44), whatever the device answers: the trace only grows; TMO
and BERR are set exactly where an event of the command is a timeout or a failed answer, and else stay; TMO_COUNT rises
by the timeouts, up to 0xFFFFFFFF; OVR stays (R43). -/
def Obligations.StickyFlags : Prop :=
  ∀ (s t : State) (i : Instr) (op : Opcode), i.opcode? = some op → s.busy = false → exec i s = .next t →
    ∃ ev, t.trace = s.trace ++ ev
      ∧ t.tmo = (s.tmo || decide (timeouts ev ≠ 0)) ∧ t.berr = (s.berr || ev.any Event.failed)
      ∧ t.tmoCount.toNat = min (s.tmoCount.toNat + timeouts ev) 0xFFFFFFFF ∧ t.ovr = s.ovr

/-! ### Frames of the commands: what they leave, in every run, whatever lands meanwhile -/

/-- Registers a command leaves: ARG0 and ARG1, the parameters and the host's log by all ten; RESET_N and INIT by all
but INIT (R48, R46); HDR by all but INIT, STOP, START_DECODE and EMIT_HEADER (R45); STATE by all but INIT, STOP,
START_RECORD and START_DECODE (R32); CMD where the write is ignored, and else it holds the word (R34). -/
def Obligations.CommandRegisterFrame : Prop :=
  ∀ (s t : State) (i : Instr) (op : Opcode) (w : Word), i.opcode? = some op → encode s.cfg i = .cmd w →
    exec i s = .next t →
    t.cfg = s.cfg ∧ t.arg0 = s.arg0 ∧ t.arg1 = s.arg1 ∧ t.hostLog = s.hostLog
      ∧ t.cmd = (if s.busy then s.cmd else w)
      ∧ (op ≠ .init → t.resetN = s.resetN ∧ t.initFlag = s.initFlag)
      ∧ (op ≠ .init → op ≠ .stop → op ≠ .startDecode → op ≠ .emitHeader → t.hdr = s.hdr)
      ∧ (op ≠ .init → op ≠ .stop → op ≠ .startRecord → op ≠ .startDecode → t.fsm = s.fsm)

/-- Memory a command leaves: every byte of BUF by all but READ_BLOCK (whose stores R260 names), every byte of HDRBUF by
all but EMIT_HEADER. -/
def Obligations.CommandMemoryFrame : Prop :=
  ∀ (s t : State) (i : Instr) (op : Opcode), i.opcode? = some op → exec i s = .next t →
    (op ≠ .readBlock → ∀ a, t.buf.read? a = s.buf.read? a)
      ∧ (op ≠ .emitHeader → ∀ a, t.hdrbuf.read? a = s.hdrbuf.read? a)

/-! ### The bootstrap header -/

/-- For every valid rate and channel count BuildHeader fills HDRBUF[0..47] with the table of R284, and its channels,
rate and byte-rate fields, read little-endian, are ch, sr and sr × ch × BITS_PER_SAMPLE / 8 rounded down (R286). -/
def Obligations.HeaderFields : Prop :=
  ∀ (s : State) (sr : Word) (ch : Byte), s.cfg.Wf → 1 ≤ sr.toNat → sr.toNat ≤ 65535 → (ch = 1 ∨ ch = 2) →
    ∃ h : List Byte, h.length = 48 ∧ (∀ j, j < 48 → (buildHeader sr ch s).hdrbuf.read? j = h[j]?)
      ∧ h.take 4 = [0x52, 0x49, 0x46, 0x46] ∧ (h.drop 8).take 12 = [0x57, 0x41, 0x56, 0x45, 0x66, 0x6D, 0x74, 0x20,
          0x14, 0x00, 0x00, 0x00]
      ∧ (h.drop 40).take 4 = [0x64, 0x61, 0x74, 0x61] ∧ (h.drop 36).take 2 = [0x02, 0x00]
      ∧ wordOfBytes (h.drop 4) = s.cfg.lenMarker ∧ wordOfBytes (h.drop 44) = s.cfg.lenMarker
      ∧ (h.getD 21 0 ++ h.getD 20 0 : Half) = s.cfg.formatTag
      ∧ (h.getD 23 0 ++ h.getD 22 0 : Half).toNat = ch.toNat
      ∧ wordOfBytes (h.drop 24) = sr
      ∧ (wordOfBytes (h.drop 28)).toNat = sr.toNat * ch.toNat * s.cfg.bitsPerSample.toNat / 8
      ∧ (h.getD 33 0 ++ h.getD 32 0 : Half).toNat = s.cfg.blockSize
      ∧ (h.getD 35 0 ++ h.getD 34 0 : Half) = s.cfg.bitsPerSample
      ∧ (h.getD 39 0 ++ h.getD 38 0 : Half) = s.cfg.samplesPerBlock

/-! ### Reset -/

/-- Controller reset, at any moment, sets every controller state element to its reset value in one step, a command in
progress abandoned (70_reset_and_hazards.md R340, R341, 10_state.md R58); BUF and HDRBUF hold no value. The state after
reset is such a state. -/
def Obligations.ResetValues : Prop :=
  (∀ s : State, ∃ t, perform .reset s = .next t
    ∧ t.fsm = .uninit ∧ t.busy = false ∧ t.tmo = false ∧ t.ovr = false ∧ t.hdr = false ∧ t.initFlag = false
    ∧ t.berr = false ∧ t.code = .ok ∧ t.cmd = 0 ∧ t.arg0 = 0 ∧ t.arg1 = 0 ∧ t.result = 0 ∧ t.tmoCount = 0
    ∧ (∀ a, t.buf.read? a = none) ∧ (∀ a, t.hdrbuf.read? a = none) ∧ t.cur = none ∧ t.call = none
    ∧ t.resetN = false ∧ t.csCtrl = false ∧ t.csData = false ∧ t.trace = [])
  ∧ State.reset.fsm = .uninit ∧ statusWord State.reset = 0 ∧ State.reset.cur = none ∧ State.reset.resetN = false

/-! ### The step -/

/-- An idle controller whose next input is a host write of a command's word to CMD runs exactly that command (R131,
R133), the input taken; with no input it does nothing (R342). -/
def Obligations.StepRunsCommand : Prop :=
  ∀ (s : State), s.cfg.Wf → s.cur = none →
    (∀ n w i rest, s.inputs = (n, .write (s.cfg.base + 0x000) .w32 w) :: rest → decode s.cfg (.cmd w) = .ok i →
      step s = exec i { s with inputs := rest })
    ∧ (s.inputs = [] → step s = .next s)

/-- A controller whose Body sends a frame next, no input landing, runs exactly the instruction that the frame's bytes
decode to (R105 to R107). That a step runs the whole frame, ready wait and transfer, through `exec` is the model's choice
(logs 1 and 12), and so is that a chunk's bytes are taken when its wait begins (log 20); where WRITE_OP = READ_OP the
bytes do not tell the two frames apart (log 19), and the statement does not speak of it. -/
def Obligations.StepRunsFrame : Prop :=
  ∀ (s : State) (op : Opcode) (j : Job) (rest : List Stmt) (ch : Channel) (tx : List Byte) (i : Instr),
    s.cfg.Wf → s.cfg.writeOp ≠ s.cfg.readOp → s.cur = some ⟨op, .frame j :: rest⟩ → s.call = none → s.ret = none →
    s.due = false → encode s.cfg (j.instr s) = .frame ch tx → decode s.cfg (.frame ch tx) = .ok i →
    step s = exec i (j.load s)

/-- withFetchWord puts an instruction where the next step runs it: the step is `exec` of it, at a state with the same
parameters, STATE, arguments and trace (log 15). -/
def Obligations.FetchWordRuns : Prop :=
  ∀ (s : State) (nbits w : Nat) (i : Instr), s.cfg.Wf → decodeTableWord nbits w = some i →
    ∃ u, step (s.withFetchWord nbits w) = exec i u ∧ u.cfg = s.cfg ∧ u.fsm = s.fsm ∧ u.arg0 = s.arg0
      ∧ u.arg1 = s.arg1 ∧ u.hdr = s.hdr ∧ u.dev = s.dev ∧ u.trace = s.trace ∧ u.call = none

/-! ### What every step keeps, and what a step may change -/

/-- STATE, BUSY, HDR, INIT and the command in progress agree (R31, R45 to R47, R50), and every step keeps it. -/
def Obligations.ControlInvKept : Prop :=
  ∀ s t : State, ControlInv s → step s = .next t → ControlInv t

/-- A chip select is asserted only inside an Xfer on its channel, and at most one is (R49); every step keeps it. -/
def Obligations.SelectInvKept : Prop :=
  ∀ s t : State, ControlInv s → SelectInv s → step s = .next t → SelectInv t

/-- Every transaction of the trace is one the controller may send and comes immediately after the end of a WaitReady
(R108, R160), and the transactions still to come are legal; every step keeps it. -/
def Obligations.WireInvKept : Prop :=
  ∀ s t : State, WireInv s → step s = .next t → WireInv t

/-- BUF and HDRBUF keep their canonical form and their bounds (R40, R50). -/
def Obligations.MemoryInvKept : Prop :=
  ∀ s t : State, MemoryInv s → step s = .next t → MemoryInv t

/-- The four invariants hold after reset, for every parameter set. -/
def Obligations.InvAtReset : Prop :=
  (∀ p : Params, Inv (State.resetWith p)) ∧ Inv State.reset

/-- STATE changes only as the table of R32 says: by INIT, STOP, START_RECORD or START_DECODE, between the states it
names and with the result code it names, or to UNINIT by a controller reset that lands in this step. So a switch between
RECORDING and DECODING passes through IDLE (R31, R355). -/
def Obligations.FsmMoves : Prop :=
  ∀ s t : State, ControlInv s → BodyOk s → step s = .next t → t.fsm ≠ s.fsm →
    (∃ op, stepOp s = some op ∧ fsmMove op s.fsm t.fsm t.code t.busy) ∨ (resetLands s ∧ t.fsm = .uninit)

/-- HDR is set only by EMIT_HEADER completing OK, and cleared only by STOP, or by a controller reset that lands in this
step, while it is set (R45; START_DECODE and INIT clear it too, but never find it set). -/
def Obligations.HdrChanges : Prop :=
  ∀ s t : State, ControlInv s → step s = .next t →
    (s.hdr = false → t.hdr = true → stepOp s = some .emitHeader ∧ t.code = .ok ∧ t.busy = false ∧ s.fsm = .decoding)
      ∧ (s.hdr = true → t.hdr = false → stepOp s = some .stop ∨ resetLands s)

/-- The arguments of a command in progress are frozen (20_memory.md R91): no step changes CMD, ARG0 or ARG1 while it
runs, but one in which a controller reset lands, and BUF changes only in READ_BLOCK. -/
def Obligations.ArgumentsFrozen : Prop :=
  ∀ (s t : State) (c : Cursor), ControlInv s → BodyOk s → s.cur = some c → ¬ resetLands s → step s = .next t →
    t.cmd = s.cmd ∧ t.arg0 = s.arg0 ∧ t.arg1 = s.arg1 ∧ (c.op ≠ .readBlock → t.buf = s.buf)

/-- A host that reads STATUS while INIT runs sees STATE = RESET and BUSY = 1 (R221). -/
def Obligations.InitReadsReset : Prop :=
  ∀ (s : State) (c : Cursor), ControlInv s → s.cur = some c → c.op = .init →
    ∃ v, perform (.read (s.cfg.base + 0x00C) .w32) s
        = .next { s with hostLog := s.hostLog ++ [.read (s.cfg.base + 0x00C) v] }
      ∧ v.extractLsb' 0 4 = 0x9

/-- Every command in progress completes after finitely many steps, under every device, with no host access landing
meanwhile (40_host_interface.md R141): at most as many as its Body costs, and one more. -/
def Obligations.CommandsComplete : Prop :=
  ∀ (s : State) (c : Cursor), s.cfg.Wf → ControlInv s → BodyOk s → s.cur = some c → s.quiet = true →
    ∃ n t, n ≤ bodyCost c.body + 1 ∧ stepN n s = .next t ∧ t.busy = false ∧ t.cur = none

/-- `wait_idle` is the poll loop of R117. A poll logs the word of STATUS and does nothing to the controller; one that
reads BUSY = 1 is followed by another, one that reads BUSY = 0 ends the loop. It ends only when the command has completed:
a step between two polls leaves it in place. And it ends, under every device and at every timing of the polls, since every
command completes (R87, R141). That the polls landing while a command runs are a list in the input, from which a poll takes
the wait to the next one, is the model's choice (logs 2 and 17). -/
def Obligations.WaitIdlePolls : Prop :=
  ∀ (s : State) (w : Nat) (gaps : List Nat) (rest : List (Nat × Input)), s.cfg.Wf → ControlInv s → BodyOk s →
    s.inputs = (w, .waitIdle gaps) :: rest →
    (s.cur = none → ∃ v : Word, v.getLsbD 3 = false
      ∧ step s = .next { s with
          inputs := rest, hostLog := s.hostLog ++ [.read (s.cfg.base + 0x00C) v] })
    ∧ (s.cur ≠ none → s.due = true → ∃ v : Word, v.getLsbD 3 = true
      ∧ step s = .next { s with
          inputs := (gaps.headD 0, .waitIdle gaps.tail) :: rest
          hostLog := s.hostLog ++ [.read (s.cfg.base + 0x00C) v] })
    ∧ (s.cur ≠ none → s.due = false → ∃ t w', step s = .next t
      ∧ t.inputs = (w', .waitIdle gaps) :: rest ∧ t.hostLog = s.hostLog)
    ∧ ∃ n t, stepN n s = .next t ∧ t.cur = none ∧ t.busy = false ∧ t.inputs = rest
end

