-- ==== Sys2Proof/Laws/State.lean ====
section
/-! SUPPORT. One lemma per field per update of the state: what each shared operation writes, and what it leaves. -/

namespace Sys2Proof.Machine

variable (s : State)

/-! ### `emit` -/

@[simp] theorem emit_cfg (e : Event) : (s.emit e).cfg = s.cfg := rfl
@[simp] theorem emit_cmd (e : Event) : (s.emit e).cmd = s.cmd := rfl
@[simp] theorem emit_arg0 (e : Event) : (s.emit e).arg0 = s.arg0 := rfl
@[simp] theorem emit_arg1 (e : Event) : (s.emit e).arg1 = s.arg1 := rfl
@[simp] theorem emit_fsm (e : Event) : (s.emit e).fsm = s.fsm := rfl
@[simp] theorem emit_busy (e : Event) : (s.emit e).busy = s.busy := rfl
@[simp] theorem emit_tmo (e : Event) : (s.emit e).tmo = s.tmo := rfl
@[simp] theorem emit_ovr (e : Event) : (s.emit e).ovr = s.ovr := rfl
@[simp] theorem emit_hdr (e : Event) : (s.emit e).hdr = s.hdr := rfl
@[simp] theorem emit_initFlag (e : Event) : (s.emit e).initFlag = s.initFlag := rfl
@[simp] theorem emit_code (e : Event) : (s.emit e).code = s.code := rfl
@[simp] theorem emit_berr (e : Event) : (s.emit e).berr = s.berr := rfl
@[simp] theorem emit_result (e : Event) : (s.emit e).result = s.result := rfl
@[simp] theorem emit_tmoCount (e : Event) : (s.emit e).tmoCount = s.tmoCount := rfl
@[simp] theorem emit_buf (e : Event) : (s.emit e).buf = s.buf := rfl
@[simp] theorem emit_resetN (e : Event) : (s.emit e).resetN = s.resetN := rfl
@[simp] theorem emit_csCtrl (e : Event) : (s.emit e).csCtrl = s.csCtrl := rfl
@[simp] theorem emit_csData (e : Event) : (s.emit e).csData = s.csData := rfl
@[simp] theorem emit_hdrbuf (e : Event) : (s.emit e).hdrbuf = s.hdrbuf := rfl
@[simp] theorem emit_cur (e : Event) : (s.emit e).cur = s.cur := rfl
@[simp] theorem emit_call (e : Event) : (s.emit e).call = s.call := rfl
@[simp] theorem emit_ret (e : Event) : (s.emit e).ret = s.ret := rfl
@[simp] theorem emit_trace (e : Event) : (s.emit e).trace = s.trace ++ [e] := rfl
@[simp] theorem emit_dev (e : Event) : (s.emit e).dev = s.dev := rfl
@[simp] theorem emit_draws (e : Event) : (s.emit e).draws = s.draws := rfl
@[simp] theorem emit_inputs (e : Event) : (s.emit e).inputs = s.inputs := rfl
@[simp] theorem emit_hostLog (e : Event) : (s.emit e).hostLog = s.hostLog := rfl

/-! ### `setBody` -/

@[simp] theorem setBody_cfg (op : Opcode) (body : List Stmt) : (setBody op body s).cfg = s.cfg := rfl
@[simp] theorem setBody_cmd (op : Opcode) (body : List Stmt) : (setBody op body s).cmd = s.cmd := rfl
@[simp] theorem setBody_arg0 (op : Opcode) (body : List Stmt) : (setBody op body s).arg0 = s.arg0 := rfl
@[simp] theorem setBody_arg1 (op : Opcode) (body : List Stmt) : (setBody op body s).arg1 = s.arg1 := rfl
@[simp] theorem setBody_fsm (op : Opcode) (body : List Stmt) : (setBody op body s).fsm = s.fsm := rfl
@[simp] theorem setBody_busy (op : Opcode) (body : List Stmt) : (setBody op body s).busy = s.busy := rfl
@[simp] theorem setBody_tmo (op : Opcode) (body : List Stmt) : (setBody op body s).tmo = s.tmo := rfl
@[simp] theorem setBody_ovr (op : Opcode) (body : List Stmt) : (setBody op body s).ovr = s.ovr := rfl
@[simp] theorem setBody_hdr (op : Opcode) (body : List Stmt) : (setBody op body s).hdr = s.hdr := rfl
@[simp] theorem setBody_initFlag (op : Opcode) (body : List Stmt) : (setBody op body s).initFlag = s.initFlag := rfl
@[simp] theorem setBody_code (op : Opcode) (body : List Stmt) : (setBody op body s).code = s.code := rfl
@[simp] theorem setBody_berr (op : Opcode) (body : List Stmt) : (setBody op body s).berr = s.berr := rfl
@[simp] theorem setBody_result (op : Opcode) (body : List Stmt) : (setBody op body s).result = s.result := rfl
@[simp] theorem setBody_tmoCount (op : Opcode) (body : List Stmt) : (setBody op body s).tmoCount = s.tmoCount := rfl
@[simp] theorem setBody_buf (op : Opcode) (body : List Stmt) : (setBody op body s).buf = s.buf := rfl
@[simp] theorem setBody_resetN (op : Opcode) (body : List Stmt) : (setBody op body s).resetN = s.resetN := rfl
@[simp] theorem setBody_csCtrl (op : Opcode) (body : List Stmt) : (setBody op body s).csCtrl = s.csCtrl := rfl
@[simp] theorem setBody_csData (op : Opcode) (body : List Stmt) : (setBody op body s).csData = s.csData := rfl
@[simp] theorem setBody_hdrbuf (op : Opcode) (body : List Stmt) : (setBody op body s).hdrbuf = s.hdrbuf := rfl
@[simp] theorem setBody_cur (op : Opcode) (body : List Stmt) : (setBody op body s).cur = some { op := op, body := body } := rfl
@[simp] theorem setBody_call (op : Opcode) (body : List Stmt) : (setBody op body s).call = s.call := rfl
@[simp] theorem setBody_ret (op : Opcode) (body : List Stmt) : (setBody op body s).ret = none := rfl
@[simp] theorem setBody_trace (op : Opcode) (body : List Stmt) : (setBody op body s).trace = s.trace := rfl
@[simp] theorem setBody_dev (op : Opcode) (body : List Stmt) : (setBody op body s).dev = s.dev := rfl
@[simp] theorem setBody_draws (op : Opcode) (body : List Stmt) : (setBody op body s).draws = s.draws := rfl
@[simp] theorem setBody_inputs (op : Opcode) (body : List Stmt) : (setBody op body s).inputs = s.inputs := rfl
@[simp] theorem setBody_hostLog (op : Opcode) (body : List Stmt) : (setBody op body s).hostLog = s.hostLog := rfl

/-! ### `complete` -/

@[simp] theorem complete_cfg (c : ResultCode) (r : Word) : (complete c r s).cfg = s.cfg := rfl
@[simp] theorem complete_cmd (c : ResultCode) (r : Word) : (complete c r s).cmd = s.cmd := rfl
@[simp] theorem complete_arg0 (c : ResultCode) (r : Word) : (complete c r s).arg0 = s.arg0 := rfl
@[simp] theorem complete_arg1 (c : ResultCode) (r : Word) : (complete c r s).arg1 = s.arg1 := rfl
@[simp] theorem complete_fsm (c : ResultCode) (r : Word) : (complete c r s).fsm = s.fsm := rfl
@[simp] theorem complete_busy (c : ResultCode) (r : Word) : (complete c r s).busy = false := rfl
@[simp] theorem complete_tmo (c : ResultCode) (r : Word) : (complete c r s).tmo = s.tmo := rfl
@[simp] theorem complete_ovr (c : ResultCode) (r : Word) : (complete c r s).ovr = s.ovr := rfl
@[simp] theorem complete_hdr (c : ResultCode) (r : Word) : (complete c r s).hdr = s.hdr := rfl
@[simp] theorem complete_initFlag (c : ResultCode) (r : Word) : (complete c r s).initFlag = s.initFlag := rfl
@[simp] theorem complete_code (c : ResultCode) (r : Word) : (complete c r s).code = c := rfl
@[simp] theorem complete_berr (c : ResultCode) (r : Word) : (complete c r s).berr = s.berr := rfl
@[simp] theorem complete_result (c : ResultCode) (r : Word) : (complete c r s).result = r := rfl
@[simp] theorem complete_tmoCount (c : ResultCode) (r : Word) : (complete c r s).tmoCount = s.tmoCount := rfl
@[simp] theorem complete_buf (c : ResultCode) (r : Word) : (complete c r s).buf = s.buf := rfl
@[simp] theorem complete_resetN (c : ResultCode) (r : Word) : (complete c r s).resetN = s.resetN := rfl
@[simp] theorem complete_csCtrl (c : ResultCode) (r : Word) : (complete c r s).csCtrl = s.csCtrl := rfl
@[simp] theorem complete_csData (c : ResultCode) (r : Word) : (complete c r s).csData = s.csData := rfl
@[simp] theorem complete_hdrbuf (c : ResultCode) (r : Word) : (complete c r s).hdrbuf = s.hdrbuf := rfl
@[simp] theorem complete_cur (c : ResultCode) (r : Word) : (complete c r s).cur = none := rfl
@[simp] theorem complete_call (c : ResultCode) (r : Word) : (complete c r s).call = none := rfl
@[simp] theorem complete_ret (c : ResultCode) (r : Word) : (complete c r s).ret = none := rfl
@[simp] theorem complete_trace (c : ResultCode) (r : Word) : (complete c r s).trace = s.trace := rfl
@[simp] theorem complete_dev (c : ResultCode) (r : Word) : (complete c r s).dev = s.dev := rfl
@[simp] theorem complete_draws (c : ResultCode) (r : Word) : (complete c r s).draws = s.draws := rfl
@[simp] theorem complete_inputs (c : ResultCode) (r : Word) : (complete c r s).inputs = s.inputs := rfl
@[simp] theorem complete_hostLog (c : ResultCode) (r : Word) : (complete c r s).hostLog = s.hostLog := rfl

/-! ### `clearFlags` -/

@[simp] theorem clearFlags_cfg (v : Word) : (clearFlags v s).cfg = s.cfg := rfl
@[simp] theorem clearFlags_cmd (v : Word) : (clearFlags v s).cmd = s.cmd := rfl
@[simp] theorem clearFlags_arg0 (v : Word) : (clearFlags v s).arg0 = s.arg0 := rfl
@[simp] theorem clearFlags_arg1 (v : Word) : (clearFlags v s).arg1 = s.arg1 := rfl
@[simp] theorem clearFlags_fsm (v : Word) : (clearFlags v s).fsm = s.fsm := rfl
@[simp] theorem clearFlags_busy (v : Word) : (clearFlags v s).busy = s.busy := rfl
@[simp] theorem clearFlags_tmo (v : Word) : (clearFlags v s).tmo = (s.tmo && !v.getLsbD 4) := rfl
@[simp] theorem clearFlags_ovr (v : Word) : (clearFlags v s).ovr = (s.ovr && !v.getLsbD 5) := rfl
@[simp] theorem clearFlags_hdr (v : Word) : (clearFlags v s).hdr = s.hdr := rfl
@[simp] theorem clearFlags_initFlag (v : Word) : (clearFlags v s).initFlag = s.initFlag := rfl
@[simp] theorem clearFlags_code (v : Word) : (clearFlags v s).code = s.code := rfl
@[simp] theorem clearFlags_berr (v : Word) : (clearFlags v s).berr = (s.berr && !v.getLsbD 12) := rfl
@[simp] theorem clearFlags_result (v : Word) : (clearFlags v s).result = s.result := rfl
@[simp] theorem clearFlags_tmoCount (v : Word) : (clearFlags v s).tmoCount = s.tmoCount := rfl
@[simp] theorem clearFlags_buf (v : Word) : (clearFlags v s).buf = s.buf := rfl
@[simp] theorem clearFlags_resetN (v : Word) : (clearFlags v s).resetN = s.resetN := rfl
@[simp] theorem clearFlags_csCtrl (v : Word) : (clearFlags v s).csCtrl = s.csCtrl := rfl
@[simp] theorem clearFlags_csData (v : Word) : (clearFlags v s).csData = s.csData := rfl
@[simp] theorem clearFlags_hdrbuf (v : Word) : (clearFlags v s).hdrbuf = s.hdrbuf := rfl
@[simp] theorem clearFlags_cur (v : Word) : (clearFlags v s).cur = s.cur := rfl
@[simp] theorem clearFlags_call (v : Word) : (clearFlags v s).call = s.call := rfl
@[simp] theorem clearFlags_ret (v : Word) : (clearFlags v s).ret = s.ret := rfl
@[simp] theorem clearFlags_trace (v : Word) : (clearFlags v s).trace = s.trace := rfl
@[simp] theorem clearFlags_dev (v : Word) : (clearFlags v s).dev = s.dev := rfl
@[simp] theorem clearFlags_draws (v : Word) : (clearFlags v s).draws = s.draws := rfl
@[simp] theorem clearFlags_inputs (v : Word) : (clearFlags v s).inputs = s.inputs := rfl
@[simp] theorem clearFlags_hostLog (v : Word) : (clearFlags v s).hostLog = s.hostLog := rfl

/-! ### `ignoredWrite` -/

@[simp] theorem ignoredWrite_cfg : (ignoredWrite s).cfg = s.cfg := rfl
@[simp] theorem ignoredWrite_cmd : (ignoredWrite s).cmd = s.cmd := rfl
@[simp] theorem ignoredWrite_arg0 : (ignoredWrite s).arg0 = s.arg0 := rfl
@[simp] theorem ignoredWrite_arg1 : (ignoredWrite s).arg1 = s.arg1 := rfl
@[simp] theorem ignoredWrite_fsm : (ignoredWrite s).fsm = s.fsm := rfl
@[simp] theorem ignoredWrite_busy : (ignoredWrite s).busy = s.busy := rfl
@[simp] theorem ignoredWrite_tmo : (ignoredWrite s).tmo = s.tmo := rfl
@[simp] theorem ignoredWrite_ovr : (ignoredWrite s).ovr = true := rfl
@[simp] theorem ignoredWrite_hdr : (ignoredWrite s).hdr = s.hdr := rfl
@[simp] theorem ignoredWrite_initFlag : (ignoredWrite s).initFlag = s.initFlag := rfl
@[simp] theorem ignoredWrite_code : (ignoredWrite s).code = s.code := rfl
@[simp] theorem ignoredWrite_berr : (ignoredWrite s).berr = s.berr := rfl
@[simp] theorem ignoredWrite_result : (ignoredWrite s).result = s.result := rfl
@[simp] theorem ignoredWrite_tmoCount : (ignoredWrite s).tmoCount = s.tmoCount := rfl
@[simp] theorem ignoredWrite_buf : (ignoredWrite s).buf = s.buf := rfl
@[simp] theorem ignoredWrite_resetN : (ignoredWrite s).resetN = s.resetN := rfl
@[simp] theorem ignoredWrite_csCtrl : (ignoredWrite s).csCtrl = s.csCtrl := rfl
@[simp] theorem ignoredWrite_csData : (ignoredWrite s).csData = s.csData := rfl
@[simp] theorem ignoredWrite_hdrbuf : (ignoredWrite s).hdrbuf = s.hdrbuf := rfl
@[simp] theorem ignoredWrite_cur : (ignoredWrite s).cur = s.cur := rfl
@[simp] theorem ignoredWrite_call : (ignoredWrite s).call = s.call := rfl
@[simp] theorem ignoredWrite_ret : (ignoredWrite s).ret = s.ret := rfl
@[simp] theorem ignoredWrite_trace : (ignoredWrite s).trace = s.trace := rfl
@[simp] theorem ignoredWrite_dev : (ignoredWrite s).dev = s.dev := rfl
@[simp] theorem ignoredWrite_draws : (ignoredWrite s).draws = s.draws := rfl
@[simp] theorem ignoredWrite_inputs : (ignoredWrite s).inputs = s.inputs := rfl
@[simp] theorem ignoredWrite_hostLog : (ignoredWrite s).hostLog = s.hostLog := rfl

/-! ### `timeoutFlags` -/

@[simp] theorem timeoutFlags_cfg : (timeoutFlags s).cfg = s.cfg := rfl
@[simp] theorem timeoutFlags_cmd : (timeoutFlags s).cmd = s.cmd := rfl
@[simp] theorem timeoutFlags_arg0 : (timeoutFlags s).arg0 = s.arg0 := rfl
@[simp] theorem timeoutFlags_arg1 : (timeoutFlags s).arg1 = s.arg1 := rfl
@[simp] theorem timeoutFlags_fsm : (timeoutFlags s).fsm = s.fsm := rfl
@[simp] theorem timeoutFlags_busy : (timeoutFlags s).busy = s.busy := rfl
@[simp] theorem timeoutFlags_tmo : (timeoutFlags s).tmo = true := rfl
@[simp] theorem timeoutFlags_ovr : (timeoutFlags s).ovr = s.ovr := rfl
@[simp] theorem timeoutFlags_hdr : (timeoutFlags s).hdr = s.hdr := rfl
@[simp] theorem timeoutFlags_initFlag : (timeoutFlags s).initFlag = s.initFlag := rfl
@[simp] theorem timeoutFlags_code : (timeoutFlags s).code = s.code := rfl
@[simp] theorem timeoutFlags_berr : (timeoutFlags s).berr = s.berr := rfl
@[simp] theorem timeoutFlags_result : (timeoutFlags s).result = s.result := rfl
@[simp] theorem timeoutFlags_tmoCount : (timeoutFlags s).tmoCount = satSucc s.tmoCount := rfl
@[simp] theorem timeoutFlags_buf : (timeoutFlags s).buf = s.buf := rfl
@[simp] theorem timeoutFlags_resetN : (timeoutFlags s).resetN = s.resetN := rfl
@[simp] theorem timeoutFlags_csCtrl : (timeoutFlags s).csCtrl = s.csCtrl := rfl
@[simp] theorem timeoutFlags_csData : (timeoutFlags s).csData = s.csData := rfl
@[simp] theorem timeoutFlags_hdrbuf : (timeoutFlags s).hdrbuf = s.hdrbuf := rfl
@[simp] theorem timeoutFlags_cur : (timeoutFlags s).cur = s.cur := rfl
@[simp] theorem timeoutFlags_call : (timeoutFlags s).call = s.call := rfl
@[simp] theorem timeoutFlags_ret : (timeoutFlags s).ret = s.ret := rfl
@[simp] theorem timeoutFlags_trace : (timeoutFlags s).trace = s.trace := rfl
@[simp] theorem timeoutFlags_dev : (timeoutFlags s).dev = s.dev := rfl
@[simp] theorem timeoutFlags_draws : (timeoutFlags s).draws = s.draws := rfl
@[simp] theorem timeoutFlags_inputs : (timeoutFlags s).inputs = s.inputs := rfl
@[simp] theorem timeoutFlags_hostLog : (timeoutFlags s).hostLog = s.hostLog := rfl

/-! ### `delayFor` -/

@[simp] theorem delayFor_cfg (t : Nat) : (delayFor t s).cfg = s.cfg := rfl
@[simp] theorem delayFor_cmd (t : Nat) : (delayFor t s).cmd = s.cmd := rfl
@[simp] theorem delayFor_arg0 (t : Nat) : (delayFor t s).arg0 = s.arg0 := rfl
@[simp] theorem delayFor_arg1 (t : Nat) : (delayFor t s).arg1 = s.arg1 := rfl
@[simp] theorem delayFor_fsm (t : Nat) : (delayFor t s).fsm = s.fsm := rfl
@[simp] theorem delayFor_busy (t : Nat) : (delayFor t s).busy = s.busy := rfl
@[simp] theorem delayFor_tmo (t : Nat) : (delayFor t s).tmo = s.tmo := rfl
@[simp] theorem delayFor_ovr (t : Nat) : (delayFor t s).ovr = s.ovr := rfl
@[simp] theorem delayFor_hdr (t : Nat) : (delayFor t s).hdr = s.hdr := rfl
@[simp] theorem delayFor_initFlag (t : Nat) : (delayFor t s).initFlag = s.initFlag := rfl
@[simp] theorem delayFor_code (t : Nat) : (delayFor t s).code = s.code := rfl
@[simp] theorem delayFor_berr (t : Nat) : (delayFor t s).berr = s.berr := rfl
@[simp] theorem delayFor_result (t : Nat) : (delayFor t s).result = s.result := rfl
@[simp] theorem delayFor_tmoCount (t : Nat) : (delayFor t s).tmoCount = s.tmoCount := rfl
@[simp] theorem delayFor_buf (t : Nat) : (delayFor t s).buf = s.buf := rfl
@[simp] theorem delayFor_resetN (t : Nat) : (delayFor t s).resetN = s.resetN := rfl
@[simp] theorem delayFor_csCtrl (t : Nat) : (delayFor t s).csCtrl = s.csCtrl := rfl
@[simp] theorem delayFor_csData (t : Nat) : (delayFor t s).csData = s.csData := rfl
@[simp] theorem delayFor_hdrbuf (t : Nat) : (delayFor t s).hdrbuf = s.hdrbuf := rfl
@[simp] theorem delayFor_cur (t : Nat) : (delayFor t s).cur = s.cur := rfl
@[simp] theorem delayFor_call (t : Nat) : (delayFor t s).call = s.call := rfl
@[simp] theorem delayFor_ret (t : Nat) : (delayFor t s).ret = s.ret := rfl
@[simp] theorem delayFor_trace (t : Nat) : (delayFor t s).trace = s.trace ++ [.delay t] := rfl
@[simp] theorem delayFor_dev (t : Nat) : (delayFor t s).dev = s.dev := rfl
@[simp] theorem delayFor_draws (t : Nat) : (delayFor t s).draws = s.draws := rfl
@[simp] theorem delayFor_inputs (t : Nat) : (delayFor t s).inputs = s.inputs := rfl
@[simp] theorem delayFor_hostLog (t : Nat) : (delayFor t s).hostLog = s.hostLog := rfl

/-! ### `setResetN` -/

@[simp] theorem setResetN_cfg (v : Bool) : (setResetN v s).cfg = s.cfg := rfl
@[simp] theorem setResetN_cmd (v : Bool) : (setResetN v s).cmd = s.cmd := rfl
@[simp] theorem setResetN_arg0 (v : Bool) : (setResetN v s).arg0 = s.arg0 := rfl
@[simp] theorem setResetN_arg1 (v : Bool) : (setResetN v s).arg1 = s.arg1 := rfl
@[simp] theorem setResetN_fsm (v : Bool) : (setResetN v s).fsm = s.fsm := rfl
@[simp] theorem setResetN_busy (v : Bool) : (setResetN v s).busy = s.busy := rfl
@[simp] theorem setResetN_tmo (v : Bool) : (setResetN v s).tmo = s.tmo := rfl
@[simp] theorem setResetN_ovr (v : Bool) : (setResetN v s).ovr = s.ovr := rfl
@[simp] theorem setResetN_hdr (v : Bool) : (setResetN v s).hdr = s.hdr := rfl
@[simp] theorem setResetN_initFlag (v : Bool) : (setResetN v s).initFlag = s.initFlag := rfl
@[simp] theorem setResetN_code (v : Bool) : (setResetN v s).code = s.code := rfl
@[simp] theorem setResetN_berr (v : Bool) : (setResetN v s).berr = s.berr := rfl
@[simp] theorem setResetN_result (v : Bool) : (setResetN v s).result = s.result := rfl
@[simp] theorem setResetN_tmoCount (v : Bool) : (setResetN v s).tmoCount = s.tmoCount := rfl
@[simp] theorem setResetN_buf (v : Bool) : (setResetN v s).buf = s.buf := rfl
@[simp] theorem setResetN_resetN (v : Bool) : (setResetN v s).resetN = v := rfl
@[simp] theorem setResetN_csCtrl (v : Bool) : (setResetN v s).csCtrl = s.csCtrl := rfl
@[simp] theorem setResetN_csData (v : Bool) : (setResetN v s).csData = s.csData := rfl
@[simp] theorem setResetN_hdrbuf (v : Bool) : (setResetN v s).hdrbuf = s.hdrbuf := rfl
@[simp] theorem setResetN_cur (v : Bool) : (setResetN v s).cur = s.cur := rfl
@[simp] theorem setResetN_call (v : Bool) : (setResetN v s).call = s.call := rfl
@[simp] theorem setResetN_ret (v : Bool) : (setResetN v s).ret = s.ret := rfl
@[simp] theorem setResetN_trace (v : Bool) : (setResetN v s).trace = s.trace ++ [.resetN v] := rfl
@[simp] theorem setResetN_dev (v : Bool) : (setResetN v s).dev = s.dev := rfl
@[simp] theorem setResetN_draws (v : Bool) : (setResetN v s).draws = s.draws := rfl
@[simp] theorem setResetN_inputs (v : Bool) : (setResetN v s).inputs = s.inputs := rfl
@[simp] theorem setResetN_hostLog (v : Bool) : (setResetN v s).hostLog = s.hostLog := rfl

/-! ### `beginCall` -/

@[simp] theorem beginCall_cfg (t : Option Transaction) : (beginCall t s).cfg = s.cfg := rfl
@[simp] theorem beginCall_cmd (t : Option Transaction) : (beginCall t s).cmd = s.cmd := rfl
@[simp] theorem beginCall_arg0 (t : Option Transaction) : (beginCall t s).arg0 = s.arg0 := rfl
@[simp] theorem beginCall_arg1 (t : Option Transaction) : (beginCall t s).arg1 = s.arg1 := rfl
@[simp] theorem beginCall_fsm (t : Option Transaction) : (beginCall t s).fsm = s.fsm := rfl
@[simp] theorem beginCall_busy (t : Option Transaction) : (beginCall t s).busy = s.busy := rfl
@[simp] theorem beginCall_tmo (t : Option Transaction) : (beginCall t s).tmo = s.tmo := rfl
@[simp] theorem beginCall_ovr (t : Option Transaction) : (beginCall t s).ovr = s.ovr := rfl
@[simp] theorem beginCall_hdr (t : Option Transaction) : (beginCall t s).hdr = s.hdr := rfl
@[simp] theorem beginCall_initFlag (t : Option Transaction) : (beginCall t s).initFlag = s.initFlag := rfl
@[simp] theorem beginCall_code (t : Option Transaction) : (beginCall t s).code = s.code := rfl
@[simp] theorem beginCall_berr (t : Option Transaction) : (beginCall t s).berr = s.berr := rfl
@[simp] theorem beginCall_result (t : Option Transaction) : (beginCall t s).result = s.result := rfl
@[simp] theorem beginCall_tmoCount (t : Option Transaction) : (beginCall t s).tmoCount = s.tmoCount := rfl
@[simp] theorem beginCall_buf (t : Option Transaction) : (beginCall t s).buf = s.buf := rfl
@[simp] theorem beginCall_resetN (t : Option Transaction) : (beginCall t s).resetN = s.resetN := rfl
@[simp] theorem beginCall_csCtrl (t : Option Transaction) : (beginCall t s).csCtrl = s.csCtrl := rfl
@[simp] theorem beginCall_csData (t : Option Transaction) : (beginCall t s).csData = s.csData := rfl
@[simp] theorem beginCall_hdrbuf (t : Option Transaction) : (beginCall t s).hdrbuf = s.hdrbuf := rfl
@[simp] theorem beginCall_cur (t : Option Transaction) : (beginCall t s).cur = s.cur := rfl
@[simp] theorem beginCall_call (t : Option Transaction) : (beginCall t s).call = some (.sample s.cfg.readyPolls t) := rfl
@[simp] theorem beginCall_ret (t : Option Transaction) : (beginCall t s).ret = none := rfl
@[simp] theorem beginCall_trace (t : Option Transaction) : (beginCall t s).trace = s.trace := rfl
@[simp] theorem beginCall_dev (t : Option Transaction) : (beginCall t s).dev = s.dev := rfl
@[simp] theorem beginCall_draws (t : Option Transaction) : (beginCall t s).draws = s.draws := rfl
@[simp] theorem beginCall_inputs (t : Option Transaction) : (beginCall t s).inputs = s.inputs := rfl
@[simp] theorem beginCall_hostLog (t : Option Transaction) : (beginCall t s).hostLog = s.hostLog := rfl

/-! ### `storeWord` -/

@[simp] theorem storeWord_cfg (k : Nat) (w : Half) : (storeWord k w s).cfg = s.cfg := rfl
@[simp] theorem storeWord_cmd (k : Nat) (w : Half) : (storeWord k w s).cmd = s.cmd := rfl
@[simp] theorem storeWord_arg0 (k : Nat) (w : Half) : (storeWord k w s).arg0 = s.arg0 := rfl
@[simp] theorem storeWord_arg1 (k : Nat) (w : Half) : (storeWord k w s).arg1 = s.arg1 := rfl
@[simp] theorem storeWord_fsm (k : Nat) (w : Half) : (storeWord k w s).fsm = s.fsm := rfl
@[simp] theorem storeWord_busy (k : Nat) (w : Half) : (storeWord k w s).busy = s.busy := rfl
@[simp] theorem storeWord_tmo (k : Nat) (w : Half) : (storeWord k w s).tmo = s.tmo := rfl
@[simp] theorem storeWord_ovr (k : Nat) (w : Half) : (storeWord k w s).ovr = s.ovr := rfl
@[simp] theorem storeWord_hdr (k : Nat) (w : Half) : (storeWord k w s).hdr = s.hdr := rfl
@[simp] theorem storeWord_initFlag (k : Nat) (w : Half) : (storeWord k w s).initFlag = s.initFlag := rfl
@[simp] theorem storeWord_code (k : Nat) (w : Half) : (storeWord k w s).code = s.code := rfl
@[simp] theorem storeWord_berr (k : Nat) (w : Half) : (storeWord k w s).berr = s.berr := rfl
@[simp] theorem storeWord_result (k : Nat) (w : Half) : (storeWord k w s).result = s.result := rfl
@[simp] theorem storeWord_tmoCount (k : Nat) (w : Half) : (storeWord k w s).tmoCount = s.tmoCount := rfl
@[simp] theorem storeWord_buf (k : Nat) (w : Half) : (storeWord k w s).buf = (s.buf.write (2 * k) (hiByte w)).write (2 * k + 1) (loByte w) := rfl
@[simp] theorem storeWord_resetN (k : Nat) (w : Half) : (storeWord k w s).resetN = s.resetN := rfl
@[simp] theorem storeWord_csCtrl (k : Nat) (w : Half) : (storeWord k w s).csCtrl = s.csCtrl := rfl
@[simp] theorem storeWord_csData (k : Nat) (w : Half) : (storeWord k w s).csData = s.csData := rfl
@[simp] theorem storeWord_hdrbuf (k : Nat) (w : Half) : (storeWord k w s).hdrbuf = s.hdrbuf := rfl
@[simp] theorem storeWord_cur (k : Nat) (w : Half) : (storeWord k w s).cur = s.cur := rfl
@[simp] theorem storeWord_call (k : Nat) (w : Half) : (storeWord k w s).call = s.call := rfl
@[simp] theorem storeWord_ret (k : Nat) (w : Half) : (storeWord k w s).ret = s.ret := rfl
@[simp] theorem storeWord_trace (k : Nat) (w : Half) : (storeWord k w s).trace = s.trace := rfl
@[simp] theorem storeWord_dev (k : Nat) (w : Half) : (storeWord k w s).dev = s.dev := rfl
@[simp] theorem storeWord_draws (k : Nat) (w : Half) : (storeWord k w s).draws = s.draws := rfl
@[simp] theorem storeWord_inputs (k : Nat) (w : Half) : (storeWord k w s).inputs = s.inputs := rfl
@[simp] theorem storeWord_hostLog (k : Nat) (w : Half) : (storeWord k w s).hostLog = s.hostLog := rfl

/-! ### `buildHeader` -/

@[simp] theorem buildHeader_cfg (sr : Word) (ch : Byte) : (buildHeader sr ch s).cfg = s.cfg := by simp only [buildHeader]
@[simp] theorem buildHeader_cmd (sr : Word) (ch : Byte) : (buildHeader sr ch s).cmd = s.cmd := by simp only [buildHeader]
@[simp] theorem buildHeader_arg0 (sr : Word) (ch : Byte) : (buildHeader sr ch s).arg0 = s.arg0 := by simp only [buildHeader]
@[simp] theorem buildHeader_arg1 (sr : Word) (ch : Byte) : (buildHeader sr ch s).arg1 = s.arg1 := by simp only [buildHeader]
@[simp] theorem buildHeader_fsm (sr : Word) (ch : Byte) : (buildHeader sr ch s).fsm = s.fsm := by simp only [buildHeader]
@[simp] theorem buildHeader_busy (sr : Word) (ch : Byte) : (buildHeader sr ch s).busy = s.busy := by simp only [buildHeader]
@[simp] theorem buildHeader_tmo (sr : Word) (ch : Byte) : (buildHeader sr ch s).tmo = s.tmo := by simp only [buildHeader]
@[simp] theorem buildHeader_ovr (sr : Word) (ch : Byte) : (buildHeader sr ch s).ovr = s.ovr := by simp only [buildHeader]
@[simp] theorem buildHeader_hdr (sr : Word) (ch : Byte) : (buildHeader sr ch s).hdr = s.hdr := by simp only [buildHeader]
@[simp] theorem buildHeader_initFlag (sr : Word) (ch : Byte) : (buildHeader sr ch s).initFlag = s.initFlag := by simp only [buildHeader]
@[simp] theorem buildHeader_code (sr : Word) (ch : Byte) : (buildHeader sr ch s).code = s.code := by simp only [buildHeader]
@[simp] theorem buildHeader_berr (sr : Word) (ch : Byte) : (buildHeader sr ch s).berr = s.berr := by simp only [buildHeader]
@[simp] theorem buildHeader_result (sr : Word) (ch : Byte) : (buildHeader sr ch s).result = s.result := by simp only [buildHeader]
@[simp] theorem buildHeader_tmoCount (sr : Word) (ch : Byte) : (buildHeader sr ch s).tmoCount = s.tmoCount := by simp only [buildHeader]
@[simp] theorem buildHeader_buf (sr : Word) (ch : Byte) : (buildHeader sr ch s).buf = s.buf := by simp only [buildHeader]
@[simp] theorem buildHeader_resetN (sr : Word) (ch : Byte) : (buildHeader sr ch s).resetN = s.resetN := by simp only [buildHeader]
@[simp] theorem buildHeader_csCtrl (sr : Word) (ch : Byte) : (buildHeader sr ch s).csCtrl = s.csCtrl := by simp only [buildHeader]
@[simp] theorem buildHeader_csData (sr : Word) (ch : Byte) : (buildHeader sr ch s).csData = s.csData := by simp only [buildHeader]
@[simp] theorem buildHeader_hdrbuf (sr : Word) (ch : Byte) : (buildHeader sr ch s).hdrbuf = s.hdrbuf.writeAll 0 (headerBytes s.cfg sr ch) := by simp only [buildHeader]
@[simp] theorem buildHeader_cur (sr : Word) (ch : Byte) : (buildHeader sr ch s).cur = s.cur := by simp only [buildHeader]
@[simp] theorem buildHeader_call (sr : Word) (ch : Byte) : (buildHeader sr ch s).call = s.call := by simp only [buildHeader]
@[simp] theorem buildHeader_ret (sr : Word) (ch : Byte) : (buildHeader sr ch s).ret = s.ret := by simp only [buildHeader]
@[simp] theorem buildHeader_trace (sr : Word) (ch : Byte) : (buildHeader sr ch s).trace = s.trace := by simp only [buildHeader]
@[simp] theorem buildHeader_dev (sr : Word) (ch : Byte) : (buildHeader sr ch s).dev = s.dev := by simp only [buildHeader]
@[simp] theorem buildHeader_draws (sr : Word) (ch : Byte) : (buildHeader sr ch s).draws = s.draws := by simp only [buildHeader]
@[simp] theorem buildHeader_inputs (sr : Word) (ch : Byte) : (buildHeader sr ch s).inputs = s.inputs := by simp only [buildHeader]
@[simp] theorem buildHeader_hostLog (sr : Word) (ch : Byte) : (buildHeader sr ch s).hostLog = s.hostLog := by simp only [buildHeader]

/-! ### `writeBufWord` -/

@[simp] theorem writeBufWord_cfg (k : Nat) (v : Word) : (writeBufWord k v s).cfg = s.cfg := by simp only [writeBufWord]
@[simp] theorem writeBufWord_cmd (k : Nat) (v : Word) : (writeBufWord k v s).cmd = s.cmd := by simp only [writeBufWord]
@[simp] theorem writeBufWord_arg0 (k : Nat) (v : Word) : (writeBufWord k v s).arg0 = s.arg0 := by simp only [writeBufWord]
@[simp] theorem writeBufWord_arg1 (k : Nat) (v : Word) : (writeBufWord k v s).arg1 = s.arg1 := by simp only [writeBufWord]
@[simp] theorem writeBufWord_fsm (k : Nat) (v : Word) : (writeBufWord k v s).fsm = s.fsm := by simp only [writeBufWord]
@[simp] theorem writeBufWord_busy (k : Nat) (v : Word) : (writeBufWord k v s).busy = s.busy := by simp only [writeBufWord]
@[simp] theorem writeBufWord_tmo (k : Nat) (v : Word) : (writeBufWord k v s).tmo = s.tmo := by simp only [writeBufWord]
@[simp] theorem writeBufWord_ovr (k : Nat) (v : Word) : (writeBufWord k v s).ovr = s.ovr := by simp only [writeBufWord]
@[simp] theorem writeBufWord_hdr (k : Nat) (v : Word) : (writeBufWord k v s).hdr = s.hdr := by simp only [writeBufWord]
@[simp] theorem writeBufWord_initFlag (k : Nat) (v : Word) : (writeBufWord k v s).initFlag = s.initFlag := by simp only [writeBufWord]
@[simp] theorem writeBufWord_code (k : Nat) (v : Word) : (writeBufWord k v s).code = s.code := by simp only [writeBufWord]
@[simp] theorem writeBufWord_berr (k : Nat) (v : Word) : (writeBufWord k v s).berr = s.berr := by simp only [writeBufWord]
@[simp] theorem writeBufWord_result (k : Nat) (v : Word) : (writeBufWord k v s).result = s.result := by simp only [writeBufWord]
@[simp] theorem writeBufWord_tmoCount (k : Nat) (v : Word) : (writeBufWord k v s).tmoCount = s.tmoCount := by simp only [writeBufWord]
@[simp] theorem writeBufWord_buf (k : Nat) (v : Word) : (writeBufWord k v s).buf = s.buf.writeAll (4 * k) (le32 v) := by simp only [writeBufWord]
@[simp] theorem writeBufWord_resetN (k : Nat) (v : Word) : (writeBufWord k v s).resetN = s.resetN := by simp only [writeBufWord]
@[simp] theorem writeBufWord_csCtrl (k : Nat) (v : Word) : (writeBufWord k v s).csCtrl = s.csCtrl := by simp only [writeBufWord]
@[simp] theorem writeBufWord_csData (k : Nat) (v : Word) : (writeBufWord k v s).csData = s.csData := by simp only [writeBufWord]
@[simp] theorem writeBufWord_hdrbuf (k : Nat) (v : Word) : (writeBufWord k v s).hdrbuf = s.hdrbuf := by simp only [writeBufWord]
@[simp] theorem writeBufWord_cur (k : Nat) (v : Word) : (writeBufWord k v s).cur = s.cur := by simp only [writeBufWord]
@[simp] theorem writeBufWord_call (k : Nat) (v : Word) : (writeBufWord k v s).call = s.call := by simp only [writeBufWord]
@[simp] theorem writeBufWord_ret (k : Nat) (v : Word) : (writeBufWord k v s).ret = s.ret := by simp only [writeBufWord]
@[simp] theorem writeBufWord_trace (k : Nat) (v : Word) : (writeBufWord k v s).trace = s.trace := by simp only [writeBufWord]
@[simp] theorem writeBufWord_dev (k : Nat) (v : Word) : (writeBufWord k v s).dev = s.dev := by simp only [writeBufWord]
@[simp] theorem writeBufWord_draws (k : Nat) (v : Word) : (writeBufWord k v s).draws = s.draws := by simp only [writeBufWord]
@[simp] theorem writeBufWord_inputs (k : Nat) (v : Word) : (writeBufWord k v s).inputs = s.inputs := by simp only [writeBufWord]
@[simp] theorem writeBufWord_hostLog (k : Nat) (v : Word) : (writeBufWord k v s).hostLog = s.hostLog := by simp only [writeBufWord]

/-! ### `tick` -/

@[simp] theorem tick_cfg : (tick s).cfg = s.cfg := rfl
@[simp] theorem tick_cmd : (tick s).cmd = s.cmd := rfl
@[simp] theorem tick_arg0 : (tick s).arg0 = s.arg0 := rfl
@[simp] theorem tick_arg1 : (tick s).arg1 = s.arg1 := rfl
@[simp] theorem tick_fsm : (tick s).fsm = s.fsm := rfl
@[simp] theorem tick_busy : (tick s).busy = s.busy := rfl
@[simp] theorem tick_tmo : (tick s).tmo = s.tmo := rfl
@[simp] theorem tick_ovr : (tick s).ovr = s.ovr := rfl
@[simp] theorem tick_hdr : (tick s).hdr = s.hdr := rfl
@[simp] theorem tick_initFlag : (tick s).initFlag = s.initFlag := rfl
@[simp] theorem tick_code : (tick s).code = s.code := rfl
@[simp] theorem tick_berr : (tick s).berr = s.berr := rfl
@[simp] theorem tick_result : (tick s).result = s.result := rfl
@[simp] theorem tick_tmoCount : (tick s).tmoCount = s.tmoCount := rfl
@[simp] theorem tick_buf : (tick s).buf = s.buf := rfl
@[simp] theorem tick_resetN : (tick s).resetN = s.resetN := rfl
@[simp] theorem tick_csCtrl : (tick s).csCtrl = s.csCtrl := rfl
@[simp] theorem tick_csData : (tick s).csData = s.csData := rfl
@[simp] theorem tick_hdrbuf : (tick s).hdrbuf = s.hdrbuf := rfl
@[simp] theorem tick_cur : (tick s).cur = s.cur := rfl
@[simp] theorem tick_call : (tick s).call = s.call := rfl
@[simp] theorem tick_ret : (tick s).ret = s.ret := rfl
@[simp] theorem tick_trace : (tick s).trace = s.trace := rfl
@[simp] theorem tick_dev : (tick s).dev = s.dev := rfl
@[simp] theorem tick_draws : (tick s).draws = s.draws := rfl
@[simp] theorem tick_inputs : (tick s).inputs = tickInputs s.inputs := rfl
@[simp] theorem tick_hostLog : (tick s).hostLog = s.hostLog := rfl

/-! ### `hostRead` -/

@[simp] theorem hostRead_cfg (a : Nat) : (hostRead a s).cfg = s.cfg := by simp only [hostRead]
@[simp] theorem hostRead_cmd (a : Nat) : (hostRead a s).cmd = s.cmd := by simp only [hostRead]
@[simp] theorem hostRead_arg0 (a : Nat) : (hostRead a s).arg0 = s.arg0 := by simp only [hostRead]
@[simp] theorem hostRead_arg1 (a : Nat) : (hostRead a s).arg1 = s.arg1 := by simp only [hostRead]
@[simp] theorem hostRead_fsm (a : Nat) : (hostRead a s).fsm = s.fsm := by simp only [hostRead]
@[simp] theorem hostRead_busy (a : Nat) : (hostRead a s).busy = s.busy := by simp only [hostRead]
@[simp] theorem hostRead_tmo (a : Nat) : (hostRead a s).tmo = s.tmo := by simp only [hostRead]
@[simp] theorem hostRead_ovr (a : Nat) : (hostRead a s).ovr = s.ovr := by simp only [hostRead]
@[simp] theorem hostRead_hdr (a : Nat) : (hostRead a s).hdr = s.hdr := by simp only [hostRead]
@[simp] theorem hostRead_initFlag (a : Nat) : (hostRead a s).initFlag = s.initFlag := by simp only [hostRead]
@[simp] theorem hostRead_code (a : Nat) : (hostRead a s).code = s.code := by simp only [hostRead]
@[simp] theorem hostRead_berr (a : Nat) : (hostRead a s).berr = s.berr := by simp only [hostRead]
@[simp] theorem hostRead_result (a : Nat) : (hostRead a s).result = s.result := by simp only [hostRead]
@[simp] theorem hostRead_tmoCount (a : Nat) : (hostRead a s).tmoCount = s.tmoCount := by simp only [hostRead]
@[simp] theorem hostRead_buf (a : Nat) : (hostRead a s).buf = s.buf := by simp only [hostRead]
@[simp] theorem hostRead_resetN (a : Nat) : (hostRead a s).resetN = s.resetN := by simp only [hostRead]
@[simp] theorem hostRead_csCtrl (a : Nat) : (hostRead a s).csCtrl = s.csCtrl := by simp only [hostRead]
@[simp] theorem hostRead_csData (a : Nat) : (hostRead a s).csData = s.csData := by simp only [hostRead]
@[simp] theorem hostRead_hdrbuf (a : Nat) : (hostRead a s).hdrbuf = s.hdrbuf := by simp only [hostRead]
@[simp] theorem hostRead_cur (a : Nat) : (hostRead a s).cur = s.cur := by simp only [hostRead]
@[simp] theorem hostRead_call (a : Nat) : (hostRead a s).call = s.call := by simp only [hostRead]
@[simp] theorem hostRead_ret (a : Nat) : (hostRead a s).ret = s.ret := by simp only [hostRead]
@[simp] theorem hostRead_trace (a : Nat) : (hostRead a s).trace = s.trace := by simp only [hostRead]
@[simp] theorem hostRead_dev (a : Nat) : (hostRead a s).dev = s.dev := by simp only [hostRead]
@[simp] theorem hostRead_draws (a : Nat) : (hostRead a s).draws = readDraws (windowReg s.cfg (a - s.cfg.base)) s := by simp only [hostRead]
@[simp] theorem hostRead_inputs (a : Nat) : (hostRead a s).inputs = s.inputs := by simp only [hostRead]
@[simp] theorem hostRead_hostLog (a : Nat) : (hostRead a s).hostLog = s.hostLog ++ [.read a (readReg (windowReg s.cfg (a - s.cfg.base)) s)] := by simp only [hostRead]

/-! ### `pollStatus`: a poll is a read, and changes no register -/

@[simp] theorem pollStatus_cfg (g : List Nat) : (pollStatus g s).cfg = s.cfg := by unfold pollStatus; split <;> simp [pollAgain]
@[simp] theorem pollStatus_cmd (g : List Nat) : (pollStatus g s).cmd = s.cmd := by unfold pollStatus; split <;> simp [pollAgain]
@[simp] theorem pollStatus_arg0 (g : List Nat) : (pollStatus g s).arg0 = s.arg0 := by unfold pollStatus; split <;> simp [pollAgain]
@[simp] theorem pollStatus_arg1 (g : List Nat) : (pollStatus g s).arg1 = s.arg1 := by unfold pollStatus; split <;> simp [pollAgain]
@[simp] theorem pollStatus_fsm (g : List Nat) : (pollStatus g s).fsm = s.fsm := by unfold pollStatus; split <;> simp [pollAgain]
@[simp] theorem pollStatus_busy (g : List Nat) : (pollStatus g s).busy = s.busy := by unfold pollStatus; split <;> simp [pollAgain]
@[simp] theorem pollStatus_tmo (g : List Nat) : (pollStatus g s).tmo = s.tmo := by unfold pollStatus; split <;> simp [pollAgain]
@[simp] theorem pollStatus_ovr (g : List Nat) : (pollStatus g s).ovr = s.ovr := by unfold pollStatus; split <;> simp [pollAgain]
@[simp] theorem pollStatus_hdr (g : List Nat) : (pollStatus g s).hdr = s.hdr := by unfold pollStatus; split <;> simp [pollAgain]
@[simp] theorem pollStatus_initFlag (g : List Nat) : (pollStatus g s).initFlag = s.initFlag := by unfold pollStatus; split <;> simp [pollAgain]
@[simp] theorem pollStatus_code (g : List Nat) : (pollStatus g s).code = s.code := by unfold pollStatus; split <;> simp [pollAgain]
@[simp] theorem pollStatus_berr (g : List Nat) : (pollStatus g s).berr = s.berr := by unfold pollStatus; split <;> simp [pollAgain]
@[simp] theorem pollStatus_result (g : List Nat) : (pollStatus g s).result = s.result := by unfold pollStatus; split <;> simp [pollAgain]
@[simp] theorem pollStatus_tmoCount (g : List Nat) : (pollStatus g s).tmoCount = s.tmoCount := by unfold pollStatus; split <;> simp [pollAgain]
@[simp] theorem pollStatus_buf (g : List Nat) : (pollStatus g s).buf = s.buf := by unfold pollStatus; split <;> simp [pollAgain]
@[simp] theorem pollStatus_resetN (g : List Nat) : (pollStatus g s).resetN = s.resetN := by unfold pollStatus; split <;> simp [pollAgain]
@[simp] theorem pollStatus_csCtrl (g : List Nat) : (pollStatus g s).csCtrl = s.csCtrl := by unfold pollStatus; split <;> simp [pollAgain]
@[simp] theorem pollStatus_csData (g : List Nat) : (pollStatus g s).csData = s.csData := by unfold pollStatus; split <;> simp [pollAgain]
@[simp] theorem pollStatus_hdrbuf (g : List Nat) : (pollStatus g s).hdrbuf = s.hdrbuf := by unfold pollStatus; split <;> simp [pollAgain]
@[simp] theorem pollStatus_cur (g : List Nat) : (pollStatus g s).cur = s.cur := by unfold pollStatus; split <;> simp [pollAgain]
@[simp] theorem pollStatus_call (g : List Nat) : (pollStatus g s).call = s.call := by unfold pollStatus; split <;> simp [pollAgain]
@[simp] theorem pollStatus_ret (g : List Nat) : (pollStatus g s).ret = s.ret := by unfold pollStatus; split <;> simp [pollAgain]
@[simp] theorem pollStatus_trace (g : List Nat) : (pollStatus g s).trace = s.trace := by unfold pollStatus; split <;> simp [pollAgain]
@[simp] theorem pollStatus_dev (g : List Nat) : (pollStatus g s).dev = s.dev := by unfold pollStatus; split <;> simp [pollAgain]

/-! ### `stopProgram` -/

@[simp] theorem stopProgram_cfg : (stopProgram s).cfg = s.cfg := rfl
@[simp] theorem stopProgram_cmd : (stopProgram s).cmd = s.cmd := rfl
@[simp] theorem stopProgram_arg0 : (stopProgram s).arg0 = s.arg0 := rfl
@[simp] theorem stopProgram_arg1 : (stopProgram s).arg1 = s.arg1 := rfl
@[simp] theorem stopProgram_fsm : (stopProgram s).fsm = s.fsm := rfl
@[simp] theorem stopProgram_busy : (stopProgram s).busy = s.busy := rfl
@[simp] theorem stopProgram_tmo : (stopProgram s).tmo = s.tmo := rfl
@[simp] theorem stopProgram_ovr : (stopProgram s).ovr = s.ovr := rfl
@[simp] theorem stopProgram_hdr : (stopProgram s).hdr = s.hdr := rfl
@[simp] theorem stopProgram_initFlag : (stopProgram s).initFlag = s.initFlag := rfl
@[simp] theorem stopProgram_code : (stopProgram s).code = s.code := rfl
@[simp] theorem stopProgram_berr : (stopProgram s).berr = s.berr := rfl
@[simp] theorem stopProgram_result : (stopProgram s).result = s.result := rfl
@[simp] theorem stopProgram_tmoCount : (stopProgram s).tmoCount = s.tmoCount := rfl
@[simp] theorem stopProgram_buf : (stopProgram s).buf = s.buf := rfl
@[simp] theorem stopProgram_resetN : (stopProgram s).resetN = s.resetN := rfl
@[simp] theorem stopProgram_csCtrl : (stopProgram s).csCtrl = s.csCtrl := rfl
@[simp] theorem stopProgram_csData : (stopProgram s).csData = s.csData := rfl
@[simp] theorem stopProgram_hdrbuf : (stopProgram s).hdrbuf = s.hdrbuf := rfl
@[simp] theorem stopProgram_cur : (stopProgram s).cur = s.cur := rfl
@[simp] theorem stopProgram_call : (stopProgram s).call = s.call := rfl
@[simp] theorem stopProgram_ret : (stopProgram s).ret = s.ret := rfl
@[simp] theorem stopProgram_trace : (stopProgram s).trace = s.trace := rfl
@[simp] theorem stopProgram_dev : (stopProgram s).dev = s.dev := rfl
@[simp] theorem stopProgram_draws : (stopProgram s).draws = s.draws := rfl
@[simp] theorem stopProgram_inputs : (stopProgram s).inputs = dropProgram 0 s.inputs := rfl
@[simp] theorem stopProgram_hostLog : (stopProgram s).hostLog = s.hostLog ++ [.programFailed] := rfl

/-! ### `controllerReset`: every controller state element at its reset value -/

@[simp] theorem controllerReset_cfg : (controllerReset s).cfg = s.cfg := rfl
@[simp] theorem controllerReset_cmd : (controllerReset s).cmd = 0 := rfl
@[simp] theorem controllerReset_arg0 : (controllerReset s).arg0 = 0 := rfl
@[simp] theorem controllerReset_arg1 : (controllerReset s).arg1 = 0 := rfl
@[simp] theorem controllerReset_fsm : (controllerReset s).fsm = .uninit := rfl
@[simp] theorem controllerReset_busy : (controllerReset s).busy = false := rfl
@[simp] theorem controllerReset_tmo : (controllerReset s).tmo = false := rfl
@[simp] theorem controllerReset_ovr : (controllerReset s).ovr = false := rfl
@[simp] theorem controllerReset_hdr : (controllerReset s).hdr = false := rfl
@[simp] theorem controllerReset_initFlag : (controllerReset s).initFlag = false := rfl
@[simp] theorem controllerReset_code : (controllerReset s).code = .ok := rfl
@[simp] theorem controllerReset_berr : (controllerReset s).berr = false := rfl
@[simp] theorem controllerReset_result : (controllerReset s).result = 0 := rfl
@[simp] theorem controllerReset_tmoCount : (controllerReset s).tmoCount = 0 := rfl
@[simp] theorem controllerReset_buf : (controllerReset s).buf = [] := rfl
@[simp] theorem controllerReset_resetN : (controllerReset s).resetN = false := rfl
@[simp] theorem controllerReset_csCtrl : (controllerReset s).csCtrl = false := rfl
@[simp] theorem controllerReset_csData : (controllerReset s).csData = false := rfl
@[simp] theorem controllerReset_hdrbuf : (controllerReset s).hdrbuf = [] := rfl
@[simp] theorem controllerReset_cur : (controllerReset s).cur = none := rfl
@[simp] theorem controllerReset_call : (controllerReset s).call = none := rfl
@[simp] theorem controllerReset_ret : (controllerReset s).ret = none := rfl
@[simp] theorem controllerReset_trace : (controllerReset s).trace = [] := rfl
@[simp] theorem controllerReset_dev : (controllerReset s).dev = s.dev := rfl
@[simp] theorem controllerReset_draws : (controllerReset s).draws = s.draws := rfl
@[simp] theorem controllerReset_inputs : (controllerReset s).inputs = s.inputs := rfl
@[simp] theorem controllerReset_hostLog : (controllerReset s).hostLog = s.hostLog := rfl

/-! ### `setSelect`: what it leaves -/

@[simp] theorem setSelect_cfg (ch : Channel) (v : Bool) : (setSelect ch v s).cfg = s.cfg := by cases ch <;> rfl
@[simp] theorem setSelect_cmd (ch : Channel) (v : Bool) : (setSelect ch v s).cmd = s.cmd := by cases ch <;> rfl
@[simp] theorem setSelect_arg0 (ch : Channel) (v : Bool) : (setSelect ch v s).arg0 = s.arg0 := by cases ch <;> rfl
@[simp] theorem setSelect_arg1 (ch : Channel) (v : Bool) : (setSelect ch v s).arg1 = s.arg1 := by cases ch <;> rfl
@[simp] theorem setSelect_fsm (ch : Channel) (v : Bool) : (setSelect ch v s).fsm = s.fsm := by cases ch <;> rfl
@[simp] theorem setSelect_busy (ch : Channel) (v : Bool) : (setSelect ch v s).busy = s.busy := by cases ch <;> rfl
@[simp] theorem setSelect_tmo (ch : Channel) (v : Bool) : (setSelect ch v s).tmo = s.tmo := by cases ch <;> rfl
@[simp] theorem setSelect_ovr (ch : Channel) (v : Bool) : (setSelect ch v s).ovr = s.ovr := by cases ch <;> rfl
@[simp] theorem setSelect_hdr (ch : Channel) (v : Bool) : (setSelect ch v s).hdr = s.hdr := by cases ch <;> rfl
@[simp] theorem setSelect_initFlag (ch : Channel) (v : Bool) : (setSelect ch v s).initFlag = s.initFlag := by cases ch <;> rfl
@[simp] theorem setSelect_code (ch : Channel) (v : Bool) : (setSelect ch v s).code = s.code := by cases ch <;> rfl
@[simp] theorem setSelect_berr (ch : Channel) (v : Bool) : (setSelect ch v s).berr = s.berr := by cases ch <;> rfl
@[simp] theorem setSelect_result (ch : Channel) (v : Bool) : (setSelect ch v s).result = s.result := by cases ch <;> rfl
@[simp] theorem setSelect_tmoCount (ch : Channel) (v : Bool) : (setSelect ch v s).tmoCount = s.tmoCount := by cases ch <;> rfl
@[simp] theorem setSelect_buf (ch : Channel) (v : Bool) : (setSelect ch v s).buf = s.buf := by cases ch <;> rfl
@[simp] theorem setSelect_resetN (ch : Channel) (v : Bool) : (setSelect ch v s).resetN = s.resetN := by cases ch <;> rfl
@[simp] theorem setSelect_hdrbuf (ch : Channel) (v : Bool) : (setSelect ch v s).hdrbuf = s.hdrbuf := by cases ch <;> rfl
@[simp] theorem setSelect_cur (ch : Channel) (v : Bool) : (setSelect ch v s).cur = s.cur := by cases ch <;> rfl
@[simp] theorem setSelect_call (ch : Channel) (v : Bool) : (setSelect ch v s).call = s.call := by cases ch <;> rfl
@[simp] theorem setSelect_ret (ch : Channel) (v : Bool) : (setSelect ch v s).ret = s.ret := by cases ch <;> rfl
@[simp] theorem setSelect_trace (ch : Channel) (v : Bool) : (setSelect ch v s).trace = s.trace := by cases ch <;> rfl
@[simp] theorem setSelect_dev (ch : Channel) (v : Bool) : (setSelect ch v s).dev = s.dev := by cases ch <;> rfl
@[simp] theorem setSelect_draws (ch : Channel) (v : Bool) : (setSelect ch v s).draws = s.draws := by cases ch <;> rfl
@[simp] theorem setSelect_inputs (ch : Channel) (v : Bool) : (setSelect ch v s).inputs = s.inputs := by cases ch <;> rfl
@[simp] theorem setSelect_hostLog (ch : Channel) (v : Bool) : (setSelect ch v s).hostLog = s.hostLog := by cases ch <;> rfl

/-! ### `sampleReady`: what it leaves -/

@[simp] theorem sampleReady_cfg : (sampleReady s).cfg = s.cfg := by unfold sampleReady; split <;> rfl
@[simp] theorem sampleReady_cmd : (sampleReady s).cmd = s.cmd := by unfold sampleReady; split <;> rfl
@[simp] theorem sampleReady_arg0 : (sampleReady s).arg0 = s.arg0 := by unfold sampleReady; split <;> rfl
@[simp] theorem sampleReady_arg1 : (sampleReady s).arg1 = s.arg1 := by unfold sampleReady; split <;> rfl
@[simp] theorem sampleReady_fsm : (sampleReady s).fsm = s.fsm := by unfold sampleReady; split <;> rfl
@[simp] theorem sampleReady_busy : (sampleReady s).busy = s.busy := by unfold sampleReady; split <;> rfl
@[simp] theorem sampleReady_tmo : (sampleReady s).tmo = s.tmo := by unfold sampleReady; split <;> rfl
@[simp] theorem sampleReady_ovr : (sampleReady s).ovr = s.ovr := by unfold sampleReady; split <;> rfl
@[simp] theorem sampleReady_hdr : (sampleReady s).hdr = s.hdr := by unfold sampleReady; split <;> rfl
@[simp] theorem sampleReady_initFlag : (sampleReady s).initFlag = s.initFlag := by unfold sampleReady; split <;> rfl
@[simp] theorem sampleReady_code : (sampleReady s).code = s.code := by unfold sampleReady; split <;> rfl
@[simp] theorem sampleReady_berr : (sampleReady s).berr = s.berr := by unfold sampleReady; split <;> rfl
@[simp] theorem sampleReady_result : (sampleReady s).result = s.result := by unfold sampleReady; split <;> rfl
@[simp] theorem sampleReady_tmoCount : (sampleReady s).tmoCount = s.tmoCount := by unfold sampleReady; split <;> rfl
@[simp] theorem sampleReady_buf : (sampleReady s).buf = s.buf := by unfold sampleReady; split <;> rfl
@[simp] theorem sampleReady_resetN : (sampleReady s).resetN = s.resetN := by unfold sampleReady; split <;> rfl
@[simp] theorem sampleReady_csCtrl : (sampleReady s).csCtrl = s.csCtrl := by unfold sampleReady; split <;> rfl
@[simp] theorem sampleReady_csData : (sampleReady s).csData = s.csData := by unfold sampleReady; split <;> rfl
@[simp] theorem sampleReady_hdrbuf : (sampleReady s).hdrbuf = s.hdrbuf := by unfold sampleReady; split <;> rfl
@[simp] theorem sampleReady_cur : (sampleReady s).cur = s.cur := by unfold sampleReady; split <;> rfl
@[simp] theorem sampleReady_call : (sampleReady s).call = s.call := by unfold sampleReady; split <;> rfl
@[simp] theorem sampleReady_ret : (sampleReady s).ret = s.ret := by unfold sampleReady; split <;> rfl
@[simp] theorem sampleReady_inputs : (sampleReady s).inputs = s.inputs := by unfold sampleReady; split <;> rfl
@[simp] theorem sampleReady_hostLog : (sampleReady s).hostLog = s.hostLog := by unfold sampleReady; split <;> rfl
@[simp] theorem sampleReady_trace : (sampleReady s).trace = s.trace ++ [.ready (sampleAnswer s)] := by
  unfold sampleReady sampleAnswer; split <;> rfl

/-! ### `configure`: what it leaves -/

@[simp] theorem configure_cfg (ch : Channel) : (configure ch s).cfg = s.cfg := by unfold configure; split <;> rfl
@[simp] theorem configure_cmd (ch : Channel) : (configure ch s).cmd = s.cmd := by unfold configure; split <;> rfl
@[simp] theorem configure_arg0 (ch : Channel) : (configure ch s).arg0 = s.arg0 := by unfold configure; split <;> rfl
@[simp] theorem configure_arg1 (ch : Channel) : (configure ch s).arg1 = s.arg1 := by unfold configure; split <;> rfl
@[simp] theorem configure_fsm (ch : Channel) : (configure ch s).fsm = s.fsm := by unfold configure; split <;> rfl
@[simp] theorem configure_busy (ch : Channel) : (configure ch s).busy = s.busy := by unfold configure; split <;> rfl
@[simp] theorem configure_tmo (ch : Channel) : (configure ch s).tmo = s.tmo := by unfold configure; split <;> rfl
@[simp] theorem configure_ovr (ch : Channel) : (configure ch s).ovr = s.ovr := by unfold configure; split <;> rfl
@[simp] theorem configure_hdr (ch : Channel) : (configure ch s).hdr = s.hdr := by unfold configure; split <;> rfl
@[simp] theorem configure_initFlag (ch : Channel) : (configure ch s).initFlag = s.initFlag := by unfold configure; split <;> rfl
@[simp] theorem configure_code (ch : Channel) : (configure ch s).code = s.code := by unfold configure; split <;> rfl
@[simp] theorem configure_result (ch : Channel) : (configure ch s).result = s.result := by unfold configure; split <;> rfl
@[simp] theorem configure_tmoCount (ch : Channel) : (configure ch s).tmoCount = s.tmoCount := by unfold configure; split <;> rfl
@[simp] theorem configure_buf (ch : Channel) : (configure ch s).buf = s.buf := by unfold configure; split <;> rfl
@[simp] theorem configure_resetN (ch : Channel) : (configure ch s).resetN = s.resetN := by unfold configure; split <;> rfl
@[simp] theorem configure_csCtrl (ch : Channel) : (configure ch s).csCtrl = s.csCtrl := by unfold configure; split <;> rfl
@[simp] theorem configure_csData (ch : Channel) : (configure ch s).csData = s.csData := by unfold configure; split <;> rfl
@[simp] theorem configure_hdrbuf (ch : Channel) : (configure ch s).hdrbuf = s.hdrbuf := by unfold configure; split <;> rfl
@[simp] theorem configure_cur (ch : Channel) : (configure ch s).cur = s.cur := by unfold configure; split <;> rfl
@[simp] theorem configure_call (ch : Channel) : (configure ch s).call = s.call := by unfold configure; split <;> rfl
@[simp] theorem configure_ret (ch : Channel) : (configure ch s).ret = s.ret := by unfold configure; split <;> rfl
@[simp] theorem configure_inputs (ch : Channel) : (configure ch s).inputs = s.inputs := by unfold configure; split <;> rfl
@[simp] theorem configure_hostLog (ch : Channel) : (configure ch s).hostLog = s.hostLog := by unfold configure; split <;> rfl
@[simp] theorem configure_trace (ch : Channel) : (configure ch s).trace = s.trace ++ [.configure ch (configAnswer s)] := by
  unfold configure configAnswer; split <;> rfl
@[simp] theorem configure_berr (ch : Channel) : (configure ch s).berr = (s.berr || !configAnswer s) := by
  unfold configure configAnswer; split <;> rfl

/-! ### `xfer`: what it leaves -/

@[simp] theorem xfer_cfg (t : Transaction) : (xfer t s).cfg = s.cfg := by unfold xfer; simp
@[simp] theorem xfer_cmd (t : Transaction) : (xfer t s).cmd = s.cmd := by unfold xfer; simp
@[simp] theorem xfer_arg0 (t : Transaction) : (xfer t s).arg0 = s.arg0 := by unfold xfer; simp
@[simp] theorem xfer_arg1 (t : Transaction) : (xfer t s).arg1 = s.arg1 := by unfold xfer; simp
@[simp] theorem xfer_fsm (t : Transaction) : (xfer t s).fsm = s.fsm := by unfold xfer; simp
@[simp] theorem xfer_busy (t : Transaction) : (xfer t s).busy = s.busy := by unfold xfer; simp
@[simp] theorem xfer_tmo (t : Transaction) : (xfer t s).tmo = s.tmo := by unfold xfer; simp
@[simp] theorem xfer_ovr (t : Transaction) : (xfer t s).ovr = s.ovr := by unfold xfer; simp
@[simp] theorem xfer_hdr (t : Transaction) : (xfer t s).hdr = s.hdr := by unfold xfer; simp
@[simp] theorem xfer_initFlag (t : Transaction) : (xfer t s).initFlag = s.initFlag := by unfold xfer; simp
@[simp] theorem xfer_code (t : Transaction) : (xfer t s).code = s.code := by unfold xfer; simp
@[simp] theorem xfer_result (t : Transaction) : (xfer t s).result = s.result := by unfold xfer; simp
@[simp] theorem xfer_tmoCount (t : Transaction) : (xfer t s).tmoCount = s.tmoCount := by unfold xfer; simp
@[simp] theorem xfer_buf (t : Transaction) : (xfer t s).buf = s.buf := by unfold xfer; simp
@[simp] theorem xfer_resetN (t : Transaction) : (xfer t s).resetN = s.resetN := by unfold xfer; simp
@[simp] theorem xfer_hdrbuf (t : Transaction) : (xfer t s).hdrbuf = s.hdrbuf := by unfold xfer; simp
@[simp] theorem xfer_cur (t : Transaction) : (xfer t s).cur = s.cur := by unfold xfer; simp
@[simp] theorem xfer_call (t : Transaction) : (xfer t s).call = s.call := by unfold xfer; simp
@[simp] theorem xfer_ret (t : Transaction) : (xfer t s).ret = s.ret := by unfold xfer; simp
@[simp] theorem xfer_inputs (t : Transaction) : (xfer t s).inputs = s.inputs := by unfold xfer; simp
@[simp] theorem xfer_hostLog (t : Transaction) : (xfer t s).hostLog = s.hostLog := by unfold xfer; simp
@[simp] theorem xfer_dev (t : Transaction) : (xfer t s).dev = { s.dev with xfers := s.dev.xfers.tail } := by unfold xfer; simp
@[simp] theorem xfer_draws (t : Transaction) : (xfer t s).draws = s.draws + xferDraws t.bytes.length s := by unfold xfer; simp
@[simp] theorem xfer_trace (t : Transaction) : (xfer t s).trace = s.trace ++ [.xfer t.ch t.bytes (xferAnswer t.bytes.length s)] := by unfold xfer; simp
@[simp] theorem xfer_berr (t : Transaction) : (xfer t s).berr = (s.berr || decide (xferAnswer t.bytes.length s = .busErr)) := by unfold xfer; simp

/-! ### `afterWait`: what it leaves -/

@[simp] theorem afterWait_cfg (w : Ret) (t : Option Transaction) : (afterWait w t s).cfg = s.cfg := by cases t <;> rfl
@[simp] theorem afterWait_cmd (w : Ret) (t : Option Transaction) : (afterWait w t s).cmd = s.cmd := by cases t <;> rfl
@[simp] theorem afterWait_arg0 (w : Ret) (t : Option Transaction) : (afterWait w t s).arg0 = s.arg0 := by cases t <;> rfl
@[simp] theorem afterWait_arg1 (w : Ret) (t : Option Transaction) : (afterWait w t s).arg1 = s.arg1 := by cases t <;> rfl
@[simp] theorem afterWait_fsm (w : Ret) (t : Option Transaction) : (afterWait w t s).fsm = s.fsm := by cases t <;> rfl
@[simp] theorem afterWait_busy (w : Ret) (t : Option Transaction) : (afterWait w t s).busy = s.busy := by cases t <;> rfl
@[simp] theorem afterWait_tmo (w : Ret) (t : Option Transaction) : (afterWait w t s).tmo = s.tmo := by cases t <;> rfl
@[simp] theorem afterWait_ovr (w : Ret) (t : Option Transaction) : (afterWait w t s).ovr = s.ovr := by cases t <;> rfl
@[simp] theorem afterWait_hdr (w : Ret) (t : Option Transaction) : (afterWait w t s).hdr = s.hdr := by cases t <;> rfl
@[simp] theorem afterWait_initFlag (w : Ret) (t : Option Transaction) : (afterWait w t s).initFlag = s.initFlag := by cases t <;> rfl
@[simp] theorem afterWait_code (w : Ret) (t : Option Transaction) : (afterWait w t s).code = s.code := by cases t <;> rfl
@[simp] theorem afterWait_berr (w : Ret) (t : Option Transaction) : (afterWait w t s).berr = s.berr := by cases t <;> rfl
@[simp] theorem afterWait_result (w : Ret) (t : Option Transaction) : (afterWait w t s).result = s.result := by cases t <;> rfl
@[simp] theorem afterWait_tmoCount (w : Ret) (t : Option Transaction) : (afterWait w t s).tmoCount = s.tmoCount := by cases t <;> rfl
@[simp] theorem afterWait_buf (w : Ret) (t : Option Transaction) : (afterWait w t s).buf = s.buf := by cases t <;> rfl
@[simp] theorem afterWait_resetN (w : Ret) (t : Option Transaction) : (afterWait w t s).resetN = s.resetN := by cases t <;> rfl
@[simp] theorem afterWait_csCtrl (w : Ret) (t : Option Transaction) : (afterWait w t s).csCtrl = s.csCtrl := by cases t <;> rfl
@[simp] theorem afterWait_csData (w : Ret) (t : Option Transaction) : (afterWait w t s).csData = s.csData := by cases t <;> rfl
@[simp] theorem afterWait_hdrbuf (w : Ret) (t : Option Transaction) : (afterWait w t s).hdrbuf = s.hdrbuf := by cases t <;> rfl
@[simp] theorem afterWait_cur (w : Ret) (t : Option Transaction) : (afterWait w t s).cur = s.cur := by cases t <;> rfl
@[simp] theorem afterWait_trace (w : Ret) (t : Option Transaction) : (afterWait w t s).trace = s.trace := by cases t <;> rfl
@[simp] theorem afterWait_dev (w : Ret) (t : Option Transaction) : (afterWait w t s).dev = s.dev := by cases t <;> rfl
@[simp] theorem afterWait_draws (w : Ret) (t : Option Transaction) : (afterWait w t s).draws = s.draws := by cases t <;> rfl
@[simp] theorem afterWait_inputs (w : Ret) (t : Option Transaction) : (afterWait w t s).inputs = s.inputs := by cases t <;> rfl
@[simp] theorem afterWait_hostLog (w : Ret) (t : Option Transaction) : (afterWait w t s).hostLog = s.hostLog := by cases t <;> rfl

/-! ### `finishFsm`: what it leaves -/

@[simp] theorem finishFsm_cfg (op : Opcode) (c : ResultCode) : (finishFsm op c s).cfg = s.cfg := by cases op <;> cases c <;> rfl
@[simp] theorem finishFsm_cmd (op : Opcode) (c : ResultCode) : (finishFsm op c s).cmd = s.cmd := by cases op <;> cases c <;> rfl
@[simp] theorem finishFsm_arg0 (op : Opcode) (c : ResultCode) : (finishFsm op c s).arg0 = s.arg0 := by cases op <;> cases c <;> rfl
@[simp] theorem finishFsm_arg1 (op : Opcode) (c : ResultCode) : (finishFsm op c s).arg1 = s.arg1 := by cases op <;> cases c <;> rfl
@[simp] theorem finishFsm_busy (op : Opcode) (c : ResultCode) : (finishFsm op c s).busy = s.busy := by cases op <;> cases c <;> rfl
@[simp] theorem finishFsm_tmo (op : Opcode) (c : ResultCode) : (finishFsm op c s).tmo = s.tmo := by cases op <;> cases c <;> rfl
@[simp] theorem finishFsm_ovr (op : Opcode) (c : ResultCode) : (finishFsm op c s).ovr = s.ovr := by cases op <;> cases c <;> rfl
@[simp] theorem finishFsm_code (op : Opcode) (c : ResultCode) : (finishFsm op c s).code = s.code := by cases op <;> cases c <;> rfl
@[simp] theorem finishFsm_berr (op : Opcode) (c : ResultCode) : (finishFsm op c s).berr = s.berr := by cases op <;> cases c <;> rfl
@[simp] theorem finishFsm_result (op : Opcode) (c : ResultCode) : (finishFsm op c s).result = s.result := by cases op <;> cases c <;> rfl
@[simp] theorem finishFsm_tmoCount (op : Opcode) (c : ResultCode) : (finishFsm op c s).tmoCount = s.tmoCount := by cases op <;> cases c <;> rfl
@[simp] theorem finishFsm_buf (op : Opcode) (c : ResultCode) : (finishFsm op c s).buf = s.buf := by cases op <;> cases c <;> rfl
@[simp] theorem finishFsm_resetN (op : Opcode) (c : ResultCode) : (finishFsm op c s).resetN = s.resetN := by cases op <;> cases c <;> rfl
@[simp] theorem finishFsm_csCtrl (op : Opcode) (c : ResultCode) : (finishFsm op c s).csCtrl = s.csCtrl := by cases op <;> cases c <;> rfl
@[simp] theorem finishFsm_csData (op : Opcode) (c : ResultCode) : (finishFsm op c s).csData = s.csData := by cases op <;> cases c <;> rfl
@[simp] theorem finishFsm_hdrbuf (op : Opcode) (c : ResultCode) : (finishFsm op c s).hdrbuf = s.hdrbuf := by cases op <;> cases c <;> rfl
@[simp] theorem finishFsm_cur (op : Opcode) (c : ResultCode) : (finishFsm op c s).cur = s.cur := by cases op <;> cases c <;> rfl
@[simp] theorem finishFsm_call (op : Opcode) (c : ResultCode) : (finishFsm op c s).call = s.call := by cases op <;> cases c <;> rfl
@[simp] theorem finishFsm_ret (op : Opcode) (c : ResultCode) : (finishFsm op c s).ret = s.ret := by cases op <;> cases c <;> rfl
@[simp] theorem finishFsm_trace (op : Opcode) (c : ResultCode) : (finishFsm op c s).trace = s.trace := by cases op <;> cases c <;> rfl
@[simp] theorem finishFsm_dev (op : Opcode) (c : ResultCode) : (finishFsm op c s).dev = s.dev := by cases op <;> cases c <;> rfl
@[simp] theorem finishFsm_draws (op : Opcode) (c : ResultCode) : (finishFsm op c s).draws = s.draws := by cases op <;> cases c <;> rfl
@[simp] theorem finishFsm_inputs (op : Opcode) (c : ResultCode) : (finishFsm op c s).inputs = s.inputs := by cases op <;> cases c <;> rfl
@[simp] theorem finishFsm_hostLog (op : Opcode) (c : ResultCode) : (finishFsm op c s).hostLog = s.hostLog := by cases op <;> cases c <;> rfl

/-! ### `storeAnswer`: what it leaves -/

@[simp] theorem storeAnswer_cfg (j : Job) (rx : List Byte) : (storeAnswer j rx s).cfg = s.cfg := by cases j <;> rfl
@[simp] theorem storeAnswer_cmd (j : Job) (rx : List Byte) : (storeAnswer j rx s).cmd = s.cmd := by cases j <;> rfl
@[simp] theorem storeAnswer_arg0 (j : Job) (rx : List Byte) : (storeAnswer j rx s).arg0 = s.arg0 := by cases j <;> rfl
@[simp] theorem storeAnswer_arg1 (j : Job) (rx : List Byte) : (storeAnswer j rx s).arg1 = s.arg1 := by cases j <;> rfl
@[simp] theorem storeAnswer_fsm (j : Job) (rx : List Byte) : (storeAnswer j rx s).fsm = s.fsm := by cases j <;> rfl
@[simp] theorem storeAnswer_busy (j : Job) (rx : List Byte) : (storeAnswer j rx s).busy = s.busy := by cases j <;> rfl
@[simp] theorem storeAnswer_tmo (j : Job) (rx : List Byte) : (storeAnswer j rx s).tmo = s.tmo := by cases j <;> rfl
@[simp] theorem storeAnswer_ovr (j : Job) (rx : List Byte) : (storeAnswer j rx s).ovr = s.ovr := by cases j <;> rfl
@[simp] theorem storeAnswer_hdr (j : Job) (rx : List Byte) : (storeAnswer j rx s).hdr = s.hdr := by cases j <;> rfl
@[simp] theorem storeAnswer_initFlag (j : Job) (rx : List Byte) : (storeAnswer j rx s).initFlag = s.initFlag := by cases j <;> rfl
@[simp] theorem storeAnswer_code (j : Job) (rx : List Byte) : (storeAnswer j rx s).code = s.code := by cases j <;> rfl
@[simp] theorem storeAnswer_berr (j : Job) (rx : List Byte) : (storeAnswer j rx s).berr = s.berr := by cases j <;> rfl
@[simp] theorem storeAnswer_result (j : Job) (rx : List Byte) : (storeAnswer j rx s).result = s.result := by cases j <;> rfl
@[simp] theorem storeAnswer_tmoCount (j : Job) (rx : List Byte) : (storeAnswer j rx s).tmoCount = s.tmoCount := by cases j <;> rfl
@[simp] theorem storeAnswer_resetN (j : Job) (rx : List Byte) : (storeAnswer j rx s).resetN = s.resetN := by cases j <;> rfl
@[simp] theorem storeAnswer_csCtrl (j : Job) (rx : List Byte) : (storeAnswer j rx s).csCtrl = s.csCtrl := by cases j <;> rfl
@[simp] theorem storeAnswer_csData (j : Job) (rx : List Byte) : (storeAnswer j rx s).csData = s.csData := by cases j <;> rfl
@[simp] theorem storeAnswer_hdrbuf (j : Job) (rx : List Byte) : (storeAnswer j rx s).hdrbuf = s.hdrbuf := by cases j <;> rfl
@[simp] theorem storeAnswer_cur (j : Job) (rx : List Byte) : (storeAnswer j rx s).cur = s.cur := by cases j <;> rfl
@[simp] theorem storeAnswer_call (j : Job) (rx : List Byte) : (storeAnswer j rx s).call = s.call := by cases j <;> rfl
@[simp] theorem storeAnswer_ret (j : Job) (rx : List Byte) : (storeAnswer j rx s).ret = s.ret := by cases j <;> rfl
@[simp] theorem storeAnswer_trace (j : Job) (rx : List Byte) : (storeAnswer j rx s).trace = s.trace := by cases j <;> rfl
@[simp] theorem storeAnswer_dev (j : Job) (rx : List Byte) : (storeAnswer j rx s).dev = s.dev := by cases j <;> rfl
@[simp] theorem storeAnswer_draws (j : Job) (rx : List Byte) : (storeAnswer j rx s).draws = s.draws := by cases j <;> rfl
@[simp] theorem storeAnswer_hostLog (j : Job) (rx : List Byte) : (storeAnswer j rx s).hostLog = s.hostLog := by cases j <;> rfl

/-! ### `load`: what it leaves -/

@[simp] theorem Job.load_cfg (j : Job) : (j.load s).cfg = s.cfg := by cases j <;> rfl
@[simp] theorem Job.load_cmd (j : Job) : (j.load s).cmd = s.cmd := by cases j <;> rfl
@[simp] theorem Job.load_arg0 (j : Job) : (j.load s).arg0 = s.arg0 := by cases j <;> rfl
@[simp] theorem Job.load_arg1 (j : Job) : (j.load s).arg1 = s.arg1 := by cases j <;> rfl
@[simp] theorem Job.load_fsm (j : Job) : (j.load s).fsm = s.fsm := by cases j <;> rfl
@[simp] theorem Job.load_busy (j : Job) : (j.load s).busy = s.busy := by cases j <;> rfl
@[simp] theorem Job.load_tmo (j : Job) : (j.load s).tmo = s.tmo := by cases j <;> rfl
@[simp] theorem Job.load_ovr (j : Job) : (j.load s).ovr = s.ovr := by cases j <;> rfl
@[simp] theorem Job.load_hdr (j : Job) : (j.load s).hdr = s.hdr := by cases j <;> rfl
@[simp] theorem Job.load_initFlag (j : Job) : (j.load s).initFlag = s.initFlag := by cases j <;> rfl
@[simp] theorem Job.load_code (j : Job) : (j.load s).code = s.code := by cases j <;> rfl
@[simp] theorem Job.load_berr (j : Job) : (j.load s).berr = s.berr := by cases j <;> rfl
@[simp] theorem Job.load_result (j : Job) : (j.load s).result = s.result := by cases j <;> rfl
@[simp] theorem Job.load_tmoCount (j : Job) : (j.load s).tmoCount = s.tmoCount := by cases j <;> rfl
@[simp] theorem Job.load_buf (j : Job) : (j.load s).buf = s.buf := by cases j <;> rfl
@[simp] theorem Job.load_resetN (j : Job) : (j.load s).resetN = s.resetN := by cases j <;> rfl
@[simp] theorem Job.load_csCtrl (j : Job) : (j.load s).csCtrl = s.csCtrl := by cases j <;> rfl
@[simp] theorem Job.load_csData (j : Job) : (j.load s).csData = s.csData := by cases j <;> rfl
@[simp] theorem Job.load_hdrbuf (j : Job) : (j.load s).hdrbuf = s.hdrbuf := by cases j <;> rfl
@[simp] theorem Job.load_cur (j : Job) : (j.load s).cur = s.cur := by cases j <;> rfl
@[simp] theorem Job.load_call (j : Job) : (j.load s).call = s.call := by cases j <;> rfl
@[simp] theorem Job.load_ret (j : Job) : (j.load s).ret = s.ret := by cases j <;> rfl
@[simp] theorem Job.load_trace (j : Job) : (j.load s).trace = s.trace := by cases j <;> rfl
@[simp] theorem Job.load_dev (j : Job) : (j.load s).dev = s.dev := by cases j <;> rfl
@[simp] theorem Job.load_inputs (j : Job) : (j.load s).inputs = s.inputs := by cases j <;> rfl
@[simp] theorem Job.load_hostLog (j : Job) : (j.load s).hostLog = s.hostLog := by cases j <;> rfl

end Sys2Proof.Machine
end

