-- ==== Sys2Proof/Laws/Ops.lean ====
section
/-! SUPPORT. What each shared operation does: the host's turn, the procedures of file 41, and their run with no host
access in between, equal to the pseudocode of Machine/Reference.lean. -/

namespace Sys2Proof.Machine

/-! ### The host's turn -/

theorem quietInputs_tick {l : List (Nat × Input)} (h : quietInputs l = true) : tickInputs l = l := by
  cases l with
  | nil => rfl
  | cons a l => obtain ⟨w, i⟩ := a; simp only [tickInputs, if_pos h]

theorem quietInputs_due {l : List (Nat × Input)} (h : quietInputs l = true) : dueInputs l = false := by
  cases l with
  | nil => rfl
  | cons a l => obtain ⟨w, i⟩ := a; simp [dueInputs, h]

/-- With no access to land before completion, an action leaves the inputs. -/
theorem tick_of_quiet {s : State} (h : s.quiet = true) : tick s = s := by
  simp only [tick, quietInputs_tick h]

/-- A mode bit is at its index and nowhere else (spec/00_scope.md R8). -/
theorem modeBit_getLsbD : ∀ i b : Fin 16, (modeBit i).getLsbD b = decide (b = i) := by decide

/-- The bits of the three mode words (R8). -/
theorem modeWord_bits (p : Params) (b : Fin 16) :
    (modeRecord p).getLsbD b = decide (b = p.bitNewmode ∨ b = p.bitAdpcm ∨ b = p.bitLineIn)
      ∧ (modeDecode p).getLsbD b = decide (b = p.bitNewmode)
      ∧ (modeSoftReset p).getLsbD b = decide (b = p.bitNewmode ∨ b = p.bitSoftReset) := by
  simp only [modeRecord, modeDecode, modeSoftReset, BitVec.getLsbD_or, modeBit_getLsbD, Bool.decide_or, Bool.or_assoc,
    and_self]

/-- With no host access to land, READ_BLOCK's stores are the stores alone. -/
theorem storeAnswer_word (k : Nat) (rx : List Byte) {s : State} (h : s.quiet = true) :
    storeAnswer (.word k) rx s = storeWord k (readValue rx) s :=
  tick_of_quiet (s := storeWord k (readValue rx) s) h

theorem not_due_of_quiet {s : State} (h : s.quiet = true) : s.due = false := quietInputs_due h

/-! ### The position of a command apart from the rest of the state -/

/-- A state with the three parts of `st.cur` set. -/
def State.at' (u : State) (c : Option Cursor) (k : Option Call) (r : Option Ret) : State :=
  { u with cur := c, call := k, ret := r }

section
variable (u : State) (c : Option Cursor) (k : Option Call) (r : Option Ret)

theorem State.at'_self (s : State) : s.at' s.cur s.call s.ret = s := rfl
@[simp] theorem at'_at' (c' : Option Cursor) (k' : Option Call) (r' : Option Ret) :
    (u.at' c k r).at' c' k' r' = u.at' c' k' r' := rfl
@[simp] theorem at'_cfg : (u.at' c k r).cfg = u.cfg := rfl
@[simp] theorem at'_inputs : (u.at' c k r).inputs = u.inputs := rfl
@[simp] theorem at'_cur : (u.at' c k r).cur = c := rfl
@[simp] theorem at'_call : (u.at' c k r).call = k := rfl
@[simp] theorem at'_ret : (u.at' c k r).ret = r := rfl
@[simp] theorem at'_quiet : (u.at' c k r).quiet = u.quiet := rfl
@[simp] theorem sampleAnswer_at' : sampleAnswer (u.at' c k r) = sampleAnswer u := rfl
@[simp] theorem configAnswer_at' : configAnswer (u.at' c k r) = configAnswer u := rfl
@[simp] theorem xferAnswer_at' (n : Nat) : xferAnswer n (u.at' c k r) = xferAnswer n u := rfl
@[simp] theorem sampleReady_at' : sampleReady (u.at' c k r) = (sampleReady u).at' c k r := by
  simp only [sampleReady, State.at']; split <;> rfl
@[simp] theorem configure_at' (ch : Channel) : configure ch (u.at' c k r) = (configure ch u).at' c k r := by
  simp only [configure, State.at']; split <;> rfl
@[simp] theorem delayFor_at' (t : Nat) : delayFor t (u.at' c k r) = (delayFor t u).at' c k r := rfl
@[simp] theorem setResetN_at' (v : Bool) : setResetN v (u.at' c k r) = (setResetN v u).at' c k r := rfl
@[simp] theorem timeoutFlags_at' : timeoutFlags (u.at' c k r) = (timeoutFlags u).at' c k r := rfl
@[simp] theorem emit_at' (e : Event) : (u.at' c k r).emit e = (u.emit e).at' c k r := rfl
@[simp] theorem setSelect_at' (ch : Channel) (v : Bool) :
    setSelect ch v (u.at' c k r) = (setSelect ch v u).at' c k r := by cases ch <;> rfl
@[simp] theorem xfer_at' (t : Transaction) : xfer t (u.at' c k r) = (xfer t u).at' c k r := by
  obtain ⟨ch, b⟩ := t; cases ch <;> rfl
@[simp] theorem storeAnswer_at' (j : Job) (rx : List Byte) :
    storeAnswer j rx (u.at' c k r) = (storeAnswer j rx u).at' c k r := by cases j <;> rfl
@[simp] theorem load_at' (j : Job) : j.load (u.at' c k r) = (j.load u).at' c k r := by
  cases j with
  | chunk src off n => cases src <;> rfl
  | _ => rfl
@[simp] theorem complete_at' (code : ResultCode) (res : Word) : complete code res (u.at' c k r) = complete code res u :=
  rfl
@[simp] theorem finishFsm_at' (op : Opcode) (code : ResultCode) :
    finishFsm op code (u.at' c k r) = (finishFsm op code u).at' c k r := by cases op <;> cases code <;> rfl
@[simp] theorem finish_at' (op : Opcode) (code : ResultCode) (res : Word) :
    finish op code res (u.at' c k r) = finish op code res u := by simp [finish]
@[simp] theorem setBody_at' (op : Opcode) (body : List Stmt) :
    setBody op body (u.at' c k r) = u.at' (some { op := op, body := body }) k none := rfl
@[simp] theorem beginCall_at' (t : Option Transaction) :
    beginCall t (u.at' c k r) = u.at' c (some (.sample u.cfg.readyPolls t)) none := rfl
@[simp] theorem chunkBytes_at' (src : Source) (off n : Nat) :
    chunkBytes src off n (u.at' c k r) = chunkBytes src off n u := by cases src <;> rfl
@[simp] theorem instr_at' (j : Job) : j.instr (u.at' c k r) = j.instr u := by cases j <;> simp [Job.instr]

@[simp] theorem waitReadyRef_at' (n : Nat) : waitReadyRef n (u.at' c k r) = (waitReadyRef n u).at' c k r := by
  induction n generalizing u with
  | zero => rfl
  | succ n ih => simp only [waitReadyRef, sampleAnswer_at', sampleReady_at', at'_cfg, delayFor_at', ih]; split <;> rfl
@[simp] theorem frameRef_at' (t : Transaction) : frameRef t (u.at' c k r) = (frameRef t u).at' c k r := by
  simp [frameRef]
@[simp] theorem frameAnswerRef_at' (t : Transaction) : frameAnswerRef t (u.at' c k r) = frameAnswerRef t u := by
  simp [frameAnswerRef]
end

/-! ### WaitReady and the frames leave everything but the trace, the flags and the device -/

theorem waitReadyRef_ind {P : State → Prop} (hs : ∀ s, P s → P (sampleReady s)) (hd : ∀ s t, P s → P (delayFor t s))
    (ht : ∀ s, P s → P ((timeoutFlags s).emit .timeout)) (n : Nat) {s : State} (h : P s) : P (waitReadyRef n s) := by
  induction n generalizing s with
  | zero => exact ht s h
  | succ n ih => simp only [waitReadyRef]; split; exacts [hs s h, ih (hd _ _ (hs s h))]

/-- A field that no primitive of a wait writes. -/
theorem waitReadyRef_field {α : Type} (f : State → α) (hs : ∀ s, f (sampleReady s) = f s)
    (hd : ∀ s t, f (delayFor t s) = f s) (ht : ∀ s, f ((timeoutFlags s).emit .timeout) = f s) (n : Nat) (s : State) :
    f (waitReadyRef n s) = f s :=
  waitReadyRef_ind (P := fun u => f u = f s) (fun u h => (hs u).trans h) (fun u t h => (hd u t).trans h)
    (fun u h => (ht u).trans h) n rfl

section
variable (n : Nat) (s : State)
@[simp] theorem waitReadyRef_cfg : (waitReadyRef n s).cfg = s.cfg := by
  apply waitReadyRef_field State.cfg <;> simp
@[simp] theorem waitReadyRef_cmd : (waitReadyRef n s).cmd = s.cmd := by
  apply waitReadyRef_field State.cmd <;> simp
@[simp] theorem waitReadyRef_arg0 : (waitReadyRef n s).arg0 = s.arg0 := by
  apply waitReadyRef_field State.arg0 <;> simp
@[simp] theorem waitReadyRef_arg1 : (waitReadyRef n s).arg1 = s.arg1 := by
  apply waitReadyRef_field State.arg1 <;> simp
@[simp] theorem waitReadyRef_fsm : (waitReadyRef n s).fsm = s.fsm := by
  apply waitReadyRef_field State.fsm <;> simp
@[simp] theorem waitReadyRef_busy : (waitReadyRef n s).busy = s.busy := by
  apply waitReadyRef_field State.busy <;> simp
@[simp] theorem waitReadyRef_ovr : (waitReadyRef n s).ovr = s.ovr := by
  apply waitReadyRef_field State.ovr <;> simp
@[simp] theorem waitReadyRef_hdr : (waitReadyRef n s).hdr = s.hdr := by
  apply waitReadyRef_field State.hdr <;> simp
@[simp] theorem waitReadyRef_initFlag : (waitReadyRef n s).initFlag = s.initFlag := by
  apply waitReadyRef_field State.initFlag <;> simp
@[simp] theorem waitReadyRef_code : (waitReadyRef n s).code = s.code := by
  apply waitReadyRef_field State.code <;> simp
@[simp] theorem waitReadyRef_berr : (waitReadyRef n s).berr = s.berr := by
  apply waitReadyRef_field State.berr <;> simp
@[simp] theorem waitReadyRef_result : (waitReadyRef n s).result = s.result := by
  apply waitReadyRef_field State.result <;> simp
@[simp] theorem waitReadyRef_buf : (waitReadyRef n s).buf = s.buf := by
  apply waitReadyRef_field State.buf <;> simp
@[simp] theorem waitReadyRef_resetN : (waitReadyRef n s).resetN = s.resetN := by
  apply waitReadyRef_field State.resetN <;> simp
@[simp] theorem waitReadyRef_csCtrl : (waitReadyRef n s).csCtrl = s.csCtrl := by
  apply waitReadyRef_field State.csCtrl <;> simp
@[simp] theorem waitReadyRef_csData : (waitReadyRef n s).csData = s.csData := by
  apply waitReadyRef_field State.csData <;> simp
@[simp] theorem waitReadyRef_hdrbuf : (waitReadyRef n s).hdrbuf = s.hdrbuf := by
  apply waitReadyRef_field State.hdrbuf <;> simp
@[simp] theorem waitReadyRef_cur : (waitReadyRef n s).cur = s.cur := by
  apply waitReadyRef_field State.cur <;> simp
@[simp] theorem waitReadyRef_call : (waitReadyRef n s).call = s.call := by
  apply waitReadyRef_field State.call <;> simp
@[simp] theorem waitReadyRef_ret : (waitReadyRef n s).ret = s.ret := by
  apply waitReadyRef_field State.ret <;> simp
@[simp] theorem waitReadyRef_inputs : (waitReadyRef n s).inputs = s.inputs := by
  apply waitReadyRef_field State.inputs <;> simp
@[simp] theorem waitReadyRef_hostLog : (waitReadyRef n s).hostLog = s.hostLog := by
  apply waitReadyRef_field State.hostLog <;> simp
/-- A wait leaves the answers of Xfer to come (it may draw free ones for DREQ). -/
@[simp] theorem waitReadyRef_xfers : (waitReadyRef n s).dev.xfers = s.dev.xfers := by
  apply waitReadyRef_field (fun s => s.dev.xfers)
  · intro s; unfold sampleReady; split <;> rfl
  · simp
  · simp
end

/-- The select line asserted before an Xfer is released by it: the Xfer is the same. -/
theorem xfer_setSelect (t : Transaction) (s : State) : xfer t (setSelect t.ch true s) = xfer t s := by
  obtain ⟨ch, b⟩ := t; cases ch <;> rfl

/-! ### The procedures of file 41 with no host access in between -/

theorem runCall_return (n : Nat) {s : State} (h : s.call = none) : runCall n s = s := by
  cases n <;> simp [runCall, h]

theorem runCall_action {n : Nat} {s : State} {k : Call} (hc : s.call = some k) (hq : s.quiet = true) :
    runCall (n + 1) s = runCall n (tick (callStep k s)) := by
  simp [runCall, hc, not_due_of_quiet hq]

/-- What follows a wait that has returned w. -/
def waitReturn (w : Ret) (t : Option Transaction) (c : Option Cursor) (u : State) : State :=
  match t with
  | none => u.at' c none (some w)
  | some t => (xfer t u).at' c none (some (.reply (xferAnswer t.bytes.length u)))

theorem runCall_after_wait {n : Nat} {u : State} (hq : u.quiet = true) (w : Ret) (t : Option Transaction)
    (c : Option Cursor) (k : Option Call) :
    runCall (n + 2) (afterWait w t (u.at' c k none)) = waitReturn w t c u := by
  cases t with
  | none => exact runCall_return _ rfl
  | some t =>
    have h1 : (u.at' c (some (.select t)) none).quiet = true := hq
    have h2 : ((setSelect t.ch true u).at' c (some (.shift t)) none).quiet = true := by
      simpa [State.quiet] using hq
    have h3 : (waitReturn w (some t) c u).quiet = true := by simpa [waitReturn, State.quiet] using hq
    have e1 : callStep (.select t) (u.at' c (some (.select t)) none)
        = (setSelect t.ch true u).at' c (some (.shift t)) none := by
      simp only [callStep, setSelect_at']; rfl
    have e2 : callStep (.shift t) ((setSelect t.ch true u).at' c (some (.shift t)) none)
        = waitReturn w (some t) c u := by
      simp only [callStep, xfer_at', xferAnswer_at', xfer_setSelect, waitReturn]
      obtain ⟨ch, b⟩ := t
      cases ch <;> rfl
    show runCall (n + 1 + 1) (u.at' c (some (.select t)) none) = _
    rw [runCall_action (k := .select t) rfl h1, e1, tick_of_quiet h2, runCall_action (k := .shift t) rfl h2, e2, tick_of_quiet h3]
    exact runCall_return _ rfl

/-- Whether a wait finds a ready sample. -/
def waitRet : Nat → State → Ret
  | 0, _ => .timeout
  | n + 1, s => if sampleAnswer s then .ready else waitRet n (delayFor s.cfg.pollIntervalTicks (sampleReady s))

/-- The handshake FSM run from SAMPLE is the loop of R161, then what the wait gates. -/
theorem runCall_sample (t : Option Transaction) (c : Option Cursor) (p : Nat) {m : Nat} {u : State}
    (hq : u.quiet = true) (hm : 2 * p + 3 ≤ m) :
    runCall m (u.at' c (some (.sample p t)) none) = waitReturn (waitRet p u) t c (waitReadyRef p u) := by
  induction p generalizing m u with
  | zero =>
    obtain ⟨m, rfl⟩ : ∃ k, m = k + 2 + 1 := ⟨m - 3, by omega⟩
    have hq1 : ((timeoutFlags u).emit .timeout).quiet = true := hq
    have h0 : (u.at' c (some (.sample 0 t)) none).quiet = true := hq
    rw [runCall_action (k := .sample 0 t) rfl h0]
    have e : callStep (.sample 0 t) (u.at' c (some (.sample 0 t)) none)
        = afterWait .timeout t (((timeoutFlags u).emit .timeout).at' c (some (.sample 0 t)) none) := rfl
    have ht : (afterWait .timeout t (((timeoutFlags u).emit .timeout).at' c (some (.sample 0 t)) none)).quiet = true := by
      cases t <;> exact hq1
    rw [e, tick_of_quiet ht, runCall_after_wait hq1]
    rfl
  | succ p ih =>
    obtain ⟨m, rfl⟩ : ∃ k, m = k + 2 + 1 := ⟨m - 3, by omega⟩
    have hq1 : (sampleReady u).quiet = true := by simpa [State.quiet] using hq
    have h0 : (u.at' c (some (.sample (p + 1) t)) none).quiet = true := hq
    rw [runCall_action (k := .sample (p + 1) t) rfl h0]
    simp only [callStep, sampleAnswer_at', sampleReady_at', waitReadyRef, waitRet]
    cases hb : sampleAnswer u with
    | true =>
      have ht : (afterWait .ready t ((sampleReady u).at' c (some (.sample (p + 1) t)) none)).quiet = true := by
        cases t <;> exact hq1
      simp only [if_pos]
      rw [tick_of_quiet ht, runCall_after_wait hq1]
    | false =>
      have hq2 : (delayFor u.cfg.pollIntervalTicks (sampleReady u)).quiet = true := hq1
      simp only [if_neg Bool.false_ne_true]
      have ht : ((sampleReady u).at' c (some (.pollDelay p t)) none).quiet = true := hq1
      show runCall (m + 2) (tick ((sampleReady u).at' c (some (.pollDelay p t)) none)) = _
      rw [tick_of_quiet ht, runCall_action (k := .pollDelay p t) rfl ht]
      have e : callStep (.pollDelay p t) ((sampleReady u).at' c (some (.pollDelay p t)) none)
          = (delayFor u.cfg.pollIntervalTicks (sampleReady u)).at' c (some (.sample p t)) none := by
        simp only [callStep, at'_cfg, sampleReady_cfg]; rfl
      have ht2 : ((delayFor u.cfg.pollIntervalTicks (sampleReady u)).at' c (some (.sample p t)) none).quiet = true := hq2
      rw [e, tick_of_quiet ht2]
      exact ih hq2 (by omega)

/-- A procedure of file 41 called with no host access in between: the wait of R161, then the Xfer it gates. -/
theorem transact_quiet {u : State} (hq : u.quiet = true) (t : Option Transaction) (c : Option Cursor)
    (k : Option Call) (r : Option Ret) :
    transact t (u.at' c k r)
      = waitReturn (waitRet u.cfg.readyPolls u) t c (waitReadyRef u.cfg.readyPolls u) := by
  simp only [transact, beginCall_at']
  exact runCall_sample t c u.cfg.readyPolls hq (Nat.le_refl _)

/-- A frame sent with no host access in between. -/
theorem transact_frame_quiet {u : State} (hq : u.quiet = true) (t : Transaction) (c : Option Cursor) (k : Option Call)
    (r : Option Ret) :
    transact (some t) (u.at' c k r) = (frameRef t u).at' c none (some (.reply (frameAnswerRef t u))) :=
  transact_quiet hq (some t) c k r

/-! ### What a run of a procedure keeps -/

/-- A property that every action of a procedure keeps is kept by its run. -/
theorem runCall_keeps {P : State → Prop} (h : ∀ s k, P s → s.call = some k → P (tick (callStep k s))) (n : Nat)
    {s : State} (hs : P s) : P (runCall n s) := by
  induction n generalizing s with
  | zero => exact hs
  | succ n ih =>
    simp only [runCall]
    split
    · exact hs
    · rename_i k hk; split
      · exact hs
      · exact ih (h s k hs hk)

theorem finishCall_keeps {P : State → Prop} (h : ∀ s k, P s → s.call = some k → P (tick (callStep k s))) {s : State}
    (hs : P s) : P (finishCall s) := by
  unfold finishCall; split
  · exact hs
  · exact runCall_keeps h _ hs

theorem transact_keeps {P : State → Prop} (h : ∀ s k, P s → s.call = some k → P (tick (callStep k s)))
    {t : Option Transaction} {s : State} (hs : P (beginCall t s)) : P (transact t s) := finishCall_keeps h hs

end Sys2Proof.Machine
end

