-- ==== Sys2Proof/Laws/Sequencer.lean ====
section
/-! SUPPORT. What an advance of a Body does, and the run of each statement with no host access in between. -/

namespace Sys2Proof.Machine

/-- The transaction of a job's frame. -/
def Job.transaction (j : Job) (s : State) : Transaction :=
  match j with
  | .write r v => { ch := .ctrl, bytes := writeFrame s.cfg r v }
  | .verify => { ch := .ctrl, bytes := readFrame s.cfg s.cfg.regClock }
  | .read r => { ch := .ctrl, bytes := readFrame s.cfg r }
  | .words _ => { ch := .ctrl, bytes := readFrame s.cfg s.cfg.regRecWords }
  | .word _ => { ch := .ctrl, bytes := readFrame s.cfg s.cfg.regRecData }
  | .chunk src off n => chunkTransaction src off n s

theorem frameOf_instr (j : Job) (s : State) : frameOf s.cfg (j.instr s) = some (j.transaction s) := by
  cases j <;> rfl

@[simp] theorem transaction_at' (j : Job) (u : State) (c : Option Cursor) (k : Option Call) (r : Option Ret) :
    j.transaction (u.at' c k r) = j.transaction u := by
  cases j with
  | chunk src off n => simp only [Job.transaction, chunkTransaction, chunkBytes_at']
  | _ => rfl

/-- A command in progress whose Body goes on with `body`. -/
def State.running (u : State) (op : Opcode) (body : List Stmt) : State :=
  u.at' (some { op := op, body := body }) none none

@[simp] theorem running_at' (u : State) (op : Opcode) (body : List Stmt) (c : Option Cursor) (k : Option Call)
    (r : Option Ret) : (u.at' c k r).running op body = u.running op body := rfl

/-! ### runBody -/

theorem runBody_done (n : Nat) {s : State} (h : s.cur = none) : runBody n s = s := by
  cases n <;> simp [runBody, h]

theorem runBody_advance {n : Nat} {s : State} {c : Cursor} (hc : s.cur = some c) (hq : s.quiet = true) :
    runBody (n + 1) s = runBody n (advance s) := by
  simp [runBody, hc, not_due_of_quiet hq]

theorem runBody_at' (n : Nat) {u : State} (hq : u.quiet = true) (c : Cursor) (k : Option Call) (r : Option Ret) :
    runBody (n + 1) (u.at' (some c) k r) = runBody n (advance (u.at' (some c) k r)) :=
  runBody_advance (c := c) rfl hq

/-- The end of a Body is `complete(OK, 0)`. -/
theorem runBody_end (n : Nat) {u : State} (hq : u.quiet = true) (op : Opcode) :
    runBody (n + 1) (u.running op []) = finish op .ok 0 u := by
  rw [State.running, runBody_at' _ hq]
  show runBody n (finish op .ok 0 (u.at' (some ⟨op, []⟩) none none)) = _
  rw [finish_at']
  exact runBody_done n rfl

theorem runBody_finish (n : Nat) {u : State} (hq : u.quiet = true) (op : Opcode) (code : ResultCode) (res : Word)
    (rest : List Stmt) :
    runBody (n + 1) (u.running op (.finish code res :: rest)) = finish op code res u := by
  rw [State.running, runBody_at' _ hq]
  show runBody n (finish op code res (u.at' (some ⟨op, .finish code res :: rest⟩) none none)) = _
  rw [finish_at']
  exact runBody_done n rfl

theorem runBody_resetN (n : Nat) {u : State} (hq : u.quiet = true) (op : Opcode) (v : Bool) (rest : List Stmt) :
    runBody (n + 1) (u.running op (.resetN v :: rest)) = runBody n ((setResetN v u).running op rest) := by
  rw [State.running, runBody_at' _ hq]
  show runBody n (setBody op rest (tick (setResetN v (u.at' (some ⟨op, .resetN v :: rest⟩) none none)))) = _
  have h : ((setResetN v u).at' (some ⟨op, .resetN v :: rest⟩) none none).quiet = true := hq
  rw [setResetN_at', tick_of_quiet h]; rfl

theorem runBody_delay (n : Nat) {u : State} (hq : u.quiet = true) (op : Opcode) (t : Nat) (rest : List Stmt) :
    runBody (n + 1) (u.running op (.delay t :: rest)) = runBody n ((delayFor t u).running op rest) := by
  rw [State.running, runBody_at' _ hq]
  show runBody n (setBody op rest (tick (delayFor t (u.at' (some ⟨op, .delay t :: rest⟩) none none)))) = _
  have h : ((delayFor t u).at' (some ⟨op, .delay t :: rest⟩) none none).quiet = true := hq
  rw [delayFor_at', tick_of_quiet h]; rfl

theorem runBody_configure (n : Nat) {u : State} (hq : u.quiet = true) (op : Opcode) (ch : Channel)
    (rest : List Stmt) :
    runBody (n + 1) (u.running op (.configure ch :: rest))
      = runBody n ((configure ch u).running op (if configAnswer u then rest else [.finish .busError 0])) := by
  rw [State.running, runBody_at' _ hq]
  show runBody n (setBody op (if configAnswer (u.at' (some ⟨op, .configure ch :: rest⟩) none none) then rest
    else [.finish .busError 0]) (tick (configure ch (u.at' (some ⟨op, .configure ch :: rest⟩) none none)))) = _
  have h : ((configure ch u).at' (some ⟨op, .configure ch :: rest⟩) none none).quiet = true := by
    simpa [State.quiet] using hq
  rw [configure_at', tick_of_quiet h]; rfl

/-- A WaitReady of its own (R250): its result is ignored. -/
theorem runBody_wait (n : Nat) {u : State} (hq : u.quiet = true) (op : Opcode) (rest : List Stmt) :
    runBody (n + 2) (u.running op (.wait :: rest))
      = runBody n ((waitReadyRef u.cfg.readyPolls u).running op rest) := by
  have hq' : (waitReadyRef u.cfg.readyPolls u).quiet = true := by simpa [State.quiet] using hq
  rw [State.running, runBody_at' _ hq]
  show runBody (n + 1) (transact none (u.at' (some ⟨op, .wait :: rest⟩) none none)) = _
  rw [transact_quiet hq, waitReturn, runBody_at' _ hq']
  rfl

/-- A frame: the transaction, then what the Body does with its answer. -/
theorem runBody_frame (n : Nat) {u : State} (hq : u.quiet = true) (op : Opcode) (j : Job) (rest : List Stmt) :
    runBody (n + 2) (u.running op (.frame j :: rest))
      = runBody n
          (match frameAnswerRef (j.transaction u) (j.load u) with
           | .busErr => (frameRef (j.transaction u) (j.load u)).running op [.finish .busError j.partialResult]
           | .ok rx =>
             (storeAnswer j rx (frameRef (j.transaction u) (j.load u))).running op (bodyAfter u.cfg j rx rest)) := by
  have hl : (j.load u).quiet = true := by simpa [State.quiet] using hq
  have hf : (frameRef (j.transaction u) (j.load u)).quiet = true := by simpa [State.quiet, frameRef] using hq
  have hcfg : (frameRef (j.transaction u) (j.load u)).cfg = u.cfg := by simp [frameRef]
  rw [State.running, runBody_at' _ hq]
  show runBody (n + 1) (transact (frameOf u.cfg (j.instr (u.at' (some ⟨op, .frame j :: rest⟩) none none)))
    (j.load (u.at' (some ⟨op, .frame j :: rest⟩) none none))) = _
  rw [instr_at', frameOf_instr, load_at', transact_frame_quiet hl, runBody_at' _ hf]
  show runBody n (takeAnswer op j (.reply (frameAnswerRef (j.transaction u) (j.load u))) rest
    ((frameRef (j.transaction u) (j.load u)).at' (some ⟨op, .frame j :: rest⟩) none _)) = _
  cases ha : frameAnswerRef (j.transaction u) (j.load u) with
  | busErr => rfl
  | ok rx =>
    simp only [takeAnswer, storeAnswer_at', setBody_at', at'_cfg, hcfg]
    rfl

/-! ### Launch -/

/-- A command's launch with no host access to land: the write ignored while BUSY, WRONG_STATE, or the Body's run. -/
theorem launch_eq (op : Opcode) (w : Word) (enter : State → State) (body : State → List Stmt) (s : State) :
    launch op w enter body s
      = if s.busy then ignoredWrite s
        else if allowed op s.fsm s.hdr then
          runBody (bodyCost (body (enter { s with cmd := w, busy := true, call := none, ret := none })))
            { enter { s with cmd := w, busy := true, call := none, ret := none } with
              cur := some { op := op, body := body (enter { s with cmd := w, busy := true, call := none, ret := none }) } }
        else complete .wrongState 0 { s with cmd := w, busy := true } := rfl

/-! ### What a run of a Body keeps -/

/-- A property that every advance of a command in progress keeps is kept by its run. -/
theorem runBody_keeps {P : State → Prop} (h : ∀ s c, P s → s.cur = some c → P (advance s)) (n : Nat) {s : State}
    (hs : P s) : P (runBody n s) := by
  induction n generalizing s with
  | zero => exact hs
  | succ n ih =>
    simp only [runBody]
    split
    · exact hs
    · rename_i c hc; split
      · exact hs
      · exact ih (h s c hs hc)

end Sys2Proof.Machine
end

