-- ==== Sys2Proof/Laws/Bodies.lean ====
section
/-! SUPPORT. Runs of a whole Body with no host access in between, statement by statement, against the pseudocode of
Machine/Reference.lean: a register write, a register read, the reset pulse, SendData's chunks, READ_BLOCK's drain, and
the launch around them. -/

namespace Sys2Proof.Machine

/-! ### What a frame leaves of what a Body reads -/

theorem frameRef_quiet (t : Transaction) {u : State} (hq : u.quiet = true) : (frameRef t u).quiet = true := by
  simpa [State.quiet, frameRef] using hq

@[simp] theorem frameRef_cfg (t : Transaction) (u : State) : (frameRef t u).cfg = u.cfg := by simp [frameRef]
@[simp] theorem frameRef_arg0 (t : Transaction) (u : State) : (frameRef t u).arg0 = u.arg0 := by simp [frameRef]
@[simp] theorem frameRef_arg1 (t : Transaction) (u : State) : (frameRef t u).arg1 = u.arg1 := by simp [frameRef]

/-- Two continuations of a register write that agree wherever it may lead are one. -/
theorem regWrRef_congr {r : Byte} {v : Half} {f f' g g' : State → State} {u : State} (hq : u.quiet = true)
    (hf : ∀ t : State, t.quiet = true → t.cfg = u.cfg → t.arg0 = u.arg0 → t.arg1 = u.arg1 → f t = f' t)
    (hg : ∀ t : State, t.quiet = true → t.cfg = u.cfg → t.arg0 = u.arg0 → t.arg1 = u.arg1 → g t = g' t) :
    regWrRef r v f g u = regWrRef r v f' g' u := by
  unfold regWrRef
  split
  · exact hf _ (frameRef_quiet _ hq) (by simp) (by simp) (by simp)
  · exact hg _ (frameRef_quiet _ hq) (by simp) (by simp) (by simp)

/-- Two continuations of a register read that agree wherever it may lead are one. -/
theorem regRdRef_congr {r : Byte} {f f' : State → State} {g g' : Half → State → State} {u : State} (hq : u.quiet = true)
    (hf : ∀ t : State, t.quiet = true → t.cfg = u.cfg → t.arg0 = u.arg0 → t.arg1 = u.arg1 → f t = f' t)
    (hg : ∀ x (t : State), t.quiet = true → t.cfg = u.cfg → t.arg0 = u.arg0 → t.arg1 = u.arg1 → g x t = g' x t) :
    regRdRef r f g u = regRdRef r f' g' u := by
  unfold regRdRef
  split
  · exact hf _ (frameRef_quiet _ hq) (by simp) (by simp) (by simp)
  · exact hg _ _ (frameRef_quiet _ hq) (by simp) (by simp) (by simp)

/-! ### Statements of a Body -/

/-- A register write of a Body is RegWr (R165), the Body ending with BUS_ERROR where it fails. -/
theorem run_write (n : Nat) {u : State} (hq : u.quiet = true) (op : Opcode) (r : Byte) (v : Half) (rest : List Stmt) :
    runBody (n + 2 + 1) (u.running op (.frame (.write r v) :: rest))
      = regWrRef r v (finish op .busError 0) (fun t => runBody (n + 1) (t.running op rest)) u := by
  rw [show n + 2 + 1 = (n + 1) + 2 by omega, runBody_frame _ hq]
  simp only [Job.transaction, Job.load, Job.partialResult, storeAnswer, bodyAfter, regWrRef]
  cases frameAnswerRef { ch := .ctrl, bytes := writeFrame u.cfg r v } u with
  | busErr => exact runBody_finish _ (frameRef_quiet _ hq) _ _ _ _
  | ok rx => rfl

/-- A control read of a Body. -/
theorem run_read (n : Nat) {u : State} (hq : u.quiet = true) (op : Opcode) (j : Job) (r : Byte) (rest : List Stmt)
    (ht : j.transaction u = { ch := .ctrl, bytes := readFrame u.cfg r }) (hl : j.load u = u) :
    runBody (n + 2 + 1) (u.running op (.frame j :: rest))
      = (match frameAnswerRef { ch := .ctrl, bytes := readFrame u.cfg r } u with
         | .busErr => finish op .busError j.partialResult (frameRef { ch := .ctrl, bytes := readFrame u.cfg r } u)
         | .ok rx =>
           runBody (n + 1) ((storeAnswer j rx (frameRef { ch := .ctrl, bytes := readFrame u.cfg r } u)).running op
             (bodyAfter u.cfg j rx rest))) := by
  rw [show n + 2 + 1 = (n + 1) + 2 by omega, runBody_frame _ hq, ht, hl]
  cases frameAnswerRef { ch := .ctrl, bytes := readFrame u.cfg r } u with
  | busErr => exact runBody_finish _ (frameRef_quiet _ hq) _ _ _ _
  | ok rx => rfl

/-- A launch is its pseudocode `ref` (R133) where the Body's run is. -/
theorem launch_ref (op : Opcode) (w : Word) (enter : State → State) (body : State → List Stmt) (ref : State → State)
    (s : State) (henter : ∀ u, enter (u.at' u.cur none none) = (enter u).at' u.cur none none)
    (hbody : ∀ (u : State) c, body (u.at' c none none) = body u)
    (h : ∀ u : State, u.inputs = s.inputs → u.fsm = s.fsm → u.hdr = s.hdr → allowed op u.fsm u.hdr = true →
      runBody (bodyCost (body (enter u))) ((enter u).running op (body (enter u))) = ref u) :
    launch op w enter body s = commandRef op w ref s := by
  unfold launch commandRef
  split
  · rfl
  · split
    · rename_i hb ha
      rw [← h { s with cmd := w, busy := true } rfl rfl rfl ha]
      have e : enter { s with cmd := w, busy := true, call := none, ret := none }
          = (enter { s with cmd := w, busy := true }).at' s.cur none none := henter { s with cmd := w, busy := true }
      simp only [e, hbody]
      rfl
    · rfl

/-- The chunks of SendData from chunk c, m of them (R170), as the last statements of a Body. -/
theorem run_chunks (op : Opcode) (src : Source) (len : Nat) (m c n : Nat) {u : State} (hq : u.quiet = true) :
    runBody (n + 2 * m + 1) (u.running op ((List.range' c m).map fun c =>
        .frame (.chunk src (chunkMax * c) (min chunkMax (len - chunkMax * c)))))
      = sendDataRef src len (finish op .busError 0) (finish op .ok 0) m c u := by
  induction m generalizing c u n with
  | zero => exact runBody_end _ hq op
  | succ m ih =>
    rw [List.range'_succ, List.map_cons, show n + 2 * (m + 1) + 1 = (n + 2 * m + 1) + 2 by omega, runBody_frame _ hq]
    simp only [sendDataRef, Job.transaction, Job.partialResult, storeAnswer, bodyAfter]
    have hl : ((Job.chunk src (chunkMax * c) (min chunkMax (len - chunkMax * c))).load u).quiet = true := by
      simpa [State.quiet] using hq
    cases frameAnswerRef (chunkTransaction src (chunkMax * c) (min chunkMax (len - chunkMax * c)) u)
        ((Job.chunk src (chunkMax * c) (min chunkMax (len - chunkMax * c))).load u) with
    | busErr => exact runBody_finish _ (frameRef_quiet _ hl) _ _ _ _
    | ok rx => exact ih _ _ (frameRef_quiet _ hl)

theorem cost_chunks (src : Source) (len : Nat) : bodyCost (sendData src len) = 2 * chunkCount len + 1 := by
  simp only [bodyCost, sendData, List.map_map, chunkCount]
  congr 1
  rw [List.map_congr_left (g := fun _ => 2)]
  · simp; omega
  · intro a _; rfl

/-- SendData(src, len) as a Body (R170). -/
theorem run_sendData (op : Opcode) (src : Source) (len : Nat) {u : State} (hq : u.quiet = true) :
    runBody (bodyCost (sendData src len)) (u.running op (sendData src len))
      = sendDataRef src len (finish op .busError 0) (finish op .ok 0) (chunkCount len) 0 u := by
  have := run_chunks op src len (chunkCount len) 0 0 hq
  rw [cost_chunks, sendData, List.range_eq_range']
  rw [Nat.zero_add] at this
  exact this

/-- READ_BLOCK's drain from word k, m words of n (R260). -/
theorem run_drain (n : Nat) (m k f : Nat) {u : State} (hq : u.quiet = true) :
    runBody (f + 2 * m + 1) (u.running .readBlock
        ((List.range' k m).map (fun k => Stmt.frame (.word k)) ++ [.finish .ok (BitVec.ofNat 32 (2 * n))]))
      = drainRef n m k u := by
  induction m generalizing k f u with
  | zero => exact runBody_finish _ hq _ _ _ _
  | succ m ih =>
    rw [List.range'_succ, List.map_cons, List.cons_append, show f + 2 * (m + 1) + 1 = (f + 2 * m) + 2 + 1 by omega,
      run_read _ hq _ _ u.cfg.regRecData _ rfl rfl]
    simp only [drainRef, regRdRef]
    cases frameAnswerRef { ch := .ctrl, bytes := readFrame u.cfg u.cfg.regRecData } u with
    | busErr => rfl
    | ok rx =>
      have hf := frameRef_quiet { ch := .ctrl, bytes := readFrame u.cfg u.cfg.regRecData } hq
      simp only [storeAnswer_word k rx hf]
      exact ih _ _ hf

theorem setResetN_quiet (v : Bool) {u : State} (hq : u.quiet = true) : (setResetN v u).quiet = true := hq
theorem delayFor_quiet (t : Nat) {u : State} (hq : u.quiet = true) : (delayFor t u).quiet = true := hq

/-- The reset pulse of INIT (R220). -/
theorem run_pulse (n : Nat) {u : State} (hq : u.quiet = true) (op : Opcode) (a b : Nat) (rest : List Stmt) :
    runBody (n + 4) (u.running op (.resetN false :: .delay a :: .resetN true :: .delay b :: rest))
      = runBody n ((delayFor b (setResetN true (delayFor a (setResetN false u)))).running op rest) := by
  have q1 := setResetN_quiet false hq
  have q2 := delayFor_quiet a q1
  have q3 := setResetN_quiet true q2
  refine (runBody_resetN (n + 3) hq _ _ _).trans ?_
  generalize setResetN false u = x at *
  refine (runBody_delay (n + 2) q1 _ _ _).trans ?_
  generalize delayFor a x = y at *
  refine (runBody_resetN (n + 1) q2 _ _ _).trans ?_
  generalize setResetN true y = z at *
  exact runBody_delay n q3 _ _ _

/-! ### EMIT_HEADER before its first primitive -/

theorem headerArgsOk_enter (u : State) : headerArgsOk (emitHeaderEnter u) = headerArgsOk u := by
  unfold emitHeaderEnter
  split
  · simp [headerArgsOk]
  · rfl

theorem buildHeader_at' (sr : Word) (ch : Byte) (u : State) (c : Option Cursor) (k : Option Call) (r : Option Ret) :
    buildHeader sr ch (u.at' c k r) = (buildHeader sr ch u).at' c k r := by
  simp only [buildHeader, State.at']

theorem emitHeaderEnter_at' (u : State) (c : Option Cursor) (k : Option Call) (r : Option Ret) :
    emitHeaderEnter (u.at' c k r) = (emitHeaderEnter u).at' c k r := by
  have h : headerArgsOk (u.at' c k r) = headerArgsOk u := rfl
  unfold emitHeaderEnter
  rw [h]
  split
  · exact buildHeader_at' _ _ _ _ _ _
  · rfl

end Sys2Proof.Machine
end

