-- ==== Sys2Proof/Laws/Step.lean ====
section
/-! SUPPORT. What a step can do, said once: the launch behind each command, the one advance behind a step of a Body,
and the principle by which a step keeps a property. -/

namespace Sys2Proof.Machine

/-- What a command launches: its opcode, its word, the assignments before its first primitive, and its Body. -/
structure Entry where
  op : Opcode
  word : Word
  enter : State → State
  body : State → List Stmt

/-- The launch behind a command; none for a device-side frame. -/
def entryOf : Instr → Option Entry
  | .init ign => some ⟨.init, cmdWordIgn .init ign, initEnter, initBody⟩
  | .regWrite r v => some ⟨.regWrite, cmdWord .regWrite r v, enterPlain, regWriteBody r v⟩
  | .regRead r ign => some ⟨.regRead, cmdWord .regRead r ign, enterPlain, regReadBody r⟩
  | .bulkWrite ign => some ⟨.bulkWrite, cmdWordIgn .bulkWrite ign, enterPlain, bulkWriteBody⟩
  | .startRecord ign => some ⟨.startRecord, cmdWordIgn .startRecord ign, enterPlain, startRecordBody⟩
  | .readBlock ign => some ⟨.readBlock, cmdWordIgn .readBlock ign, enterPlain, readBlockBody⟩
  | .startDecode ign => some ⟨.startDecode, cmdWordIgn .startDecode ign, enterPlain, startDecodeBody⟩
  | .emitHeader ign => some ⟨.emitHeader, cmdWordIgn .emitHeader ign, emitHeaderEnter, emitHeaderBody⟩
  | .writeBlock ign => some ⟨.writeBlock, cmdWordIgn .writeBlock ign, enterPlain, writeBlockBody⟩
  | .stop ign => some ⟨.stop, cmdWordIgn .stop ign, stopEnter, stopBody⟩
  | .ctrlWrite _ _ => none
  | .ctrlRead _ => none
  | .dataChunk _ => none

/-- A command's meaning is its launch. -/
theorem exec_entry {i : Instr} {e : Entry} (h : entryOf i = some e) (s : State) :
    exec i s = .next (launch e.op e.word e.enter e.body s) := by
  cases i <;> simp only [entryOf, Option.some.injEq, reduceCtorEq] at h <;> subst h <;> rfl

/-- The opcode, and the word of the encoding, of a command's launch. -/
theorem entry_opcode {i : Instr} {e : Entry} (h : entryOf i = some e) (p : Params) :
    i.opcode? = some e.op ∧ encode p i = .cmd e.word := by
  cases i <;> simp only [entryOf, Option.some.injEq, reduceCtorEq] at h <;> subst h <;> exact ⟨rfl, rfl⟩

/-- Every decoded CMD word is a command. -/
theorem decodeCmd_entry {w : Word} {i : Instr} (h : decodeCmd w = .ok i) : ∃ e, entryOf i = some e := by
  unfold decodeCmd at h
  split at h <;> simp only [Except.ok.injEq, reduceCtorEq] at h <;> subst h <;> exact ⟨_, rfl⟩

/-- The state in which a launched Body starts. -/
def Entry.start (e : Entry) (s : State) : State :=
  let u := e.enter { s with cmd := e.word, busy := true, call := none, ret := none }
  { u with cur := some { op := e.op, body := e.body u } }

/-- A launch keeps a property that its three outcomes keep. -/
theorem launch_keeps {P : State → Prop} (e : Entry) {s : State}
    (hign : s.busy = true → P (ignoredWrite s))
    (hwrong : s.busy = false → allowed e.op s.fsm s.hdr = false →
      P (complete .wrongState 0 { s with cmd := e.word, busy := true }))
    (hstart : s.busy = false → allowed e.op s.fsm s.hdr = true → P (e.start s))
    (hadv : ∀ u c, P u → u.cur = some c → P (advance u)) : P (launch e.op e.word e.enter e.body s) := by
  rw [launch_eq]
  split
  · exact hign ‹_›
  · have hb : s.busy = false := by simpa using ‹¬ s.busy = true›
    split
    · exact runBody_keeps hadv _ (hstart hb ‹_›)
    · exact hwrong hb (by simpa using ‹¬ allowed e.op s.fsm s.hdr = true›)

/-- A frame of a Body, run by `exec`, is the advance of the sequencer. -/
theorem exec_job {s s' : State} {op : Opcode} {j : Job} {rest : List Stmt} (hc : s.call = none) (hr : s.ret = none)
    (hb : s.cur = some { op := op, body := .frame j :: rest }) (h : exec (j.instr s) (j.load s) = .next s') :
    s' = advance s := by
  have ha : advance s = transact (frameOf s.cfg (j.instr s)) (j.load s) := by
    simp only [advance, hc, hb, advanceStmt, hr]
  have hl : (j.load s).call = none := by simpa using hc
  have hcfg : (j.load s).cfg = s.cfg := by simp
  rw [ha]
  cases j <;>
    simp only [Job.instr, exec, execCtrlWrite, execCtrlRead, execDataChunk, sendFrame, hl, hcfg] at h <;>
    (try split at h) <;> simp only [Host.Outcome.next.injEq, reduceCtorEq] at h <;> subst h <;> rfl

/-- A step of the command in progress that goes on is one advance. -/
theorem stepBody_advance {s s' : State} (h : stepBody s = .next s') : s' = advance s := by
  unfold stepBody at h
  split at h
  · rename_i hc hr hb; exact exec_job hc hr hb h
  · simpa using h.symm

/-- What a legal access can do to the controller, and what a step can do. A step keeps a property that each of these
keeps: a host read; the host program stopped; a controller reset; the inputs moved on; an ignored write; the write of an argument, of STATUS or
of a BUF word; a command completed at launch; a Body started; a Body advanced. -/
structure StepKeeps (P : State → Prop) : Prop where
  inputs : ∀ s l, P s → P { s with inputs := l }
  read : ∀ s addr, P s → P (hostRead addr s)
  stopped : ∀ s, P s → P (stopProgram s)
  reset : ∀ s, P s → P (controllerReset s)
  ignored : ∀ s, P s → s.busy = true → P (ignoredWrite s)
  arg0 : ∀ s v, P s → s.busy = false → P { s with arg0 := v }
  arg1 : ∀ s v, P s → s.busy = false → P { s with arg1 := v }
  status : ∀ s v, P s → P (clearFlags v s)
  buf : ∀ s k v, P s → s.busy = false → 4 * k + 3 < s.cfg.bufSize → P (writeBufWord k v s)
  atLaunch : ∀ s w code, P s → s.busy = false → P (complete code 0 { s with cmd := w, busy := true })
  start : ∀ s i e, entryOf i = some e → P s → s.busy = false → allowed e.op s.fsm s.hdr = true →
    P (e.start s)
  advance : ∀ s c, P s → s.cur = some c → P (Machine.advance s)

/-- A launch keeps what a step keeps. -/
theorem StepKeeps.exec {P : State → Prop} (h : StepKeeps P) {i : Instr} {e : Entry} (he : entryOf i = some e)
    {s s' : State} (hx : Machine.exec i s = .next s') (hs : P s) : P s' := by
  rw [exec_entry he, Host.Outcome.next.injEq] at hx
  rw [← hx]
  exact launch_keeps e (h.ignored s hs) (fun hb _ => h.atLaunch s _ _ hs hb) (h.start s i e he hs) h.advance

/-- A word offset of the window that names a BUF word names one inside BUF. -/
theorem windowReg_bufWord {p : Params} (hp : p.Wf) {addr k : Nat} (ha : (addr - p.base) % 4 = 0)
    (h : windowReg p (addr - p.base) = .bufWord k) : addr - p.base = offBuf + 4 * k ∧ 4 * k + 3 < p.bufSize := by
  have hm : p.bufSize % 4 = 0 := hp.2.2.2.2.1
  unfold windowReg at h
  repeat' split at h
  all_goals simp only [reduceCtorEq, WindowReg.bufWord.injEq] at h
  rename_i hin
  simp only [offBuf] at *
  omega

/-- A host write keeps what a step keeps. -/
theorem StepKeeps.write {P : State → Prop} (h : StepKeeps P) {s s' : State} {r : WindowReg} {v : Word}
    (hk : ∀ k, r = .bufWord k → 4 * k + 3 < s.cfg.bufSize) (hx : writeReg r v s = .next s') (hs : P s) : P s' := by
  cases r with
  | cmd =>
    simp only [writeReg, writeCmd] at hx
    split at hx
    · rename_i i hi
      obtain ⟨e, he⟩ := decodeCmd_entry hi
      exact h.exec he hx hs
    · simp only [Host.Outcome.next.injEq] at hx
      rw [← hx]
      unfold illegalCommand
      split
      · exact h.ignored s hs ‹_›
      · exact h.atLaunch s _ _ hs (by simpa using ‹¬ s.busy = true›)
  | status => simp only [writeReg, Host.Outcome.next.injEq] at hx; exact hx ▸ h.status s v hs
  | result => simp only [writeReg, Host.Outcome.next.injEq] at hx; exact hx ▸ hs
  | tmoCount => simp only [writeReg, Host.Outcome.next.injEq] at hx; exact hx ▸ hs
  | unmapped => simp only [writeReg, Host.Outcome.next.injEq] at hx; exact hx ▸ hs
  | arg0 =>
    simp only [writeReg, Host.Outcome.next.injEq] at hx
    rw [← hx]
    split
    · exact h.ignored s hs ‹_›
    · exact h.arg0 s v hs (by simpa using ‹¬ s.busy = true›)
  | arg1 =>
    simp only [writeReg, Host.Outcome.next.injEq] at hx
    rw [← hx]
    split
    · exact h.ignored s hs ‹_›
    · exact h.arg1 s v hs (by simpa using ‹¬ s.busy = true›)
  | bufWord k =>
    simp only [writeReg, Host.Outcome.next.injEq] at hx
    rw [← hx]
    split
    · exact h.ignored s hs ‹_›
    · exact h.buf s k v hs (by simpa using ‹¬ s.busy = true›) (hk k rfl)

/-- An access that goes on is in the window and legal. -/
theorem guardAccess_next {addr : Nat} {width : Width} {s s' : State} {act : State → Host.Outcome State Fault Refusal}
    (h : guardAccess addr width s act = .next s') :
    inWindow s.cfg addr ∧ accessLegal s.cfg addr width ∧ act s = .next s' := by
  unfold guardAccess at h
  split at h
  · split at h
    · exact ⟨‹_›, ‹_›, h⟩
    · simp at h
  · simp at h

/-- A poll keeps what a step keeps. -/
theorem StepKeeps.poll {P : State → Prop} (h : StepKeeps P) (s : State) (gaps : List Nat) (hs : P s) :
    P (pollStatus gaps s) := by
  unfold pollStatus
  split
  exacts [h.inputs _ _ (h.read s _ hs), h.read s _ hs]

/-- An input keeps what a step keeps. -/
theorem StepKeeps.perform {P : State → Prop} (h : StepKeeps P) {i : Input} {s s' : State} (hp : s.cfg.Wf)
    (hx : Machine.perform i s = .next s') (hs : P s) : P s' := by
  cases i with
  | read addr width =>
    obtain ⟨-, -, hx⟩ := guardAccess_next (act := fun s => .next (hostRead addr s)) hx
    simp only [Host.Outcome.next.injEq] at hx
    exact hx ▸ h.read s addr hs
  | write addr width v =>
    obtain ⟨-, ha, hx⟩ := guardAccess_next hx
    exact h.write (fun k hk => (windowReg_bufWord hp ha.2 hk).2) hx hs
  | waitIdle gaps =>
    simp only [Machine.perform, Host.Outcome.next.injEq] at hx
    rw [← hx]
    exact h.poll s gaps hs
  | check addr mask val =>
    simp only [Machine.perform] at hx
    obtain ⟨-, -, hx⟩ := guardAccess_next hx
    simp only [Host.Outcome.next.injEq] at hx
    rw [← hx]
    split
    exacts [h.read s addr hs, h.stopped _ (h.read s addr hs)]
  | reset => simp only [Machine.perform, Host.Outcome.next.injEq] at hx; exact hx ▸ h.reset s hs

/-- The principle: a property that each thing a step can do keeps is kept by every step. -/
theorem StepKeeps.step {P : State → Prop} (h : StepKeeps P) {s s' : State} (hx : Machine.step s = .next s')
    (hs : P s) : P s' := by
  unfold Machine.step at hx
  split at hx
  · rename_i hp
    split at hx
    · split at hx
      · simp only [Host.Outcome.next.injEq] at hx; exact hx ▸ hs
      · next i rest _ => exact h.perform (s := { s with inputs := rest }) hp hx (h.inputs s rest hs)
    · rename_i hc
      rw [stepBody_advance hx]
      obtain ⟨c, hc⟩ : ∃ c, s.cur = some c := by
        cases hcur : s.cur with
        | none => simp [hcur] at hc
        | some c => exact ⟨c, rfl⟩
      exact h.advance s c hs hc
  · simp at hx

end Sys2Proof.Machine
end

