-- ==== Sys2Proof/Laws/Advance.lean ====
section
/-! SUPPORT. What the procedures of file 41 leave of the state, whatever lands in between, and what an advance
leaves. -/

namespace Sys2Proof.Machine

/-! ### A field that no action of a procedure writes -/

/-- A field that the primitives, the flags of a timeout and the call position leave is left by an action. -/
theorem finishCall_field {α : Type} (f : State → α) (h : ∀ s k, f (tick (callStep k s)) = f s) (s : State) :
    f (finishCall s) = f s :=
  finishCall_keeps (P := fun u => f u = f s) (fun u k hu _ => (h u k).trans hu) rfl

section
variable (s : State) (k : Call) (t : Option Transaction)
@[simp] theorem callStep_cfg : (callStep k s).cfg = s.cfg := by
  cases k with
  | sample n t => cases n with
    | zero => simp [callStep]
    | succ n => simp only [callStep]; split <;> simp
  | _ => simp [callStep]
@[simp] theorem callStep_cmd : (callStep k s).cmd = s.cmd := by
  cases k with
  | sample n t => cases n with
    | zero => simp [callStep]
    | succ n => simp only [callStep]; split <;> simp
  | _ => simp [callStep]
@[simp] theorem callStep_arg0 : (callStep k s).arg0 = s.arg0 := by
  cases k with
  | sample n t => cases n with
    | zero => simp [callStep]
    | succ n => simp only [callStep]; split <;> simp
  | _ => simp [callStep]
@[simp] theorem callStep_arg1 : (callStep k s).arg1 = s.arg1 := by
  cases k with
  | sample n t => cases n with
    | zero => simp [callStep]
    | succ n => simp only [callStep]; split <;> simp
  | _ => simp [callStep]
@[simp] theorem callStep_fsm : (callStep k s).fsm = s.fsm := by
  cases k with
  | sample n t => cases n with
    | zero => simp [callStep]
    | succ n => simp only [callStep]; split <;> simp
  | _ => simp [callStep]
@[simp] theorem callStep_busy : (callStep k s).busy = s.busy := by
  cases k with
  | sample n t => cases n with
    | zero => simp [callStep]
    | succ n => simp only [callStep]; split <;> simp
  | _ => simp [callStep]
@[simp] theorem callStep_ovr : (callStep k s).ovr = s.ovr := by
  cases k with
  | sample n t => cases n with
    | zero => simp [callStep]
    | succ n => simp only [callStep]; split <;> simp
  | _ => simp [callStep]
@[simp] theorem callStep_hdr : (callStep k s).hdr = s.hdr := by
  cases k with
  | sample n t => cases n with
    | zero => simp [callStep]
    | succ n => simp only [callStep]; split <;> simp
  | _ => simp [callStep]
@[simp] theorem callStep_initFlag : (callStep k s).initFlag = s.initFlag := by
  cases k with
  | sample n t => cases n with
    | zero => simp [callStep]
    | succ n => simp only [callStep]; split <;> simp
  | _ => simp [callStep]
@[simp] theorem callStep_code : (callStep k s).code = s.code := by
  cases k with
  | sample n t => cases n with
    | zero => simp [callStep]
    | succ n => simp only [callStep]; split <;> simp
  | _ => simp [callStep]
@[simp] theorem callStep_result : (callStep k s).result = s.result := by
  cases k with
  | sample n t => cases n with
    | zero => simp [callStep]
    | succ n => simp only [callStep]; split <;> simp
  | _ => simp [callStep]
@[simp] theorem callStep_buf : (callStep k s).buf = s.buf := by
  cases k with
  | sample n t => cases n with
    | zero => simp [callStep]
    | succ n => simp only [callStep]; split <;> simp
  | _ => simp [callStep]
@[simp] theorem callStep_resetN : (callStep k s).resetN = s.resetN := by
  cases k with
  | sample n t => cases n with
    | zero => simp [callStep]
    | succ n => simp only [callStep]; split <;> simp
  | _ => simp [callStep]
@[simp] theorem callStep_hdrbuf : (callStep k s).hdrbuf = s.hdrbuf := by
  cases k with
  | sample n t => cases n with
    | zero => simp [callStep]
    | succ n => simp only [callStep]; split <;> simp
  | _ => simp [callStep]
@[simp] theorem callStep_cur : (callStep k s).cur = s.cur := by
  cases k with
  | sample n t => cases n with
    | zero => simp [callStep]
    | succ n => simp only [callStep]; split <;> simp
  | _ => simp [callStep]
@[simp] theorem callStep_hostLog : (callStep k s).hostLog = s.hostLog := by
  cases k with
  | sample n t => cases n with
    | zero => simp [callStep]
    | succ n => simp only [callStep]; split <;> simp
  | _ => simp [callStep]
@[simp] theorem finishCall_cfg : (finishCall s).cfg = s.cfg := by apply finishCall_field State.cfg; simp
@[simp] theorem finishCall_cmd : (finishCall s).cmd = s.cmd := by apply finishCall_field State.cmd; simp
@[simp] theorem finishCall_arg0 : (finishCall s).arg0 = s.arg0 := by apply finishCall_field State.arg0; simp
@[simp] theorem finishCall_arg1 : (finishCall s).arg1 = s.arg1 := by apply finishCall_field State.arg1; simp
@[simp] theorem finishCall_fsm : (finishCall s).fsm = s.fsm := by apply finishCall_field State.fsm; simp
@[simp] theorem finishCall_busy : (finishCall s).busy = s.busy := by apply finishCall_field State.busy; simp
@[simp] theorem finishCall_ovr : (finishCall s).ovr = s.ovr := by apply finishCall_field State.ovr; simp
@[simp] theorem finishCall_hdr : (finishCall s).hdr = s.hdr := by apply finishCall_field State.hdr; simp
@[simp] theorem finishCall_initFlag : (finishCall s).initFlag = s.initFlag := by apply finishCall_field State.initFlag; simp
@[simp] theorem finishCall_code : (finishCall s).code = s.code := by apply finishCall_field State.code; simp
@[simp] theorem finishCall_result : (finishCall s).result = s.result := by apply finishCall_field State.result; simp
@[simp] theorem finishCall_buf : (finishCall s).buf = s.buf := by apply finishCall_field State.buf; simp
@[simp] theorem finishCall_resetN : (finishCall s).resetN = s.resetN := by apply finishCall_field State.resetN; simp
@[simp] theorem finishCall_hdrbuf : (finishCall s).hdrbuf = s.hdrbuf := by apply finishCall_field State.hdrbuf; simp
@[simp] theorem finishCall_cur : (finishCall s).cur = s.cur := by apply finishCall_field State.cur; simp
@[simp] theorem finishCall_hostLog : (finishCall s).hostLog = s.hostLog := by apply finishCall_field State.hostLog; simp
@[simp] theorem transact_cfg : (transact t s).cfg = s.cfg := by simp [transact]
@[simp] theorem transact_cmd : (transact t s).cmd = s.cmd := by simp [transact]
@[simp] theorem transact_arg0 : (transact t s).arg0 = s.arg0 := by simp [transact]
@[simp] theorem transact_arg1 : (transact t s).arg1 = s.arg1 := by simp [transact]
@[simp] theorem transact_fsm : (transact t s).fsm = s.fsm := by simp [transact]
@[simp] theorem transact_busy : (transact t s).busy = s.busy := by simp [transact]
@[simp] theorem transact_ovr : (transact t s).ovr = s.ovr := by simp [transact]
@[simp] theorem transact_hdr : (transact t s).hdr = s.hdr := by simp [transact]
@[simp] theorem transact_initFlag : (transact t s).initFlag = s.initFlag := by simp [transact]
@[simp] theorem transact_code : (transact t s).code = s.code := by simp [transact]
@[simp] theorem transact_result : (transact t s).result = s.result := by simp [transact]
@[simp] theorem transact_buf : (transact t s).buf = s.buf := by simp [transact]
@[simp] theorem transact_resetN : (transact t s).resetN = s.resetN := by simp [transact]
@[simp] theorem transact_hdrbuf : (transact t s).hdrbuf = s.hdrbuf := by simp [transact]
@[simp] theorem transact_cur : (transact t s).cur = s.cur := by simp [transact]
@[simp] theorem transact_hostLog : (transact t s).hostLog = s.hostLog := by simp [transact]
end

/-! ### `emitHeaderEnter`: it writes HDRBUF alone -/

section
variable (s : State)
@[simp] theorem emitHeaderEnter_cfg : (emitHeaderEnter s).cfg = s.cfg := by
  unfold emitHeaderEnter; split <;> simp
@[simp] theorem emitHeaderEnter_cmd : (emitHeaderEnter s).cmd = s.cmd := by
  unfold emitHeaderEnter; split <;> simp
@[simp] theorem emitHeaderEnter_arg0 : (emitHeaderEnter s).arg0 = s.arg0 := by
  unfold emitHeaderEnter; split <;> simp
@[simp] theorem emitHeaderEnter_arg1 : (emitHeaderEnter s).arg1 = s.arg1 := by
  unfold emitHeaderEnter; split <;> simp
@[simp] theorem emitHeaderEnter_fsm : (emitHeaderEnter s).fsm = s.fsm := by
  unfold emitHeaderEnter; split <;> simp
@[simp] theorem emitHeaderEnter_busy : (emitHeaderEnter s).busy = s.busy := by
  unfold emitHeaderEnter; split <;> simp
@[simp] theorem emitHeaderEnter_tmo : (emitHeaderEnter s).tmo = s.tmo := by
  unfold emitHeaderEnter; split <;> simp
@[simp] theorem emitHeaderEnter_ovr : (emitHeaderEnter s).ovr = s.ovr := by
  unfold emitHeaderEnter; split <;> simp
@[simp] theorem emitHeaderEnter_hdr : (emitHeaderEnter s).hdr = s.hdr := by
  unfold emitHeaderEnter; split <;> simp
@[simp] theorem emitHeaderEnter_initFlag : (emitHeaderEnter s).initFlag = s.initFlag := by
  unfold emitHeaderEnter; split <;> simp
@[simp] theorem emitHeaderEnter_code : (emitHeaderEnter s).code = s.code := by
  unfold emitHeaderEnter; split <;> simp
@[simp] theorem emitHeaderEnter_berr : (emitHeaderEnter s).berr = s.berr := by
  unfold emitHeaderEnter; split <;> simp
@[simp] theorem emitHeaderEnter_result : (emitHeaderEnter s).result = s.result := by
  unfold emitHeaderEnter; split <;> simp
@[simp] theorem emitHeaderEnter_tmoCount : (emitHeaderEnter s).tmoCount = s.tmoCount := by
  unfold emitHeaderEnter; split <;> simp
@[simp] theorem emitHeaderEnter_buf : (emitHeaderEnter s).buf = s.buf := by
  unfold emitHeaderEnter; split <;> simp
@[simp] theorem emitHeaderEnter_resetN : (emitHeaderEnter s).resetN = s.resetN := by
  unfold emitHeaderEnter; split <;> simp
@[simp] theorem emitHeaderEnter_csCtrl : (emitHeaderEnter s).csCtrl = s.csCtrl := by
  unfold emitHeaderEnter; split <;> simp
@[simp] theorem emitHeaderEnter_csData : (emitHeaderEnter s).csData = s.csData := by
  unfold emitHeaderEnter; split <;> simp
@[simp] theorem emitHeaderEnter_cur : (emitHeaderEnter s).cur = s.cur := by
  unfold emitHeaderEnter; split <;> simp
@[simp] theorem emitHeaderEnter_call : (emitHeaderEnter s).call = s.call := by
  unfold emitHeaderEnter; split <;> simp
@[simp] theorem emitHeaderEnter_ret : (emitHeaderEnter s).ret = s.ret := by
  unfold emitHeaderEnter; split <;> simp
@[simp] theorem emitHeaderEnter_trace : (emitHeaderEnter s).trace = s.trace := by
  unfold emitHeaderEnter; split <;> simp
@[simp] theorem emitHeaderEnter_dev : (emitHeaderEnter s).dev = s.dev := by
  unfold emitHeaderEnter; split <;> simp
@[simp] theorem emitHeaderEnter_draws : (emitHeaderEnter s).draws = s.draws := by
  unfold emitHeaderEnter; split <;> simp
@[simp] theorem emitHeaderEnter_inputs : (emitHeaderEnter s).inputs = s.inputs := by
  unfold emitHeaderEnter; split <;> simp
@[simp] theorem emitHeaderEnter_hostLog : (emitHeaderEnter s).hostLog = s.hostLog := by
  unfold emitHeaderEnter; split <;> simp
end

/-! ### What no advance of a Body writes -/

section
variable (s : State)
@[simp] theorem advance_cfg : (advance s).cfg = s.cfg := by
  unfold advance
  repeat' split
  all_goals try simp [finish]
  unfold advanceStmt takeAnswer
  repeat' split
  all_goals simp [finish]
@[simp] theorem advance_cmd : (advance s).cmd = s.cmd := by
  unfold advance
  repeat' split
  all_goals try simp [finish]
  unfold advanceStmt takeAnswer
  repeat' split
  all_goals simp [finish]
@[simp] theorem advance_arg0 : (advance s).arg0 = s.arg0 := by
  unfold advance
  repeat' split
  all_goals try simp [finish]
  unfold advanceStmt takeAnswer
  repeat' split
  all_goals simp [finish]
@[simp] theorem advance_arg1 : (advance s).arg1 = s.arg1 := by
  unfold advance
  repeat' split
  all_goals try simp [finish]
  unfold advanceStmt takeAnswer
  repeat' split
  all_goals simp [finish]
@[simp] theorem advance_ovr : (advance s).ovr = s.ovr := by
  unfold advance
  repeat' split
  all_goals try simp [finish]
  unfold advanceStmt takeAnswer
  repeat' split
  all_goals simp [finish]
@[simp] theorem advance_hostLog : (advance s).hostLog = s.hostLog := by
  unfold advance
  repeat' split
  all_goals try simp [finish]
  unfold advanceStmt takeAnswer
  repeat' split
  all_goals simp [finish]
end

end Sys2Proof.Machine
end

