-- ==== Sys2Proof/Laws/Cmd.lean ====
section
/-! SUPPORT. No run of a command reads CMD: a run with another word in CMD is the same run. -/

namespace Sys2Proof.Machine

/-- The state with another word in CMD. -/
def setCmd (x : Word) (s : State) : State := { s with cmd := x }

theorem sampleReady_setCmd (x : Word) (s : State) : sampleReady (setCmd x s) = setCmd x (sampleReady s) := by
  cases h : s.dev.dreq <;> simp [sampleReady, setCmd, h]

theorem configure_setCmd (c : Channel) (x : Word) (s : State) : configure c (setCmd x s) = setCmd x (configure c s) := by
  cases h : s.dev.configs <;> simp [configure, setCmd, h]

theorem xfer_setCmd (t : Transaction) (x : Word) (s : State) : xfer t (setCmd x s) = setCmd x (xfer t s) := by
  unfold xfer setSelect
  cases t.ch <;> rfl

theorem callStep_setCmd (k : Call) (x : Word) (s : State) : callStep k (setCmd x s) = setCmd x (callStep k s) := by
  cases k with
  | sample n t =>
    cases n with
    | zero => cases t <;> rfl
    | succ n =>
      have : sampleAnswer (setCmd x s) = sampleAnswer s := rfl
      simp only [callStep, sampleReady_setCmd, this]
      split
      · cases t <;> rfl
      · rfl
  | pollDelay n t => rfl
  | select t => obtain ⟨ch, b⟩ := t; cases ch <;> rfl
  | shift t =>
    have : xferAnswer t.bytes.length (setCmd x s) = xferAnswer t.bytes.length s := rfl
    simp only [callStep, xfer_setCmd, this]; rfl

theorem runCall_setCmd (n : Nat) (x : Word) (s : State) : runCall n (setCmd x s) = setCmd x (runCall n s) := by
  induction n generalizing s with
  | zero => rfl
  | succ n ih =>
    have h1 : (setCmd x s).call = s.call := rfl
    have h2 : (setCmd x s).due = s.due := rfl
    unfold runCall
    rw [h1, h2]
    cases s.call with
    | none => rfl
    | some k =>
      simp only
      split
      · rfl
      · rw [callStep_setCmd, ← ih]; rfl

theorem finishCall_setCmd (x : Word) (s : State) : finishCall (setCmd x s) = setCmd x (finishCall s) := by
  have h1 : (setCmd x s).call = s.call := rfl
  unfold finishCall
  rw [h1]
  cases s.call with
  | none => rfl
  | some k => exact runCall_setCmd _ _ _

theorem finish_setCmd (op : Opcode) (c : ResultCode) (r : Word) (x : Word) (s : State) : finish op c r (setCmd x s) = setCmd x (finish op c r s) := by
  cases op <;> cases c <;> rfl

theorem advanceStmt_setCmd (op : Opcode) (st : Stmt) (rest : List Stmt) (x : Word) (s : State) :
    advanceStmt op st rest (setCmd x s) = setCmd x (advanceStmt op st rest s) := by
  have h3 : (setCmd x s).ret = s.ret := rfl
  cases st <;> simp only [advanceStmt]
  · rw [configure_setCmd]; rfl
  · rfl
  · rfl
  · rw [h3]; cases s.ret with
    | none => exact finishCall_setCmd x (beginCall none s)
    | some => rfl
  · rename_i j
    rw [h3]; cases s.ret with
    | none =>
      have : Job.load j (setCmd x s) = setCmd x (j.load s) := by cases j <;> rfl
      rw [this]
      have : Job.instr j (setCmd x s) = (j.instr s) := by cases j <;> rfl
      rw [this]
      exact finishCall_setCmd x (beginCall (frameOf s.cfg (j.instr s)) (j.load s))
    | some r =>
      cases r with
      | reply y => cases y <;> cases j <;> rfl
      | ready => rfl
      | timeout => rfl
  · exact finish_setCmd _ _ _ _ _

theorem advance_setCmd (x : Word) (s : State) : advance (setCmd x s) = setCmd x (advance s) := by
  have h1 : (setCmd x s).call = s.call := rfl
  have h2 : (setCmd x s).cur = s.cur := rfl
  unfold advance
  rw [h1, h2]
  cases s.call with
  | some => exact finishCall_setCmd _ _
  | none =>
    cases s.cur with
    | none => rfl
    | some c =>
      obtain ⟨op, body⟩ := c
      cases body with
      | nil => exact finish_setCmd _ _ _ _ _
      | cons st rest => exact advanceStmt_setCmd _ _ _ _ _

theorem runBody_setCmd (n : Nat) (x : Word) (s : State) : runBody n (setCmd x s) = setCmd x (runBody n s) := by
  induction n generalizing s with
  | zero => rfl
  | succ n ih =>
    have h1 : (setCmd x s).cur = s.cur := rfl
    have h2 : (setCmd x s).due = s.due := rfl
    unfold runBody
    rw [h1, h2]
    cases s.cur with
    | none => rfl
    | some k =>
      simp only
      split
      · rfl
      · rw [advance_setCmd, ← ih]

/-- Two words of one command launch the same run: only CMD tells them apart (R102). -/
theorem launch_setCmd (op : Opcode) (v w : Word) (enter : State → State) (body : State → List Stmt) (s : State)
    (he : ∀ x u, enter (setCmd x u) = setCmd x (enter u)) (hb : ∀ x u, body (setCmd x u) = body u) :
    launch op w enter body s = { launch op v enter body s with cmd := if s.busy then s.cmd else w } := by
  unfold launch
  split
  · rfl
  · split
    · have h1 : enter { s with cmd := w, busy := true, call := none, ret := none } = setCmd w (enter { s with cmd := v, busy := true, call := none, ret := none }) := by rw [← he]; rfl
      simp only [h1, hb]
      generalize enter { s with cmd := v, busy := true, call := none, ret := none } = u
      exact runBody_setCmd _ w { u with cur := some { op := op, body := body u } }
    · rfl

end Sys2Proof.Machine
end

