-- ==== Sys2Proof/Laws/Encoding.lean ====
section
/-! SUPPORT. The fields of CMD32 words and of frame values, taken apart and put together. -/

namespace Sys2Proof

@[simp] theorem catBytes_hi_lo (v : Half) : catBytes (hiByte v) (loByte v) = v := by
  simp only [catBytes, hiByte, loByte]; ext i hi; simp; grind

@[simp] theorem hiByte_catBytes (a b : Byte) : hiByte (catBytes a b) = a := by
  simp only [catBytes, hiByte]; ext i hi; simp; grind

@[simp] theorem loByte_catBytes (a b : Byte) : loByte (catBytes a b) = b := by
  simp only [catBytes, loByte]; ext i hi; simp; grind

/-! ### CMD32 (R101) -/

@[simp] theorem cmdOp_cmdWord (op : Opcode) (r : Byte) (v : Half) : cmdOp (cmdWord op r v) = op.byte := by
  unfold cmdOp cmdWord; ext i hi; simp; grind

@[simp] theorem cmdReg_cmdWord (op : Opcode) (r : Byte) (v : Half) : cmdReg (cmdWord op r v) = r := by
  unfold cmdReg cmdWord; ext i hi; simp; grind

@[simp] theorem cmdValue_cmdWord (op : Opcode) (r : Byte) (v : Half) : cmdValue (cmdWord op r v) = v := by
  unfold cmdValue cmdWord; ext i hi; simp; grind

@[simp] theorem cmdOp_cmdWordIgn (op : Opcode) (ign : BitVec 24) : cmdOp (cmdWordIgn op ign) = op.byte := by
  unfold cmdOp cmdWordIgn; ext i hi; simp; grind

@[simp] theorem cmdIgnored_cmdWordIgn (op : Opcode) (ign : BitVec 24) : cmdIgnored (cmdWordIgn op ign) = ign := by
  unfold cmdIgnored cmdWordIgn; ext i hi; simp; grind

/-- A word is its three fields. -/
theorem cmdWord_fields (w : Word) (op : Opcode) (h : cmdOp w = op.byte) : cmdWord op (cmdReg w) (cmdValue w) = w := by
  unfold cmdWord; rw [← h]; unfold cmdReg cmdValue cmdOp; ext i hi; simp; grind

/-- A word is its OP and the bits above. -/
theorem cmdWordIgn_fields (w : Word) (op : Opcode) (h : cmdOp w = op.byte) : cmdWordIgn op (cmdIgnored w) = w := by
  unfold cmdWordIgn; rw [← h]; unfold cmdIgnored cmdOp; ext i hi; simp; grind

end Sys2Proof
end

