-- ==== Sys2Proof/Laws/Memory.lean ====
section
/-! SUPPORT. The laws of the byte memory: read after write, and that every operation keeps the canonical form. -/

namespace Sys2Proof.Machine

theorem Memory.read?_write (m : Memory) (a b : Nat) (v : Byte) :
    (m.write a v).read? b = if b = a then some v else m.read? b := by
  induction m with
  | nil => simp [Memory.write, Memory.read?]
  | cons c m ih =>
    obtain ⟨c, w⟩ := c
    simp only [Memory.write]
    split
    · simp [Memory.read?]
    · split
      · subst_vars; simp only [Memory.read?]; split <;> rfl
      · rename_i h1 h2
        simp only [Memory.read?, ih]
        by_cases hb : b = c
        · subst hb; simp [Ne.symm h2]
        · simp [hb]

@[simp] theorem Memory.read?_write_same (m : Memory) (a : Nat) (v : Byte) : (m.write a v).read? a = some v := by
  simp [Memory.read?_write]

theorem Memory.read?_write_other (m : Memory) {a b : Nat} (v : Byte) (h : b ≠ a) :
    (m.write a v).read? b = m.read? b := by
  simp [Memory.read?_write, h]

theorem Memory.mem_write {m : Memory} {a : Nat} {v : Byte} {e : Host.Cell} (h : e ∈ m.write a v) :
    e = (a, v) ∨ e ∈ m := by
  induction m with
  | nil => simpa [Memory.write] using h
  | cons c m ih =>
    obtain ⟨c, w⟩ := c
    simp only [Memory.write] at h
    split at h
    · simpa using h
    · split at h
      · rcases List.mem_cons.mp h with h | h
        · exact .inl h
        · exact .inr (List.mem_cons_of_mem _ h)
      · rcases List.mem_cons.mp h with h | h
        · exact .inr (h ▸ List.mem_cons_self)
        · exact (ih h).imp id (List.mem_cons_of_mem _)

theorem Memory.wf_write {m : Memory} (h : m.wf) (a : Nat) (v : Byte) : (m.write a v).wf := by
  induction m with
  | nil => simp [Memory.write, Memory.wf]
  | cons c m ih =>
    obtain ⟨c, w⟩ := c
    have hc := List.pairwise_cons.mp h
    simp only [Memory.write]
    split
    · rename_i hlt
      refine List.pairwise_cons.mpr ⟨fun e he => ?_, h⟩
      rcases List.mem_cons.mp he with he | he
      · exact he ▸ hlt
      · exact Nat.lt_trans hlt (hc.1 e he)
    · split
      · rename_i heq
        exact List.pairwise_cons.mpr ⟨fun e he => heq ▸ hc.1 e he, hc.2⟩
      · rename_i h1 h2
        refine List.pairwise_cons.mpr ⟨fun e he => ?_, ih hc.2⟩
        rcases Memory.mem_write he with he | he
        · subst he; exact (by omega : c < a)
        · exact hc.1 e he

theorem Memory.wf_writeAll {m : Memory} (h : m.wf) (a : Nat) (vs : List Byte) : (m.writeAll a vs).wf := by
  induction vs generalizing m a with
  | nil => exact h
  | cons v vs ih => exact ih (Memory.wf_write h a v) (a + 1)

theorem Memory.mem_writeAll {m : Memory} {a : Nat} {vs : List Byte} {e : Host.Cell} (h : e ∈ m.writeAll a vs) :
    (a ≤ e.1 ∧ e.1 < a + vs.length) ∨ e ∈ m := by
  induction vs generalizing m a with
  | nil => exact .inr h
  | cons v vs ih =>
    rcases ih h with h | h
    · exact .inl (by simp only [List.length_cons]; omega)
    · rcases Memory.mem_write h with h | h
      · subst h; exact .inl (by simp)
      · exact .inr h

/-- A byte after a run of bytes is written: the run's byte inside it, the old one outside. -/
theorem Memory.read?_writeAll (m : Memory) (a b : Nat) (vs : List Byte) :
    (m.writeAll a vs).read? b = if a ≤ b ∧ b < a + vs.length then vs[b - a]? else m.read? b := by
  induction vs generalizing m a with
  | nil =>
    have : ¬ (a ≤ b ∧ b < a + ([] : List Byte).length) := by simp only [List.length_nil]; omega
    simp only [if_neg this, Memory.writeAll]
  | cons v vs ih =>
    rw [Memory.writeAll, ih, Memory.read?_write]
    by_cases hb : b = a
    · subst hb; simp
    · by_cases hin : a ≤ b ∧ b < a + (v :: vs).length
      · have h1 : a + 1 ≤ b ∧ b < a + 1 + vs.length := by simp only [List.length_cons] at hin; omega
        rw [if_pos h1, if_pos hin, show b - a = (b - (a + 1)) + 1 by omega, List.getElem?_cons_succ]
      · have h1 : ¬ (a + 1 ≤ b ∧ b < a + 1 + vs.length) := by simp only [List.length_cons] at hin; omega
        rw [if_neg h1, if_neg hin, if_neg hb]

@[simp] theorem Memory.length_readAll (m : Memory) (a d n : Nat) : (m.readAll a d n).1.length = n := by
  induction n generalizing a d with
  | zero => rfl
  | succ n ih => simp only [Memory.readAll]; split <;> simp [ih]

/-- Bytes that are all written are read as they are, and draw nothing. -/
theorem Memory.readAll_written {m : Memory} {a : Nat} {vs : List Byte} (d : Nat)
    (h : ∀ i, i < vs.length → m.read? (a + i) = vs[i]?) : m.readAll a d vs.length = (vs, d) := by
  induction vs generalizing a with
  | nil => rfl
  | cons v vs ih =>
    have h0 : m.read? a = some v := by simpa using h 0 (by simp)
    have hs := ih (a := a + 1) fun i hi => by
      have := h (i + 1) (by simpa using hi)
      simpa [show a + 1 + i = a + (i + 1) by omega] using this
    simp only [List.length_cons, Memory.readAll, h0, hs]

/-- A run of bytes just written is read back. -/
theorem Memory.readAll_writeAll (m : Memory) (a d : Nat) (vs : List Byte) :
    (m.writeAll a vs).readAll a d vs.length = (vs, d) :=
  Memory.readAll_written d fun i hi => by
    rw [Memory.read?_writeAll, if_pos (by omega), Nat.add_sub_cancel_left]

end Sys2Proof.Machine
end

