-- ==== Sys2Proof/Laws/Safety.lean ====
section
/-! SUPPORT. Lemmas about the terms of Safety.lean: the Bodies that a command starts and that an advance leaves, the
trace one event longer, the chip selects over one action, and HDRBUF. -/

namespace Sys2Proof.Machine

/-! ### Bodies -/

theorem sendData_ok (p : Params) (op : Opcode) (src : Source) (len : Nat)
    (h : src = .buf ∧ (op = .bulkWrite ∨ op = .writeBlock) ∨ src = .hdrbuf ∧ op = .emitHeader) :
    ∀ st ∈ sendData src len, stmtOk p op st := by
  intro st hst
  simp only [sendData, List.mem_map, List.mem_range] at hst
  obtain ⟨c, hc, rfl⟩ := hst
  refine ⟨h, ?_⟩
  simp only [chunkMax] at *
  omega

theorem drainBody_ok (p : Params) (a : Half) (cap : Nat) (h : cap ≤ p.bufSize) :
    ∀ st ∈ drainBody a cap, stmtOk p .readBlock st := by
  intro st hst
  unfold drainBody at hst
  split at hst
  · simp at hst; subst hst; exact .inl rfl
  · simp only [List.mem_append, List.mem_map, List.mem_range, List.mem_singleton] at hst
    rcases hst with ⟨k, hk, rfl⟩ | rfl
    · simp only [stmtOk, wordCount, true_and] at *; omega
    · exact .inl rfl

theorem bodyAfter_ok (p : Params) (op : Opcode) (j : Job) (rx : List Byte) (rest : List Stmt)
    (hj : stmtOk p op (.frame j)) (hr : ∀ st ∈ rest, stmtOk p op st) :
    ∀ st ∈ bodyAfter p j rx rest, stmtOk p op st := by
  cases j with
  | verify =>
    simp only [bodyAfter]
    split
    · exact hr
    · intro st h; simp at h; subst h; exact .inr (.inr (.inl ⟨rfl, hj⟩))
  | read r => intro st h; simp [bodyAfter] at h; subst h; exact .inl rfl
  | words cap => obtain ⟨rfl, hcap⟩ := hj; exact drainBody_ok p _ _ hcap
  | write r v => exact hr
  | word k => exact hr
  | chunk src off n => exact hr

/-- An advance leaves a Body of legal statements. -/
theorem advance_body (s : State) (c : Cursor) (h : BodyOk s) (hc : s.cur = some c) : BodyOk (advance s) := by
  unfold advance
  split
  · intro d hd; simp at hd; simpa using h d hd
  · rw [hc]
    obtain ⟨op, body⟩ := c
    have h0 := h _ hc
    cases body with
    | nil => intro d hd; simp [finish] at hd
    | cons st rest =>
      have hst := h0 st (by simp)
      have hr : ∀ x ∈ rest, stmtOk s.cfg op x := fun x hx => h0 x (by simp [hx])
      have hf : ∀ res, ∀ x ∈ [Stmt.finish .busError res], stmtOk s.cfg op x := by
        intro res x hx; simp at hx; subst hx; exact .inr (.inl rfl)
      simp only
      cases st with
      | configure ch =>
        intro d hd
        simp [advanceStmt] at hd; subst hd; simp [advanceStmt]; split
        · exact hr
        · simpa using hf 0
      | resetN v => intro d hd; simp [advanceStmt] at hd; subst hd; simpa [advanceStmt] using hr
      | delay t => intro d hd; simp [advanceStmt] at hd; subst hd; simpa [advanceStmt] using hr
      | wait =>
        simp only [advanceStmt]; split
        · intro d hd; simp at hd; simpa using h d hd
        · intro d hd; simp at hd; subst hd; simpa using hr
      | frame j =>
        simp only [advanceStmt]; split
        · intro d hd; simp at hd; simpa using h d hd
        · unfold takeAnswer
          split
          · intro d hd; simp at hd; subst hd; simpa using hf j.partialResult
          · intro d hd; simp at hd; subst hd; simpa using bodyAfter_ok _ _ _ _ _ hst hr
          · intro d hd; simp at hd; subst hd; simpa using hr
          · intro d hd; simp at hd; subst hd; simpa using hr
      | finish code res => intro d hd; simp [advanceStmt, finish] at hd

/-- A command starts a Body of legal statements. -/
theorem start_body (s : State) (i : Instr) (e : Entry) (he : entryOf i = some e) : BodyOk (e.start s) := by
  cases i <;> simp only [entryOf, Option.some.injEq, reduceCtorEq] at he <;> subst he <;>
    intro c hc <;> simp [Entry.start] at hc <;> subst hc <;> intro st hst <;>
    simp [Entry.start, initEnter, enterPlain, stopEnter] at hst ⊢
  · simp [initBody, verifyStmts] at hst
    rcases hst with h | h | h | h | h | h | h | h | h | h <;>
      first | (subst h; simp [stmtOk]) | (obtain ⟨-, rfl⟩ := h; simp [stmtOk])
  · simp [regWriteBody] at hst; subst hst; simp [stmtOk]
  · simp [regReadBody] at hst; subst hst; simp [stmtOk]
  · unfold bulkWriteBody at hst; split at hst
    · simp at hst; subst hst; simp [stmtOk]
    · exact sendData_ok _ _ _ _ (by simp) _ hst
  · unfold startRecordBody at hst; split at hst <;> simp at hst
    · rcases hst with h | h | h | h | h | h <;> (subst h; simp [stmtOk])
    · subst hst; simp [stmtOk]
  · simp [readBlockBody] at hst; subst hst; simp [stmtOk, capacity]
  · simp [startDecodeBody] at hst; subst hst; simp [stmtOk]
  · unfold emitHeaderBody at hst; split at hst
    · exact sendData_ok _ _ _ _ (by simp) _ hst
    · simp at hst; subst hst; simp [stmtOk]
  · unfold writeBlockBody at hst; split at hst
    · exact sendData_ok _ _ _ _ (by simp) _ hst
    · simp at hst; subst hst; simp [stmtOk]
  · simp [stopBody] at hst; subst hst; simp [stmtOk]

/-! ### HDRBUF -/

@[simp] theorem headerBytes_length (p : Params) (sr : Word) (ch : Byte) : (headerBytes p sr ch).length = hdrLen := rfl

theorem emitHeaderEnter_hdrbuf (s : State) : (emitHeaderEnter s).hdrbuf
    = if headerArgsOk s then s.hdrbuf.writeAll 0 (headerBytes s.cfg s.arg0 (channelsByte s.arg1)) else s.hdrbuf := by
  unfold emitHeaderEnter
  split
  · simp only [buildHeader]
  · rfl

/-! ### The trace one event longer -/

theorem traceLegal_append {p : Params} {tr : List Event} {e : Event} (h : traceLegal p tr)
    (he : ∀ ch tx r, e = .xfer ch tx r → frameLegal p ch tx) : traceLegal p (tr ++ [e]) := by
  intro ch tx r hm
  rcases List.mem_append.1 hm with hm | hm
  · exact h ch tx r hm
  · simp at hm; exact he ch tx r hm.symm

theorem traceGated_append {tr : List Event} {x : Event} (h : traceGated tr)
    (he : x.isXfer = true → ∃ pre' w, tr = pre' ++ [w] ∧ w.endsWait = true) : traceGated (tr ++ [x]) := by
  intro pre e post heq hx
  rcases List.eq_nil_or_concat post with rfl | ⟨post', y, rfl⟩
  · have h2 := List.append_inj_right' heq rfl
    have h1 := List.append_inj_left' heq rfl
    simp at h2; subst h2; subst h1; exact he hx
  · have heq' : tr ++ [x] = (pre ++ e :: post') ++ [y] := by simpa using heq
    exact h pre e post' (List.append_inj_left' heq' rfl) hx

/-- A frame that a legal Body asks for is one the controller may send. -/
theorem job_legal (s : State) (op : Opcode) (j : Job) (hj : stmtOk s.cfg op (.frame j)) :
    ∀ x, frameOf s.cfg (j.instr s) = some x → frameLegal s.cfg x.ch x.bytes := by
  intro x hx
  cases j <;> simp [frameOf, Job.instr, encode] at hx <;> subst hx
  · exact .inl ⟨_, _, rfl⟩
  · exact .inr ⟨_, rfl⟩
  · exact .inr ⟨_, rfl⟩
  · exact .inr ⟨_, rfl⟩
  · exact .inr ⟨_, rfl⟩
  · obtain ⟨-, hj⟩ := hj; simpa [frameLegal, chunkOk, chunkBytes] using hj

/-! ### The chip selects over one action of a procedure -/

theorem callStep_select (s : State) (k : Call) (h : SelectInv s) (hk : s.call = some k) :
    SelectInv (tick (callStep k s)) := by
  cases k with
  | sample n t =>
    have : s.csCtrl = false ∧ s.csData = false := by simpa [SelectInv, hk] using h
    cases n with
    | zero => cases t <;> simp [callStep, afterWait, SelectInv, this]
    | succ n =>
      simp only [callStep]; split
      · cases t <;> simp [afterWait, SelectInv, this]
      · simp [SelectInv, this]
  | pollDelay n t =>
    have : s.csCtrl = false ∧ s.csData = false := by simpa [SelectInv, hk] using h
    simp [callStep, SelectInv, this]
  | select t =>
    have : s.csCtrl = false ∧ s.csData = false := by simpa [SelectInv, hk] using h
    obtain ⟨ch, b⟩ := t
    cases ch <;> simp [callStep, SelectInv, setSelect, this]
  | shift t =>
    have h1 := h
    simp only [SelectInv, hk] at h1
    obtain ⟨ch, b⟩ := t
    cases ch <;> simp [callStep, SelectInv, xfer, setSelect, h1]

end Sys2Proof.Machine
end

