-- ==== Sys2Proof/Laws/Outcome.lean ====
section
/-! SUPPORT. What a run of a command can do, whatever lands meanwhile: the principle by which it keeps a property, an
advance by cases, what an advance leaves, and the two outcomes of an accepted command. -/

namespace Sys2Proof.Machine

/-- A command's meaning keeps a property that its three outcomes and every advance keep. -/
theorem exec_keeps {P : State → Prop} {i : Instr} {e : Entry} (he : entryOf i = some e) {s t : State}
    (hx : exec i s = .next t) (hign : s.busy = true → P (ignoredWrite s))
    (hwrong : s.busy = false → allowed e.op s.fsm s.hdr = false →
      P (complete .wrongState 0 { s with cmd := e.word, busy := true }))
    (hstart : s.busy = false → allowed e.op s.fsm s.hdr = true → P (e.start s))
    (hadv : ∀ u c, P u → u.cur = some c → P (advance u)) : P t := by
  rw [exec_entry he, Host.Outcome.next.injEq] at hx
  exact hx ▸ launch_keeps e hign hwrong hstart hadv

/-- An advance by cases: the procedure in progress, the end of the Body, or its next statement. -/
theorem advance_cases {Q : State → Prop} (s : State) (c : Cursor) (hc : s.cur = some c)
    (hcall : ∀ k, s.call = some k → Q (finishCall s))
    (hend : s.call = none → c.body = [] → Q (finish c.op .ok 0 s))
    (hst : s.call = none → ∀ st rest, c.body = st :: rest → Q (advanceStmt c.op st rest s)) : Q (advance s) := by
  unfold advance
  split
  · exact hcall _ ‹_›
  · rw [hc]
    obtain ⟨op, body⟩ := c
    cases body with
    | nil => exact hend ‹_› rfl
    | cons st rest => exact hst ‹_› _ _ rfl

/-! ### What an advance leaves -/

/-- The command in progress stays the same command. -/
theorem advance_op (s : State) (c : Cursor) (hc : s.cur = some c) : ∀ d, (advance s).cur = some d → d.op = c.op := by
  apply advance_cases (Q := fun u => ∀ d, u.cur = some d → d.op = c.op) s c hc
  · intro k _ d hd; simp [hc] at hd; rw [hd]
  · intro _ _ d hd; simp [finish] at hd
  · intro _ st rest _ d hd
    cases st <;> simp only [advanceStmt] at hd
    · simp at hd; rw [← hd]
    · simp at hd; rw [← hd]
    · simp at hd; rw [← hd]
    · split at hd
      · simp [hc] at hd; rw [hd]
      · simp at hd; rw [← hd]
    · split at hd
      · simp [hc] at hd; rw [hd]
      · unfold takeAnswer at hd; split at hd <;> simp at hd <;> rw [← hd]
    · simp [finish] at hd

/-- An advance either completes the command or leaves STATE, HDR, INIT and BUSY, the same command in progress. -/
theorem advance_or_finish (u : State) (c : Cursor) (hc : u.cur = some c) (hB : BodyOk u) :
    (∃ code r, advance u = finish c.op code r u ∧ stmtOk u.cfg c.op (.finish code r)) ∨
    ((∃ d, (advance u).cur = some d ∧ d.op = c.op) ∧ (advance u).fsm = u.fsm ∧ (advance u).hdr = u.hdr
      ∧ (advance u).initFlag = u.initFlag ∧ (advance u).busy = u.busy) := by
  apply advance_cases (Q := fun t => (∃ code r, t = finish c.op code r u ∧ stmtOk u.cfg c.op (.finish code r)) ∨
    ((∃ d, t.cur = some d ∧ d.op = c.op) ∧ t.fsm = u.fsm ∧ t.hdr = u.hdr ∧ t.initFlag = u.initFlag
      ∧ t.busy = u.busy)) u c hc
  · intro k _; right; exact ⟨⟨c, by simp [hc]⟩, by simp, by simp, by simp, by simp⟩
  · intro _ _; left; exact ⟨.ok, 0, rfl, .inl rfl⟩
  · intro _ st rest hb
    have hst := hB _ hc st (by simp [hb])
    cases st <;> simp only [advanceStmt]
    · right; exact ⟨⟨_, setBody_cur .., rfl⟩, by simp, by simp, by simp, by simp⟩
    · right; exact ⟨⟨_, setBody_cur .., rfl⟩, by simp, by simp, by simp, by simp⟩
    · right; exact ⟨⟨_, setBody_cur .., rfl⟩, by simp, by simp, by simp, by simp⟩
    · right; split
      · exact ⟨⟨c, by simp [hc]⟩, by simp, by simp, by simp, by simp⟩
      · exact ⟨⟨_, setBody_cur .., rfl⟩, by simp, by simp, by simp, by simp⟩
    · right; split
      · exact ⟨⟨c, by simp [hc]⟩, by simp, by simp, by simp, by simp⟩
      · unfold takeAnswer; split <;> exact ⟨⟨_, setBody_cur .., rfl⟩, by simp, by simp, by simp, by simp⟩
    · left; exact ⟨_, _, rfl, hst⟩

/-- Only INIT, STOP, START_RECORD and START_DECODE change STATE as they complete (R32). -/
theorem finishFsm_fsm (op : Opcode) (code : ResultCode) (s : State)
    (h : op ≠ .init ∧ op ≠ .stop ∧ op ≠ .startRecord ∧ op ≠ .startDecode) : (finishFsm op code s).fsm = s.fsm := by
  obtain ⟨h1, h2, h3, h4⟩ := h
  cases op <;> cases code <;> simp_all [finishFsm]

/-- Only START_DECODE and EMIT_HEADER change HDR as they complete (R45). -/
theorem finishFsm_hdr (op : Opcode) (code : ResultCode) (s : State) (h : op ≠ .startDecode ∧ op ≠ .emitHeader) :
    (finishFsm op code s).hdr = s.hdr := by
  obtain ⟨h1, h2⟩ := h
  cases op <;> cases code <;> simp_all [finishFsm]

/-- Only INIT changes INIT (R46). -/
theorem finishFsm_initFlag (op : Opcode) (code : ResultCode) (s : State) (h : op ≠ .init) :
    (finishFsm op code s).initFlag = s.initFlag := by
  cases op <;> cases code <;> simp_all [finishFsm]

theorem advance_fsm (s : State) (c : Cursor) (hc : s.cur = some c) (hB : BodyOk s)
    (h : c.op ≠ .init ∧ c.op ≠ .stop ∧ c.op ≠ .startRecord ∧ c.op ≠ .startDecode) : (advance s).fsm = s.fsm := by
  rcases advance_or_finish s c hc hB with ⟨code, r, hf, -⟩ | ⟨-, h1, -⟩
  · rw [hf]; exact finishFsm_fsm c.op code s h
  · exact h1

theorem advance_hdr (s : State) (c : Cursor) (hc : s.cur = some c) (hB : BodyOk s)
    (h : c.op ≠ .startDecode ∧ c.op ≠ .emitHeader) : (advance s).hdr = s.hdr := by
  rcases advance_or_finish s c hc hB with ⟨code, r, hf, -⟩ | ⟨-, -, h1, -⟩
  · rw [hf]; exact finishFsm_hdr c.op code s h
  · exact h1

theorem advance_initFlag (s : State) (c : Cursor) (hc : s.cur = some c) (hB : BodyOk s) (h : c.op ≠ .init) :
    (advance s).initFlag = s.initFlag := by
  rcases advance_or_finish s c hc hB with ⟨code, r, hf, -⟩ | ⟨-, -, -, h1, -⟩
  · rw [hf]; exact finishFsm_initFlag c.op code s h
  · exact h1

/-- Only INIT drives RESET_N (R48, R176). -/
theorem advance_resetN (s : State) (c : Cursor) (hc : s.cur = some c) (hB : BodyOk s) (h : c.op ≠ .init) :
    (advance s).resetN = s.resetN := by
  apply advance_cases (Q := fun u => u.resetN = s.resetN) s c hc
  · simp
  · intro _ _; simp [finish]
  · intro _ st rest hb
    have hst := hB _ hc st (by simp [hb])
    cases st <;> simp only [advanceStmt]
    · simp
    · exact absurd hst h
    · simp
    · split <;> simp
    · split
      · simp
      · unfold takeAnswer; split <;> simp
    · simp [finish]

/-- Only READ_BLOCK writes BUF (R40). -/
theorem advance_buf (s : State) (c : Cursor) (hc : s.cur = some c) (hB : BodyOk s) (h : c.op ≠ .readBlock) :
    (advance s).buf = s.buf := by
  apply advance_cases (Q := fun u => u.buf = s.buf) s c hc
  · simp
  · intro _ _; simp [finish]
  · intro _ st rest hb
    have hst := hB _ hc st (by simp [hb])
    cases st <;> simp only [advanceStmt]
    · simp
    · simp
    · simp
    · split <;> simp
    · rename_i j
      split
      · simp
      · unfold takeAnswer; split
        · simp
        · cases j <;> simp [storeAnswer]
          exact absurd hst.1 h
        · simp
        · simp
    · simp [finish]

/-- No advance writes HDRBUF: EMIT_HEADER does, before its first primitive. -/
theorem advance_hdrbuf (s : State) : (advance s).hdrbuf = s.hdrbuf := by
  unfold advance
  repeat' split
  all_goals try simp [finish]
  unfold advanceStmt takeAnswer
  repeat' split
  all_goals simp [finish]

/-! ### An accepted command -/

/-- What a Body's start changes of STATE, HDR and BUSY (R133, R220, R230). -/
theorem start_control {i : Instr} {e : Entry} (he : entryOf i = some e) (s : State) :
    (e.start s).fsm = (if e.op = .init then .reset else s.fsm)
      ∧ (e.start s).hdr = (if e.op = .init ∨ e.op = .stop then false else s.hdr) ∧ (e.start s).busy = true
      ∧ (e.start s).cfg = s.cfg := by
  cases i <;> simp [entryOf] at he <;> subst he <;> simp [Entry.start, initEnter, stopEnter, enterPlain]

/-- What an accepted command's run leaves: a Body still in progress, or one completion. -/
theorem exec_outcome {i : Instr} {e : Entry} (he : entryOf i = some e) {s t : State} (hb : s.busy = false)
    (ha : allowed e.op s.fsm s.hdr = true) (hx : exec i s = .next t) :
    ∃ u : State, u.fsm = (e.start s).fsm ∧ u.hdr = (e.start s).hdr ∧ u.busy = (e.start s).busy ∧ u.cfg = s.cfg ∧
      ((t = u ∧ ∃ d, t.cur = some d ∧ d.op = e.op)
        ∨ ∃ code r, t = finish e.op code r u ∧ stmtOk s.cfg e.op (.finish code r)) := by
  have key := exec_keeps (P := fun t => BodyOk t ∧ t.cfg = s.cfg ∧ (∀ c, t.cur = some c → c.op = e.op) ∧
      ∃ u : State, u.fsm = (e.start s).fsm ∧ u.hdr = (e.start s).hdr ∧ u.busy = (e.start s).busy ∧ u.cfg = s.cfg ∧
        ((t = u ∧ ∃ d, t.cur = some d ∧ d.op = e.op)
          ∨ ∃ code r, t = finish e.op code r u ∧ stmtOk s.cfg e.op (.finish code r)))
    he hx (by simp [hb]) (by simp [ha]) ?_ ?_
  · exact key.2.2.2
  · intro _ _
    have hcfg := (start_control he s).2.2.2
    refine ⟨start_body s i e he, hcfg, ?_, e.start s, rfl, rfl, rfl, hcfg, .inl ⟨rfl, _, rfl, rfl⟩⟩
    intro c hc; simp [Entry.start] at hc; rw [← hc]
  · rintro u c ⟨hB, hcfg, hop, v, h1, h2, h3, hc2, h4⟩ hc
    have ho := hop c hc
    refine ⟨advance_body u c hB hc, by simpa using hcfg, fun d hd => (advance_op u c hc d hd).trans ho, ?_⟩
    rcases h4 with ⟨rfl, d, hd, hdo⟩ | ⟨code, r, rfl, _⟩
    · rcases advance_or_finish u c hc hB with ⟨code, r, hf, hs⟩ | ⟨⟨d, hd, hdo⟩, g1, g2, -, g3⟩
      · exact ⟨u, h1, h2, h3, hc2, .inr ⟨code, r, ho ▸ hf, by rw [← hcfg]; exact ho ▸ hs⟩⟩
      · exact ⟨advance u, g1.trans h1, g2.trans h2, g3.trans h3, by simpa using hc2, .inl ⟨rfl, d, hd, hdo.trans ho⟩⟩
    · simp [finish] at hc

end Sys2Proof.Machine
end

