-- ==== Sys2Proof/Laws/PerInstr.lean ====
section
/-! SUPPORT. One family of statements made per instruction. FrameLength: what an instruction is encoded as has the
length and the first byte that spec/30_encoding.md R105 to R109 give it. -/

namespace Sys2Proof.Laws.FrameLength

/-- A well-formed instruction is one CMD word, or a control frame of 4 bytes that starts with WRITE_OP or READ_OP, or
a data chunk of 1 to 32 bytes. -/
def Statement (i : Instr) : Prop :=
  i.wf = true → ∀ p : Params,
    match encode p i with
    | .cmd _ => True
    | .frame .ctrl bytes => bytes.length = ctrlFrameLen ∧ (bytes.head? = some p.writeOp ∨ bytes.head? = some p.readOp)
    | .frame .data bytes => 1 ≤ bytes.length ∧ bytes.length ≤ chunkMax

theorem init (ign : BitVec 24) : Statement (.init ign) := fun _ _ => trivial
theorem regWrite (r : Byte) (v : Half) : Statement (.regWrite r v) := fun _ _ => trivial
theorem regRead (r : Byte) (ign : Half) : Statement (.regRead r ign) := fun _ _ => trivial
theorem bulkWrite (ign : BitVec 24) : Statement (.bulkWrite ign) := fun _ _ => trivial
theorem startRecord (ign : BitVec 24) : Statement (.startRecord ign) := fun _ _ => trivial
theorem readBlock (ign : BitVec 24) : Statement (.readBlock ign) := fun _ _ => trivial
theorem startDecode (ign : BitVec 24) : Statement (.startDecode ign) := fun _ _ => trivial
theorem emitHeader (ign : BitVec 24) : Statement (.emitHeader ign) := fun _ _ => trivial
theorem writeBlock (ign : BitVec 24) : Statement (.writeBlock ign) := fun _ _ => trivial
theorem stop (ign : BitVec 24) : Statement (.stop ign) := fun _ _ => trivial
theorem ctrlWrite (r : Byte) (v : Half) : Statement (.ctrlWrite r v) := fun _ _ => ⟨rfl, .inl rfl⟩
theorem ctrlRead (r : Byte) : Statement (.ctrlRead r) := fun _ _ => ⟨rfl, .inr rfl⟩
theorem dataChunk (payload : List Byte) : Statement (.dataChunk payload) := fun h p => by
  simpa [encode, Instr.wf] using h

end Sys2Proof.Laws.FrameLength
end

