-- ==== Sys2Proof/Laws/Runs.lean ====
section
/-! SUPPORT. Runs of the pseudocode of Machine/Reference.lean: a wait that finds DREQ ready or never does, a frame
that is answered Ok, what any frame leaves, the chunks of a transfer and the words of a drain. -/

namespace Sys2Proof.Machine

/-! ### The wait, the Xfer and the frame under a known tape -/

/-- DREQ ready on the sample after k not-ready ones (R162). -/
theorem waitReadyRef_ready (k p : Nat) (d : List Bool) {s : State} (hk : k < p)
    (hd : s.dev.dreq = List.replicate k false ++ true :: d) :
    waitReadyRef p s = { s with
      dev := { s.dev with dreq := d }
      trace := s.trace ++ (List.replicate k [.ready false, .delay s.cfg.pollIntervalTicks]).flatten
        ++ [.ready true] } := by
  induction k generalizing p s with
  | zero =>
    obtain ⟨p, rfl⟩ : ∃ q, p = q + 1 := ⟨p - 1, by omega⟩
    simp at hd
    simp [waitReadyRef, sampleAnswer, sampleReady, hd]
  | succ k ih =>
    obtain ⟨p, rfl⟩ : ∃ q, p = q + 1 := ⟨p - 1, by omega⟩
    have hd' : s.dev.dreq = false :: (List.replicate k false ++ true :: d) := by rw [hd]; rfl
    have e : sampleReady s = { s with
        dev := { s.dev with dreq := List.replicate k false ++ true :: d }, trace := s.trace ++ [.ready false] } := by
      simp [sampleReady, hd']
    simp only [waitReadyRef]
    rw [if_neg (by simp [sampleAnswer, hd']), ih p (by omega) (by rw [e]; rfl), e]
    simp [delayFor, State.emit, List.replicate_succ]

/-- DREQ never ready (R161). -/
theorem waitReadyRef_timeout (p : Nat) (d : List Bool) {s : State} (hd : s.dev.dreq = List.replicate p false ++ d) :
    waitReadyRef p s = { s with
      dev := { s.dev with dreq := d }
      tmo := true
      tmoCount := satSucc s.tmoCount
      trace := s.trace ++ (List.replicate p [.ready false, .delay s.cfg.pollIntervalTicks]).flatten
        ++ [.timeout] } := by
  induction p generalizing s with
  | zero =>
    simp at hd
    simp [waitReadyRef, timeoutFlags, State.emit]
    rw [← hd]
  | succ k ih =>
    have hd' : s.dev.dreq = false :: (List.replicate k false ++ d) := by rw [hd]; rfl
    have e : sampleReady s = { s with
        dev := { s.dev with dreq := List.replicate k false ++ d }, trace := s.trace ++ [.ready false] } := by
      simp [sampleReady, hd']
    simp only [waitReadyRef]
    rw [if_neg (by simp [sampleAnswer, hd']), ih (by rw [e]; rfl), e]
    simp [delayFor, State.emit, List.replicate_succ]

theorem xferAnswer_ok {n : Nat} {s : State} {rx : List Byte} {xs : List Reply} (h : s.dev.xfers = .ok rx :: xs)
    (hl : rx.length = n) : xferAnswer n s = .ok rx := by
  simp [xferAnswer, h, fitBytes, hl]

theorem xferDraws_ok {n : Nat} {s : State} {rx : List Byte} {xs : List Reply} (h : s.dev.xfers = .ok rx :: xs)
    (hl : rx.length = n) : xferDraws n s = 0 := by
  simp [xferDraws, h, hl]

theorem xfer_ok (t : Transaction) {s : State} {rx : List Byte} {xs : List Reply} (h : s.dev.xfers = .ok rx :: xs)
    (hl : rx.length = t.bytes.length) :
    xfer t s = setSelect t.ch false { s with
      dev := { s.dev with xfers := xs }, trace := s.trace ++ [.xfer t.ch t.bytes (.ok rx)] } := by
  unfold xfer
  rw [xferAnswer_ok h hl, xferDraws_ok h hl]
  simp [h]

/-- A frame with DREQ ready and an Ok answer. -/
theorem frameRef_ready (t : Transaction) {s : State} {d : List Bool} {rx : List Byte} {xs : List Reply}
    {cs : List Bool} (h1 : 1 ≤ s.cfg.readyPolls) (hl : rx.length = t.bytes.length)
    (hd : s.dev = ⟨true :: d, .ok rx :: xs, cs⟩) :
    frameAnswerRef t s = .ok rx
      ∧ frameRef t s = setSelect t.ch false { s with
          dev := ⟨d, xs, cs⟩, trace := s.trace ++ [.ready true, .xfer t.ch t.bytes (.ok rx)] } := by
  have h1 := waitReadyRef_ready 0 s.cfg.readyPolls d (s := s) (by omega) (by rw [hd]; rfl)
  have hx : (waitReadyRef s.cfg.readyPolls s).dev.xfers = .ok rx :: xs := by simp [hd]
  refine ⟨xferAnswer_ok hx hl, ?_⟩
  rw [frameRef, xfer_ok _ hx hl, h1]
  simp [hd]

/-- A frame asked for alone, no host access landing (R160). -/
theorem sendFrame_quiet {s : State} (t : Transaction) (hc : s.call = none) (hq : s.quiet = true) :
    sendFrame t s = .next { frameRef t s with ret := some (.reply (frameAnswerRef t s)) } := by
  have h1 := transact_frame_quiet hq t s.cur s.call s.ret
  rw [State.at'_self] at h1
  have h2 : (frameRef t s).cur = s.cur := by simp [frameRef]
  have h3 : (frameRef t s).call = none := by simp [frameRef, hc]
  unfold sendFrame
  rw [hc]
  simp only [h1, State.at']
  rw [← h2, ← h3]

/-! ### What any frame leaves -/

theorem frameRef_trace (t : Transaction) (s : State) :
    (frameRef t s).trace
      = (waitReadyRef s.cfg.readyPolls s).trace ++ [.xfer t.ch t.bytes (frameAnswerRef t s)] := by
  obtain ⟨ch, b⟩ := t
  cases ch <;> simp [frameRef, xfer, setSelect, frameAnswerRef]

theorem frameRef_xfers (t : Transaction) (s : State) : (frameRef t s).dev.xfers = s.dev.xfers.tail := by
  obtain ⟨ch, b⟩ := t
  cases ch <;> simp [frameRef, xfer, setSelect]

theorem frameAnswerRef_ok {t : Transaction} {s : State} {rx : List Byte} {xs : List Reply}
    (h : s.dev.xfers = .ok rx :: xs) (hl : rx.length = t.bytes.length) : frameAnswerRef t s = .ok rx :=
  xferAnswer_ok (by rw [waitReadyRef_xfers]; exact h) hl

/-- A failed answer sets BERR (R139). -/
theorem frameRef_berr (t : Transaction) (s : State) (h : frameAnswerRef t s = .busErr) :
    (frameRef t s).berr = true := by
  obtain ⟨ch, b⟩ := t
  unfold frameAnswerRef at h
  cases ch <;> simp_all [frameRef, xfer, setSelect]

/-- The answer to an Xfer has as many bytes as it sent (R13). -/
theorem frameAnswerRef_length {t : Transaction} {u : State} {rx : List Byte} (h : frameAnswerRef t u = .ok rx) :
    rx.length = t.bytes.length := by
  have hf : ∀ n rx d, (fitBytes n rx d).length = n := by intro n rx d; simp [fitBytes]; omega
  unfold frameAnswerRef xferAnswer at h
  split at h
  · simp at h
  · simp only [Reply.ok.injEq] at h; rw [← h, hf]
  · split at h <;> simp only [Reply.ok.injEq, reduceCtorEq] at h; rw [← h, hf]

/-- The events of a wait: none is an Xfer, and none a failed answer. -/
def waits (ev : List Event) : Prop := ∀ e ∈ ev, e.isXfer = false ∧ e.failed = false

theorem waitReadyRef_events (n : Nat) (u : State) : ∃ ev, (waitReadyRef n u).trace = u.trace ++ ev ∧ waits ev := by
  apply waitReadyRef_ind (P := fun v => ∃ ev, v.trace = u.trace ++ ev ∧ waits ev)
  · rintro v ⟨ev, h, hw⟩
    refine ⟨ev ++ [.ready (sampleAnswer v)], by simp [h], fun e he => ?_⟩
    rcases List.mem_append.1 he with he | he
    · exact hw e he
    · rw [List.mem_singleton.1 he]; exact ⟨rfl, rfl⟩
  · rintro v t ⟨ev, h, hw⟩
    refine ⟨ev ++ [.delay t], by simp [h], fun e he => ?_⟩
    rcases List.mem_append.1 he with he | he
    · exact hw e he
    · rw [List.mem_singleton.1 he]; exact ⟨rfl, rfl⟩
  · rintro v ⟨ev, h, hw⟩
    refine ⟨ev ++ [.timeout], by simp [h], fun e he => ?_⟩
    rcases List.mem_append.1 he with he | he
    · exact hw e he
    · rw [List.mem_singleton.1 he]; exact ⟨rfl, rfl⟩
  · exact ⟨[], by simp, by simp [waits]⟩

theorem waits_failed {ev : List Event} (h : waits ev) : ev.any Event.failed = false := by
  rw [List.any_eq_false]; intro e he; simp [(h e he).2]

/-- The events of a frame: a wait, then its Xfer. -/
theorem frameRef_events (t : Transaction) (u : State) :
    ∃ ev, (frameRef t u).trace = u.trace ++ (ev ++ [.xfer t.ch t.bytes (frameAnswerRef t u)]) ∧ waits ev := by
  obtain ⟨ev, h, hw⟩ := waitReadyRef_events u.cfg.readyPolls u
  exact ⟨ev, by rw [frameRef_trace, h, List.append_assoc], hw⟩

/-- What the primitives of a Body leave: STATE, INIT and the parameters. -/
structure Kept (u v : State) : Prop where
  fsm : v.fsm = u.fsm
  cfg : v.cfg = u.cfg
  init : v.initFlag = u.initFlag

theorem Kept.trans {u v w : State} (h : Kept u v) (k : Kept v w) : Kept u w :=
  ⟨k.fsm.trans h.fsm, k.cfg.trans h.cfg, k.init.trans h.init⟩

theorem waitReadyRef_kept (n : Nat) (u : State) : Kept u (waitReadyRef n u) := ⟨by simp, by simp, by simp⟩

theorem frameRef_kept (t : Transaction) (u : State) : Kept u (frameRef t u) :=
  ⟨by simp [frameRef], by simp [frameRef], by simp [frameRef]⟩

/-- Primitives have been done, and none has failed. -/
structure After (u v : State) : Prop extends Kept u v where
  trace : ∃ ev, v.trace = u.trace ++ ev ∧ ev.any Event.failed = false

theorem After.refl (u : State) : After u u := ⟨⟨rfl, rfl, rfl⟩, [], by simp, rfl⟩

theorem After.trans {u v w : State} (h : After u v) (k : After v w) : After u w := by
  obtain ⟨a, ha, fa⟩ := h.trace
  obtain ⟨b, hb, fb⟩ := k.trace
  exact ⟨h.toKept.trans k.toKept, a ++ b, by rw [hb, ha]; simp, by simp [fa, fb]⟩

theorem waitReadyRef_after (n : Nat) (u : State) : After u (waitReadyRef n u) := by
  obtain ⟨ev, h, hw⟩ := waitReadyRef_events n u
  exact ⟨waitReadyRef_kept n u, ev, h, waits_failed hw⟩

theorem frameRef_after {t : Transaction} {u : State} {rx : List Byte} (h : frameAnswerRef t u = .ok rx) :
    After u (frameRef t u) := by
  obtain ⟨ev, he, hw⟩ := frameRef_events t u
  exact ⟨frameRef_kept t u, _, he, by rw [h]; simp [waits_failed hw, Event.failed]⟩

/-- The last primitive has failed, and none before it since u: BERR is set, and the trace says so. -/
structure Failed (u v : State) : Prop extends Kept u v where
  berr : v.berr = true
  trace : ∃ ev, v.trace = u.trace ++ ev ∧ failsLast ev

theorem failsLast_append {a b : List Event} (ha : a.any Event.failed = false) (hb : failsLast b) :
    failsLast (a ++ b) := by
  obtain ⟨pre, e, rfl, hp, he⟩ := hb
  exact ⟨a ++ pre, e, by simp, by simp [ha, hp], he⟩

theorem failsLast_any {ev : List Event} (h : failsLast ev) : ev.any Event.failed = true := by
  obtain ⟨pre, e, rfl, -, he⟩ := h
  simp [he]

theorem After.failed {u v w : State} (h : After u v) (k : Failed v w) : Failed u w := by
  obtain ⟨a, ha, fa⟩ := h.trace
  obtain ⟨b, hb, hf⟩ := k.trace
  exact ⟨h.toKept.trans k.toKept, k.berr, a ++ b, by rw [hb, ha]; simp, failsLast_append fa hf⟩

theorem frameRef_failed {t : Transaction} {u : State} (h : frameAnswerRef t u = .busErr) : Failed u (frameRef t u) := by
  obtain ⟨ev, he, hw⟩ := frameRef_events t u
  exact ⟨frameRef_kept t u, frameRef_berr t u h, _, he, ev, _, rfl, waits_failed hw, by rw [h]; rfl⟩

/-- A register write goes on or fails; what holds of both holds of it. -/
theorem regWrRef_ind {Q : State → Prop} {r : Byte} {x : Half} {f g : State → State} {u : State}
    (hf : ∀ v, Failed u v → Q (f v)) (hg : ∀ v, After u v → Q (g v)) : Q (regWrRef r x f g u) := by
  unfold regWrRef
  split
  · exact hf _ (frameRef_failed ‹_›)
  · exact hg _ (frameRef_after ‹_›)

/-- A register read goes on with its answer or fails. -/
theorem regRdRef_ind {Q : State → Prop} {r : Byte} {f : State → State} {g : Half → State → State} {u : State}
    (hf : ∀ v, Failed u v → Q (f v))
    (hg : ∀ rx v, v = frameRef ⟨.ctrl, readFrame u.cfg r⟩ u →
      frameAnswerRef ⟨.ctrl, readFrame u.cfg r⟩ u = .ok rx → Q (g (readValue rx) v)) : Q (regRdRef r f g u) := by
  unfold regRdRef
  split
  · exact hf _ (frameRef_failed ‹_›)
  · exact hg _ _ rfl ‹_›

/-- SendData goes on or fails. -/
theorem sendDataRef_ind {Q : State → Prop} {src : Source} {len : Nat} {f g : State → State} (m c : Nat) {u : State}
    (hf : ∀ v, Failed u v → Q (f v)) (hg : ∀ v, After u v → Q (g v)) :
    Q (sendDataRef src len f g m c u) := by
  induction m generalizing c u with
  | zero => exact hg _ (.refl u)
  | succ m ih =>
    simp only [sendDataRef]
    have hl : After u ((Job.chunk src (chunkMax * c) (min chunkMax (len - chunkMax * c))).load u) :=
      ⟨⟨rfl, rfl, rfl⟩, [], by simp, rfl⟩
    split
    · exact hf _ (hl.failed (frameRef_failed ‹_›))
    · have ha := hl.trans (frameRef_after ‹_›)
      exact ih _ (fun v h => hf v (ha.failed h)) (fun v h => hg v (ha.trans h))

/-! ### What traces show, event by event -/

theorem dataChunks_append (a b : List Event) : dataChunks (a ++ b) = dataChunks a ++ dataChunks b := by
  induction a with
  | nil => rfl
  | cons e a ih => cases e <;> simp [dataChunks, ih]; rename_i ch _ _; cases ch <;> simp [dataChunks, ih]

theorem ctrlFrames_append (a b : List Event) : ctrlFrames (a ++ b) = ctrlFrames a ++ ctrlFrames b := by
  induction a with
  | nil => rfl
  | cons e a ih => cases e <;> simp [ctrlFrames, ih]; rename_i ch _ _; cases ch <;> simp [ctrlFrames, ih]

theorem okAnswers_append (a b : List Event) : okAnswers (a ++ b) = okAnswers a ++ okAnswers b := by
  induction a with
  | nil => rfl
  | cons e a ih =>
    cases e <;> simp [okAnswers, ih]; rename_i ch _ r; cases ch <;> cases r <;> simp [okAnswers, ih]

theorem waits_sends {ev : List Event} (h : waits ev) : dataChunks ev = [] ∧ ctrlFrames ev = [] ∧ okAnswers ev = [] := by
  induction ev with
  | nil => exact ⟨rfl, rfl, rfl⟩
  | cons e ev ih =>
    have := ih fun x hx => h x (List.mem_cons_of_mem _ hx)
    have he := (h e (List.mem_cons_self ..)).1
    cases e <;> simp_all [Event.isXfer, dataChunks, ctrlFrames, okAnswers]

/-- A wait sends nothing. -/
theorem waitReadyRef_dataChunks (n : Nat) (s : State) :
    dataChunks (waitReadyRef n s).trace = dataChunks s.trace := by
  obtain ⟨ev, h, hw⟩ := waitReadyRef_events n s
  rw [h, dataChunks_append, (waits_sends hw).1, List.append_nil]

theorem frameRef_dataChunks (b : List Byte) (s : State) :
    dataChunks (frameRef ⟨.data, b⟩ s).trace = dataChunks s.trace ++ [b] := by
  rw [frameRef_trace, dataChunks_append, waitReadyRef_dataChunks]; rfl

/-! ### Chunks -/

/-- n chunks from chunk c are 32 n bytes from byte 32 c, as far as there are any. -/
theorem flatten_chunks (bs : List Byte) (c n : Nat) :
    ((List.range' c n).map fun c => (bs.drop (chunkMax * c)).take chunkMax).flatten
      = (bs.drop (chunkMax * c)).take (chunkMax * n) := by
  induction n generalizing c with
  | zero => simp
  | succ n ih =>
    rw [List.range'_succ, List.map_cons, List.flatten_cons, ih,
      show chunkMax * (n + 1) = chunkMax + chunkMax * n by simp [chunkMax]; omega, List.take_add, List.drop_drop,
      show chunkMax * c + chunkMax = chunkMax * (c + 1) by simp [chunkMax]; omega]

theorem chunksOf_get (bs : List Byte) (c : Nat) (h : c < (bs.length + 31) / 32) :
    (chunksOf bs)[c]? = some ((bs.drop (32 * c)).take 32) := by
  simp [chunksOf, chunkCount, chunkMax, h]

theorem chunksOf_length (bs : List Byte) : (chunksOf bs).length = (bs.length + 31) / 32 := by
  simp [chunksOf, chunkCount, chunkMax]

/-- The chunks joined are the bytes. -/
theorem chunksOf_flatten (bs : List Byte) : (chunksOf bs).flatten = bs := by
  unfold chunksOf
  rw [List.range_eq_range', flatten_chunks]
  simp only [chunkMax, chunkCount, Nat.mul_zero, List.drop_zero]
  exact List.take_of_length_le (by omega)

theorem chunksOf_nil : chunksOf [] = [] := rfl

/-- A first chunk, full or alone, and the chunks of the rest. -/
theorem chunksOf_cons (a bs : List Byte) (h1 : 1 ≤ a.length) (h2 : a.length = 32 ∨ a.length ≤ 32 ∧ bs = []) :
    chunksOf (a ++ bs) = a :: chunksOf bs := by
  apply List.ext_getElem?
  intro i
  have hl : (chunksOf (a ++ bs)).length = (chunksOf bs).length + 1 := by
    rw [chunksOf_length, chunksOf_length, List.length_append]
    rcases h2 with h2 | ⟨h2, rfl⟩
    · omega
    · simp only [List.length_nil]; omega
  cases i with
  | zero =>
    rw [chunksOf_get _ _ (by rw [← chunksOf_length, hl]; omega), List.getElem?_cons_zero]
    rcases h2 with h2 | ⟨h2, rfl⟩
    · simp [← h2]
    · simp [List.take_of_length_le h2]
  | succ i =>
    rw [List.getElem?_cons_succ]
    by_cases hi : i < (chunksOf bs).length
    · rw [chunksOf_get _ _ (by rw [← chunksOf_length, hl]; omega), chunksOf_get _ _ (by rwa [← chunksOf_length])]
      rcases h2 with h2 | ⟨h2, rfl⟩
      · rw [show 32 * (i + 1) = a.length + 32 * i by omega, List.drop_append,
          List.drop_eq_nil_of_le (by omega), List.nil_append, Nat.add_sub_cancel_left]
      · simp [chunksOf_nil] at hi
    · rw [List.getElem?_eq_none (by omega), List.getElem?_eq_none (by omega)]

/-- The length of chunk c of a transfer (R171). -/
theorem chunksOf_chunk (bs : List Byte) {c : Nat} {chunk : List Byte} (h : (chunksOf bs)[c]? = some chunk) :
    c < (bs.length + 31) / 32 ∧ chunk.length = min 32 (bs.length - 32 * c) := by
  have hc : c < (bs.length + 31) / 32 := by
    have := (List.getElem?_eq_some_iff.1 h).1
    rwa [chunksOf_length] at this
  rw [chunksOf_get _ _ hc, Option.some.injEq] at h
  exact ⟨hc, by rw [← h]; simp⟩

/-- Bytes read give those that the memory holds. -/
theorem Memory.readAll_gives (m : Memory) (a d n i : Nat) (v : Byte) (hi : i < n) (h : m.read? (a + i) = some v) :
    (m.readAll a d n).1[i]? = some v := by
  induction n generalizing a d i with
  | zero => omega
  | succ n ih =>
    cases i with
    | zero => rw [Nat.add_zero] at h; simp [Memory.readAll, h]
    | succ i =>
      have := fun d => ih (a + 1) d i (by omega) (by rw [← h]; congr 1; omega)
      simp only [Memory.readAll]
      split <;> simpa using this _

theorem frameRef_source (t : Transaction) (s : State) (src : Source) : (frameRef t s).source src = s.source src := by
  cases src <;> simp [frameRef, State.source]

/-- A run of SendData from chunk c, m chunks left (R170, R171): the bytes bs it takes, the events ev, and its two ends. -/
structure SendRun (src : Source) (len m c : Nat) (f g : State → State) (u t : State) (bs : List Byte) (ev : List Event) :
    Prop where
  length : bs.length = len - 32 * c
  gives : ∀ i v, i < bs.length → (u.source src).read? (32 * c + i) = some v → bs[i]? = some v
  noFrames : ctrlFrames ev = []
  none : m = 0 → ev = []
  ends : (∃ v, t = g v ∧ v.trace = u.trace ++ ev ∧ ev.any Event.failed = false ∧ dataChunks ev = chunksOf bs)
    ∨ (∃ v, t = f v ∧ v.trace = u.trace ++ ev
        ∧ (∃ k ch pre, (chunksOf bs)[k]? = some ch ∧ ev = pre ++ [.xfer .data ch .busErr]
          ∧ pre.any Event.failed = false ∧ dataChunks pre = (chunksOf bs).take k)
        ∧ ∀ (rs : List (List Byte)) (xs : List Reply), u.dev.xfers = rs.map .ok ++ xs → rs.length ≠ m)

theorem sendDataRef_run (src : Source) (len : Nat) (f g : State → State) (m c : Nat) (u : State)
    (hm : m + c = (len + 31) / 32) :
    ∃ bs ev, SendRun src len m c f g u (sendDataRef src len f g m c u) bs ev := by
  induction m generalizing c u with
  | zero =>
    exact ⟨[], [], by simp; omega, by simp, rfl, fun _ => rfl, .inl ⟨u, rfl, by simp, rfl, rfl⟩⟩
  | succ m ih =>
    have hcx : chunkMax = 32 := rfl
    simp only [sendDataRef, hcx]
    generalize hn : min 32 (len - 32 * c) = n
    have hu : ((Job.chunk src (32 * c) n).load u).source src = u.source src := by
      cases src <;> rfl
    have hcl : (chunkBytes src (32 * c) n u).length = n := by simp [chunkBytes]
    have hg : ∀ i v, i < n → (u.source src).read? (32 * c + i) = some v →
        (chunkBytes src (32 * c) n u)[i]? = some v := fun i v hi h => Memory.readAll_gives _ _ _ _ _ _ hi h
    have hlx : ((Job.chunk src (32 * c) n).load u).dev.xfers = u.dev.xfers := rfl
    have htr : ((Job.chunk src (32 * c) n).load u).trace = u.trace := rfl
    obtain ⟨wv, hev, hw⟩ := frameRef_events (chunkTransaction src (32 * c) n u) ((Job.chunk src (32 * c) n).load u)
    obtain ⟨w1, w2, -⟩ := waits_sends hw
    rw [htr] at hev
    simp only [chunkTransaction] at hev ⊢
    generalize hcb : chunkBytes src (32 * c) n u = ch at *
    cases hx : frameAnswerRef { ch := .data, bytes := ch } ((Job.chunk src (32 * c) n).load u) with
    | busErr =>
      rw [hx] at hev
      have hrest : ch.length = 32 ∨ ch.length ≤ 32 ∧ ((List.range (len - 32 * (c + 1))).map fun i =>
          ((u.source src).read? (32 * (c + 1) + i)).getD 0) = [] := by
        by_cases h : ch.length = 32
        · exact .inl h
        · exact .inr ⟨by omega, by simp; omega⟩
      refine ⟨ch ++ (List.range (len - 32 * (c + 1))).map fun i => ((u.source src).read? (32 * (c + 1) + i)).getD 0,
        wv ++ [.xfer .data ch .busErr], by simp [hcl]; omega, ?_, ?_, by omega,
        .inr ⟨_, rfl, hev, ⟨0, ch, wv, ?_, rfl, waits_failed hw, by simp [w1]⟩, ?_⟩⟩
      · intro i v hi h
        by_cases hin : i < n
        · rw [List.getElem?_append_left (by omega)]; exact hg i v hin h
        · rw [List.getElem?_append_right (by omega), hcl, List.getElem?_map, List.getElem?_range (by simp [hcl] at hi; omega)]
          have : 32 * (c + 1) + (i - n) = 32 * c + i := by simp [hcl] at hi; omega
          simp [this, h]
      · rw [ctrlFrames_append, w2]; rfl
      · rw [chunksOf_cons _ _ (by omega) hrest]; rfl
      · intro rs xs h hl
        cases rs with
        | nil => simp at hl
        | cons r rs => simp [frameAnswerRef, xferAnswer, h] at hx
    | ok rx =>
      rw [hx] at hev
      generalize hv : frameRef { ch := .data, bytes := ch } ((Job.chunk src (32 * c) n).load u) = v at *
      have hvs : v.source src = u.source src := by rw [← hv, frameRef_source, hu]
      obtain ⟨bs, ev, r⟩ := ih (c + 1) v (by omega)
      have hrest : ch.length = 32 ∨ ch.length ≤ 32 ∧ bs = [] := by
        by_cases h : ch.length = 32
        · exact .inl h
        · exact .inr ⟨by omega, List.length_eq_zero_iff.1 (by rw [r.length]; omega)⟩
      have hcons := chunksOf_cons ch bs (by omega) hrest
      have hvx : v.dev.xfers = u.dev.xfers.tail := by rw [← hv, frameRef_xfers, hlx]
      refine ⟨ch ++ bs, wv ++ [.xfer .data ch (.ok rx)] ++ ev, by simp [hcl, r.length]; omega, ?_, ?_, by omega, ?_⟩
      · intro i x hi h
        by_cases hin : i < n
        · rw [List.getElem?_append_left (by omega)]; exact hg i x hin h
        · rw [List.getElem?_append_right (by omega), hcl]
          have hb := r.length
          apply r.gives _ _ (by simp [hcl] at hi; omega)
          rw [hvs, ← h]; congr 1; simp [hcl] at hi; omega
      · rw [ctrlFrames_append, ctrlFrames_append, w2, r.noFrames]; rfl
      · have hd : ∀ ev', dataChunks (wv ++ [.xfer .data ch (.ok rx)] ++ ev') = ch :: dataChunks ev' := by
          intro ev'; rw [dataChunks_append, dataChunks_append, w1]; rfl
        rcases r.ends with ⟨x, h1, h2, h3, h4⟩ | ⟨x, h1, h2, ⟨k, ch', pre, h3, h4, h5, h6⟩, h7⟩
        · exact .inl ⟨x, h1, by rw [h2, hev]; simp, by simp [waits_failed hw, h3, Event.failed], by rw [hd, h4, hcons]⟩
        · refine .inr ⟨x, h1, by rw [h2, hev]; simp, ⟨k + 1, ch', wv ++ [.xfer .data ch (.ok rx)] ++ pre,
            by rw [hcons]; exact h3, by rw [h4]; simp, by simp [waits_failed hw, h5, Event.failed],
            by rw [hd, h6, hcons]; rfl⟩, ?_⟩
          intro rs xs h hl
          cases rs with
          | nil => simp at hl
          | cons r' rs => exact h7 rs xs (by rw [hvx, h]; rfl) (by simpa using hl)

/-! ### READ_BLOCK's drain -/

/-- The two bytes of a register value, as READ_BLOCK stores them. -/
theorem readValue_bytes {w : List Byte} (h : w.length = 4) :
    w[2]? = some (hiByte (readValue w)) ∧ w[3]? = some (loByte (readValue w)) := by
  match w, h with
  | [a, b, c, d], _ => simp [readValue]

/-- A drain of m words from word k has ended: the words ws it read with an Ok answer are stored, nothing else in BUF
has changed, and it has read them all or its next read has failed (R260). -/
structure DrainRun (n m k : Nat) (u t : State) (ws : List (List Byte)) (ev : List Event) : Prop where
  kept : Kept u t
  trace : t.trace = u.trace ++ ev
  answers : okAnswers ev = ws
  stored : ∀ i w, ws[i]? = some w →
    w.length = 4 ∧ t.buf.read? (2 * (k + i)) = w[2]? ∧ t.buf.read? (2 * (k + i) + 1) = w[3]?
  rest : ∀ j, j < 2 * k ∨ 2 * (k + ws.length) ≤ j → t.buf.read? j = u.buf.read? j
  busy : t.busy = false
  ends : (t.code = .ok ∧ t.result = BitVec.ofNat 32 (2 * n) ∧ ws.length = m ∧ ev.any Event.failed = false)
    ∨ (t.code = .busError ∧ t.result = BitVec.ofNat 32 (2 * (k + ws.length)) ∧ ws.length < m ∧ failsLast ev
        ∧ t.berr = true)

theorem drainRef_run (n m k : Nat) (u : State) : ∃ ws ev, DrainRun n m k u (drainRef n m k u) ws ev := by
  induction m generalizing k u with
  | zero =>
    exact ⟨[], [], ⟨rfl, rfl, rfl⟩, by simp [drainRef], rfl, by simp, fun _ _ => rfl, rfl, .inl ⟨rfl, rfl, rfl, rfl⟩⟩
  | succ m ih =>
    simp only [drainRef, regRdRef]
    obtain ⟨wv, hev, hw⟩ := frameRef_events { ch := .ctrl, bytes := readFrame u.cfg u.cfg.regRecData } u
    have hk := frameRef_kept { ch := .ctrl, bytes := readFrame u.cfg u.cfg.regRecData } u
    have hb : (frameRef { ch := .ctrl, bytes := readFrame u.cfg u.cfg.regRecData } u).buf = u.buf := by simp [frameRef]
    obtain ⟨-, -, wa⟩ := waits_sends hw
    cases hx : frameAnswerRef { ch := .ctrl, bytes := readFrame u.cfg u.cfg.regRecData } u with
    | busErr =>
      rw [hx] at hev
      have hf := frameRef_berr _ _ hx
      exact ⟨[], _, ⟨hk.fsm, hk.cfg, hk.init⟩, hev, by rw [okAnswers_append, wa]; rfl, by simp,
        fun j _ => by rw [complete_buf, hb], rfl,
        .inr ⟨rfl, rfl, by simp, ⟨wv, _, rfl, waits_failed hw, rfl⟩, hf⟩⟩
    | ok rx =>
      rw [hx] at hev
      have h4 : rx.length = 4 := frameAnswerRef_length hx
      obtain ⟨g1, g2⟩ := readValue_bytes h4
      generalize frameRef { ch := .ctrl, bytes := readFrame u.cfg u.cfg.regRecData } u = v at *
      obtain ⟨ws, ev, r⟩ := ih (k + 1) (storeWord k (readValue rx) v)
      have hsb : ∀ j, (storeWord k (readValue rx) v).buf.read? j
          = if j = 2 * k + 1 then rx[3]? else if j = 2 * k then rx[2]? else u.buf.read? j := by
        intro j
        simp only [storeWord, Memory.read?_write, hb, g1, g2]
      refine ⟨rx :: ws, wv ++ [.xfer .ctrl (readFrame u.cfg u.cfg.regRecData) (.ok rx)] ++ ev,
        hk.trans ⟨r.kept.fsm, r.kept.cfg, r.kept.init⟩, by rw [r.trace, storeWord_trace, hev]; simp, ?_, ?_, ?_,
        r.busy, ?_⟩
      · rw [okAnswers_append, okAnswers_append, wa, r.answers]; rfl
      · intro i w hi
        cases i with
        | zero =>
          simp only [List.getElem?_cons_zero, Option.some.injEq] at hi
          subst hi
          refine ⟨h4, ?_, ?_⟩
          · rw [r.rest _ (by omega), hsb, if_neg (by omega), if_pos (by omega)]
          · rw [r.rest _ (by omega), hsb, if_pos (by omega)]
        | succ i =>
          have := r.stored i w (by simpa using hi)
          rwa [show k + 1 + i = k + (i + 1) by omega] at this
      · intro j hj
        simp only [List.length_cons] at hj
        rw [r.rest j (by omega), hsb, if_neg (by omega), if_neg (by omega)]
      · rcases r.ends with ⟨h1, h2, h3, h5⟩ | ⟨h1, h2, h3, h5, h6⟩
        · exact .inl ⟨h1, h2, by simp [h3], by simp [waits_failed hw, h5, Event.failed]⟩
        · refine .inr ⟨h1, ?_, by simp; omega, failsLast_append (by simp [waits_failed hw, Event.failed]) h5, h6⟩
          rw [h2, List.length_cons, show k + 1 + ws.length = k + (ws.length + 1) by omega]

end Sys2Proof.Machine
end

