-- ==== Sys2Proof/Laws/Termination.lean ====
section
/-! SUPPORT. Every procedure returns, and every Body ends (spec/40_host_interface.md R141): the actions a call has
left, the steps a Body has left, and the one advance behind an undisturbed step. -/

namespace Sys2Proof.Machine

/-- Every action of a procedure leaves it fewer. -/
theorem callStep_cost {k k' : Call} {u : State} (h : (callStep k u).call = some k') : k'.cost + 1 ≤ k.cost := by
  cases k with
  | sample n t =>
    cases n with
    | zero => cases t <;> simp [callStep, afterWait] at h; subst h; simp [Call.cost]
    | succ n =>
      simp only [callStep] at h
      split at h
      · cases t <;> simp [afterWait] at h; subst h; simp [Call.cost]
      · simp at h; subst h; simp [Call.cost]; omega
  | pollDelay n t => simp [callStep] at h; subst h; simp [Call.cost]
  | select t => simp [callStep] at h; subst h; simp [Call.cost]
  | shift t => simp [callStep] at h

/-- A procedure that has returned has left an answer. -/
theorem callStep_ret (k : Call) (u : State) (h : (callStep k u).call = none) : (callStep k u).ret.isSome = true := by
  cases k with
  | sample n t =>
    cases n with
    | zero => cases t <;> simp [callStep, afterWait] at h ⊢
    | succ n =>
      simp only [callStep] at h ⊢
      split at h
      · rw [if_pos ‹_›]; cases t <;> simp [afterWait] at h ⊢
      · simp at h
  | pollDelay n t => simp [callStep] at h
  | select t => simp [callStep] at h
  | shift t => simp [callStep]

theorem callStep_inputs (k : Call) (u : State) : (callStep k u).inputs = u.inputs := by
  cases k with
  | sample n t =>
    cases n with
    | zero => cases t <;> rfl
    | succ n =>
      have h : (sampleReady u).inputs = u.inputs := by simp
      simp only [callStep]; split
      · cases t <;> exact h
      · exact h
  | pollDelay n t => rfl
  | select t => obtain ⟨ch, b⟩ := t; cases ch <;> rfl
  | shift t => obtain ⟨ch, b⟩ := t; cases ch <;> rfl

theorem callStep_quiet {k : Call} {u : State} (hq : u.quiet = true) : (tick (callStep k u)).quiet = true := by
  have : (callStep k u).quiet = true := by rw [State.quiet, callStep_inputs]; exact hq
  rw [tick_of_quiet this]; exact this

/-- A procedure with no host access in between returns within its cost. -/
theorem runCall_ends (n : Nat) (u : State) (hq : u.quiet = true) (h : ∀ k, u.call = some k → k.cost ≤ n) :
    (runCall n u).call = none := by
  induction n generalizing u with
  | zero =>
    cases hc : u.call with
    | none => simpa [runCall] using hc
    | some k => have := h k hc; cases k <;> simp [Call.cost] at this
  | succ n ih =>
    cases hc : u.call with
    | none => rw [runCall_return _ hc]; exact hc
    | some k =>
      rw [runCall_action hc hq]
      have hq' : (callStep k u).quiet = true := by rw [State.quiet, callStep_inputs]; exact hq
      apply ih
      · exact callStep_quiet hq
      · intro k' hk'
        have := callStep_cost (u := u) (k := k) (k' := k') (by simpa [tick] using hk')
        have := h k hc
        omega

/-- A procedure run for its cost has returned, unless an input lands. -/
theorem runCall_stops (n : Nat) (u : State) (h : ∀ k, u.call = some k → k.cost ≤ n) :
    (runCall n u).call = none ∨ (runCall n u).due = true := by
  induction n generalizing u with
  | zero =>
    cases hc : u.call with
    | none => exact .inl (by simpa [runCall] using hc)
    | some k => have := h k hc; cases k <;> simp [Call.cost] at this
  | succ n ih =>
    cases hc : u.call with
    | none => exact .inl (by rw [runCall_return _ hc]; exact hc)
    | some k =>
      simp only [runCall, hc]
      split
      · exact .inr ‹_›
      · refine ih _ fun k' hk' => ?_
        have := callStep_cost (u := u) (k := k) (k' := k') (by simpa [tick] using hk')
        have := h k hc
        omega

theorem finishCall_stops (u : State) : (finishCall u).call = none ∨ (finishCall u).due = true := by
  unfold finishCall
  split
  · exact .inl ‹_›
  · next k hk => exact runCall_stops _ u fun k' h => by rw [hk, Option.some.injEq] at h; rw [h]

/-- A procedure has returned: an answer, and the same command in progress. -/
structure Returned (u t : State) : Prop where
  call : t.call = none
  ret : t.ret.isSome = true
  cur : t.cur = u.cur
  cfg : t.cfg = u.cfg
  quiet : t.quiet = true

theorem finishCall_returns {u : State} {k : Call} (hk : u.call = some k) (hq : u.quiet = true) :
    Returned u (finishCall u) := by
  have hcall : (finishCall u).call = none := by
    unfold finishCall; rw [hk]
    exact runCall_ends _ u hq (fun k' h => by rw [hk] at h; simp at h; rw [h])
  have hret : (finishCall u).call = none → (finishCall u).ret.isSome = true :=
    finishCall_keeps (P := fun t => t.call = none → t.ret.isSome = true) (fun s k _ _ h => callStep_ret k s h)
      (by simp [hk])
  have hqq : (finishCall u).quiet = true :=
    finishCall_keeps (P := fun t => t.quiet = true) (fun s k h _ => callStep_quiet h) hq
  exact ⟨hcall, hret hcall, by simp, by simp, hqq⟩

theorem transact_returns (t : Option Transaction) {u : State} (hq : u.quiet = true) : Returned u (transact t u) := by
  have := finishCall_returns (u := beginCall t u) (k := .sample u.cfg.readyPolls t) rfl hq
  exact ⟨this.1, this.2, this.3, this.4, this.5⟩

/-- The steps a Body takes at most. -/
def bodySteps : List Stmt → Nat
  | [] => 1
  | .finish _ _ :: _ => 1
  | .configure _ :: rest => 1 + bodySteps rest
  | .resetN _ :: rest => 1 + bodySteps rest
  | .delay _ :: rest => 1 + bodySteps rest
  | .wait :: rest => 2 + bodySteps rest
  | .frame (.words cap) :: rest => 2 * (cap / 2) + 3 + bodySteps rest
  | .frame _ :: rest => 2 + bodySteps rest

theorem bodySteps_pos (b : List Stmt) : 1 ≤ bodySteps b := by
  unfold bodySteps; split <;> omega

theorem bodySteps_cost (b : List Stmt) : bodySteps b ≤ bodyCost b := by
  induction b with
  | nil => simp [bodySteps, bodyCost]
  | cons st rest ih =>
    have hc : bodyCost (st :: rest) = st.cost + bodyCost rest := by simp [bodyCost]; omega
    rw [hc]
    cases st with
    | frame j => cases j <;> simp [bodySteps, Stmt.cost] <;> omega
    | _ => simp [bodySteps, Stmt.cost]; try omega

theorem bodySteps_frame (j : Job) (rest : List Stmt) : 2 + bodySteps rest ≤ bodySteps (.frame j :: rest) := by
  cases j <;> simp [bodySteps]

theorem bodySteps_words (l : List Nat) (r : Word) :
    bodySteps (l.map (fun k => Stmt.frame (.word k)) ++ [.finish .ok r]) = 2 * l.length + 1 := by
  induction l with
  | nil => rfl
  | cons a l ih => simp [bodySteps, ih]; omega

/-- What follows an Ok answer takes fewer steps than the frame allowed for. -/
theorem bodySteps_after (p : Params) (j : Job) (rx : List Byte) (rest : List Stmt) :
    bodySteps (bodyAfter p j rx rest) + 2 ≤ bodySteps (.frame j :: rest) := by
  have := bodySteps_pos rest
  cases j with
  | verify => simp only [bodyAfter]; split <;> simp [bodySteps] <;> omega
  | words cap =>
    simp only [bodyAfter, drainBody]; split
    · simp [bodySteps]; omega
    · rw [bodySteps_words]; simp [bodySteps, wordCount]; omega
  | _ => simp [bodyAfter, bodySteps] <;> omega

/-- A step of a command in progress in which no input lands is one advance. -/
theorem step_not_due {u : State} {c : Cursor} (hp : u.cfg.Wf) (hc : u.cur = some c) (hd : u.due = false)
    (hB : BodyOk u) : step u = .next (advance u) := by
  unfold step
  rw [if_pos hp, if_neg (by simp [hc, hd])]
  unfold stepBody
  split
  · rename_i op j rest hcall hret hcur
    have ha : advance u = transact (frameOf u.cfg (j.instr u)) (j.load u) := by
      simp only [advance, hcall, hcur, advanceStmt, hret]
    have hl : (j.load u).call = none := by simpa using hcall
    have hst := hB _ hcur (.frame j) (by simp)
    rw [ha]
    cases j <;> simp only [Job.instr, exec, execCtrlWrite, execCtrlRead, execDataChunk, sendFrame, hl]
    all_goals first | (simp; rfl) | skip
    rename_i src off n
    have hlen : (chunkBytes src off n u).length = n := by simp [chunkBytes]
    rw [if_pos (by rw [chunkOk, hlen]; exact hst.2)]
    rfl
  · rfl

/-- An undisturbed step of a command in progress is one advance. -/
theorem step_advance {u : State} {c : Cursor} (hp : u.cfg.Wf) (hc : u.cur = some c) (hq : u.quiet = true)
    (hB : BodyOk u) : step u = .next (advance u) := step_not_due hp hc (not_due_of_quiet hq) hB

/-! ### The inputs over an advance: only the wait of the next one changes -/

/-- The inputs k, but for the wait of the first. -/
def sameInputs (l k : List (Nat × Input)) : Prop := ∃ w w' i rest, l = (w, i) :: rest ∧ k = (w', i) :: rest

theorem sameInputs_tick {l k : List (Nat × Input)} (h : sameInputs l k) : sameInputs l (tickInputs k) := by
  obtain ⟨w, w', i, rest, rfl, rfl⟩ := h
  by_cases hq : quietInputs ((w', i) :: rest) = true
  · exact ⟨w, w', i, rest, rfl, quietInputs_tick hq⟩
  · exact ⟨w, w' - 1, i, rest, rfl, by simp only [tickInputs, if_neg hq]⟩

/-- An advance leaves the inputs as they are, but for the wait of the next one. -/
theorem advance_sameInputs {l : List (Nat × Input)} {u : State} (h : sameInputs l u.inputs) :
    sameInputs l (advance u).inputs := by
  have ht : ∀ (t : Option Transaction) (v : State), sameInputs l v.inputs → sameInputs l (transact t v).inputs :=
    fun t v hv => transact_keeps (P := fun v => sameInputs l v.inputs)
      (fun s k hs _ => by rw [tick_inputs, callStep_inputs]; exact sameInputs_tick hs) hv
  unfold advance
  split
  · exact finishCall_keeps (P := fun v => sameInputs l v.inputs)
      (fun s k hs _ => by rw [tick_inputs, callStep_inputs]; exact sameInputs_tick hs) h
  · split
    · exact h
    · simpa [finish] using h
    · rename_i op st rest _
      cases st with
      | configure ch => simpa [advanceStmt] using sameInputs_tick h
      | resetN v => simpa [advanceStmt] using sameInputs_tick h
      | delay t => simpa [advanceStmt] using sameInputs_tick h
      | wait =>
        simp only [advanceStmt]; split
        · exact ht _ _ h
        · exact h
      | frame j =>
        simp only [advanceStmt]; split
        · exact ht _ _ (by simpa using h)
        · unfold takeAnswer; split
          · exact h
          · rw [setBody_inputs]
            cases j with
            | word k => simpa [storeAnswer] using sameInputs_tick h
            | _ => exact h
          · exact h
          · exact h
      | finish code result => simpa [advanceStmt, finish] using h

end Sys2Proof.Machine
end

