-- ==== Sys2Proof/Laws/Window.lean ====
section
/-! SUPPORT. The host window by offset: what stands there, and what a legal or an illegal access of it comes to. -/

namespace Sys2Proof.Machine

theorem inWindow_offset (p : Params) {off : Nat} (h : off < windowSize) : inWindow p (p.base + off) := by
  simp only [inWindow]; omega

theorem accessLegal_offset (p : Params) {off : Nat} (h : off % 4 = 0) : accessLegal p (p.base + off) .w32 := by
  simp [accessLegal, h]

theorem accessIllegal_offset (p : Params) {off : Nat} {width : Width} (h : width ≠ .w32 ∨ off % 4 ≠ 0) :
    ¬ accessLegal p (p.base + off) width := by
  simp only [accessLegal, Nat.add_sub_cancel_left]
  rintro ⟨h1, h2⟩
  rcases h with h | h
  exacts [h h1, h h2]

/-- BUF word k stands at offset 0x100 + 4k (R40). -/
theorem windowReg_buf (p : Params) {k : Nat} (h : 4 * k < p.bufSize) : windowReg p (offBuf + 4 * k) = .bufWord k := by
  simp only [windowReg, offCmd, offArg0, offArg1, offStatus, offResult, offTmoCount, offBuf]
  iterate 6 rw [if_neg (by omega)]
  rw [if_pos (by omega), show (256 + 4 * k - 256) / 4 = k by omega]

/-- The unmapped offsets (R41). -/
theorem windowReg_unmapped (p : Params) {off : Nat} (h : 0x018 ≤ off) (h' : off < offBuf ∨ offBuf + p.bufSize ≤ off) :
    windowReg p off = .unmapped := by
  simp only [windowReg, offCmd, offArg0, offArg1, offStatus, offResult, offTmoCount, offBuf] at *
  repeat' rw [if_neg (by omega)]

/-- A legal read of an offset. -/
theorem perform_read_offset (s : State) {off : Nat} (h1 : off < windowSize) (h2 : off % 4 = 0) :
    perform (.read (s.cfg.base + off) .w32) s
      = .next { s with
          draws := readDraws (windowReg s.cfg off) s
          hostLog := s.hostLog ++ [.read (s.cfg.base + off) (readReg (windowReg s.cfg off) s)] } := by
  simp only [perform, guardAccess, if_pos (inWindow_offset s.cfg h1), if_pos (accessLegal_offset s.cfg h2), hostRead,
    Nat.add_sub_cancel_left]

/-- A legal write of an offset. -/
theorem perform_write_offset (s : State) (v : Word) {off : Nat} (h1 : off < windowSize) (h2 : off % 4 = 0) :
    perform (.write (s.cfg.base + off) .w32 v) s = writeReg (windowReg s.cfg off) v s := by
  simp only [perform, guardAccess, if_pos (inWindow_offset s.cfg h1), if_pos (accessLegal_offset s.cfg h2),
    Nat.add_sub_cancel_left]

/-- A read of STATUS logs its word, and does nothing else. -/
theorem hostRead_status (s : State) : hostRead (s.cfg.base + offStatus) s
    = { s with hostLog := s.hostLog ++ [.read (s.cfg.base + offStatus) (statusWord s)] } := by
  simp [hostRead, windowReg, offCmd, offArg0, offArg1, offStatus, readReg, readDraws]

/-- BUSY is bit 3 of STATUS (R37). -/
theorem statusWord_busy (s : State) : (statusWord s).getLsbD 3 = s.busy := by
  simp only [statusWord, flagBit, BitVec.getLsbD_append]
  cases s.busy <;> rfl

/-- Everything a poll of `wait_idle` does (R117): it logs STATUS, and polls again if BUSY = 1. -/
theorem pollStatus_eq (gaps : List Nat) (s : State) : pollStatus gaps s
    = { s with
        hostLog := s.hostLog ++ [.read (s.cfg.base + offStatus) (statusWord s)]
        inputs := if s.busy then (gaps.headD 0, .waitIdle gaps.tail) :: s.inputs else s.inputs } := by
  unfold pollStatus
  rw [hostRead_status, show readReg .status s = statusWord s from rfl, statusWord_busy]
  split <;> rfl

/-- A command's word written while BUSY = 1 is ignored (R132). -/
theorem exec_busy {i : Instr} {e : Entry} (he : entryOf i = some e) {s : State} (hb : s.busy = true) :
    exec i s = .next (ignoredWrite s) := by
  rw [exec_entry he, launch_eq, if_pos hb]

theorem writeCmd_busy (v : Word) {s : State} (hb : s.busy = true) : writeCmd v s = .next (ignoredWrite s) := by
  unfold writeCmd
  split
  · obtain ⟨e, he⟩ := decodeCmd_entry ‹_›
    exact exec_busy he hb
  · simp [illegalCommand, hb]

end Sys2Proof.Machine
end

