-- ==== Sys2Proof/Tests/Slice0.lean ====
section
/-! SUPPORT. The model's own tests: refused ill-formed terms, words written out bit by bit from the tables of
spec/30_encoding.md, single commands with the results that spec/95_test_vectors.md gives (the vector's name in each
comment), and a witness for the hypotheses of each statement. -/

namespace Sys2Proof.Tests

open Sys2Proof.Machine

/-! ### WellFormed -/

theorem test_wf_refuses_empty_chunk : (Instr.dataChunk []).wf = false := by decide
theorem test_wf_refuses_chunk_of_33 : (Instr.dataChunk (List.replicate 33 0)).wf = false := by decide
theorem test_wf_admits_chunk_of_32 : (Instr.dataChunk (List.replicate 32 0)).wf = true := by decide
theorem test_P0_in_bounds : Params.p0.Wf := by decide

/-! ### Decoding, each word written out from R101, R105 to R107 -/

theorem test_decode_init : decodeTableWord 32 0b00000000000000000000000000000001 = some (.init 0) := by decide
/-- VALUE = 0x1010, REG = 0x0B, OP = 0x02. -/
theorem test_decode_regWrite :
    decodeTableWord 32 0b00010000000100000000101100000010 = some (.regWrite 0x0B 0x1010) := by decide
/-- VALUE = 0xABCD is ignored, but kept. -/
theorem test_decode_regRead :
    decodeTableWord 32 0b10101011110011010000001100000011 = some (.regRead 0x03 0xABCD) := by decide
theorem test_decode_bulkWrite : decodeTableWord 32 0b00000000000000000000000000000100 = some (.bulkWrite 0) := by decide
theorem test_decode_startRecord :
    decodeTableWord 32 0b00000000000000000000000000000101 = some (.startRecord 0) := by decide
theorem test_decode_readBlock : decodeTableWord 32 0b00000000000000000000000000000110 = some (.readBlock 0) := by decide
theorem test_decode_startDecode :
    decodeTableWord 32 0b00000000000000000000000000000111 = some (.startDecode 0) := by decide
theorem test_decode_emitHeader :
    decodeTableWord 32 0b00000000000000000000000000001000 = some (.emitHeader 0) := by decide
theorem test_decode_writeBlock :
    decodeTableWord 32 0b00000000000000000000000000001001 = some (.writeBlock 0) := by decide
theorem test_decode_stop : decodeTableWord 32 0b00000000000000000000000000001010 = some (.stop 0) := by decide
/-- WRITE_OP = 0x02, r = 0x0B, v = 0x2020, byte 0 first. -/
theorem test_decode_ctrlWrite :
    decodeTableWord 32 0b00000010000010110010000000100000 = some (.ctrlWrite 0x0B 0x2020) := by decide
/-- READ_OP = 0x03, r = 0x09, two bytes of filler. -/
theorem test_decode_ctrlRead :
    decodeTableWord 32 0b00000011000010010000000000000000 = some (.ctrlRead 0x09) := by decide
theorem test_decode_dataChunk : decodeTableWord 16 0b0000001000000001 = some (.dataChunk [0x01, 0x02]) := by decide
theorem test_decode_refuses_zero : decodeTableWord 32 0 = none := by decide
theorem test_decode_refuses_op_0B : decodeTableWord 32 0x0000000B = none := by decide
theorem test_decode_refuses_bad_filler : decode Params.p0 (.frame .ctrl [0x03, 0x09, 0x00, 0x01]) = .error (.dummyBytes 0x00 0x01) :=
  by decide

/-! ### Small states -/

/-- The state an outcome goes on to; reset where it stops. -/
def after : Host.Outcome State Fault Refusal → State
  | .next s => s
  | .fault _ => State.reset
  | .refused _ => State.reset

/-- An idle controller in an FSM state, with the device's answers to come. -/
def bench (fsm : Fsm) (hdr : Bool) (dreq : List Bool) (xfers : List Reply) (configs : List Bool) : State :=
  { State.reset with fsm := fsm, hdr := hdr, initFlag := true, dev := ⟨dreq, xfers, configs⟩ }

/-- IDLE, with DREQ ready n times and the answers given. -/
def idle (n : Nat) (xfers : List Reply) : State := bench .idle false (List.replicate n true) xfers []

/-- An answer of four zero bytes. -/
def four : Reply := .ok [0, 0, 0, 0]

/-- A register read's answer. -/
def word (hi lo : Byte) : Reply := .ok [0, 0, hi, lo]

/-- A controller that runs a command, an input of the host landing. -/
def busyWith (op : Opcode) (fsm : Fsm) (body : List Stmt) (inputs : List (Nat × Input)) : State :=
  { bench fsm false [] [] [] with busy := true, cur := some ⟨op, body⟩, inputs := inputs }

/-! ### Reset and the host window -/

theorem test_reset_waits_for_host : step State.reset = .next State.reset := by rfl
/-- D1. -/
theorem test_D1 : statusWord State.reset = 0x00000000 ∧ State.reset.cmd = 0 := by decide
/-- D2: the first CMD write after reset, of an illegal word. -/
theorem test_D2 : statusWord (after (writeCmd 0x00000000 State.reset)) = 0x00000600 := by decide
/-- D4. -/
theorem test_D4 : statusWord (after (writeCmd 0xFFFFFFFF (idle 0 []))) = 0x00000682 := by decide
/-- D11's shape: the sticky flags are cleared by ones at bits 4, 5 and 12, and nothing else is. -/
theorem test_W1C : statusWord (clearFlags 0x00001010 { idle 0 [] with tmo := true, ovr := true, berr := true })
    = 0x000000A2 := by decide
/-- D16. -/
theorem test_D16 : (after (perform (.write 0x40000100 .w32 0x44332211) State.reset)).buf
    = [(0, 0x11), (1, 0x22), (2, 0x33), (3, 0x44)] := by decide
/-- D16, read back. -/
theorem test_D16_read : (after (perform (.read 0x40000100 .w32)
    (after (perform (.write 0x40000100 .w32 0x44332211) State.reset)))).hostLog
      = [.read 0x40000100 0x44332211] := by decide
/-- A failed check ends the host's program alone: the write after it does not come, the reset of the environment
does, after both waits, and the controller goes on (R119). -/
theorem test_check_failed : (fun s => (s.hostLog, s.inputs, s.fsm)) (after (perform (.check 0x4000000C 0 1)
    { idle 0 [] with inputs := [(2, .write 0x40000000 .w32 0x0A), (3, .reset)] }))
    = ([.read 0x4000000C 0x00000082, .programFailed], [(5, .reset)], .idle) := by decide
/-- A poll that reads BUSY = 1 is followed by another (R117); STATUS is IDLE, INIT and BUSY. -/
theorem test_waitIdle_poll : (fun s => (s.hostLog, s.inputs))
    (after (step (busyWith .regRead .idle [.finish .ok 0] [(0, .waitIdle [2, 0])])))
    = ([.read 0x4000000C 0x0000008A], [(2, .waitIdle [0])]) := by decide
/-- `init` of R118 with two polls while it runs, the second two actions after the first. -/
theorem test_pace : pace [[0], [0, 2]] (progInit Params.p0)
    = [(0, .write 0x40000000 .w32 0x00000001), (0, .waitIdle [2, 0])] := by decide
/-- D17. -/
theorem test_D17 : perform (.read 0x40000002 .w32) State.reset = .fault (.hostBusError 0x40000002 .w32) := by rfl
/-- D18: INIT has begun and a STATUS read lands before its first primitive. -/
theorem test_D18 : statusWord (after (exec (.init 0) { idle 0 [] with inputs := [(0, .read 0x4000000C .w32)] }))
    = 0x00000009 := by decide
/-- A store keeps the canonical form: an overwritten byte stays one entry. -/
theorem test_memory_canonical : (Memory.write (Memory.write (Memory.write [] 5 1) 3 2) 5 7) = [(3, 2), (5, 7)] := by decide

/-- A block of five bytes fills two whole words, the last one's rest with zeros (log 27). -/
theorem test_fillBlock : fillBlock Params.p0 [1, 2, 3, 4, 5]
    = [(0, .write 0x40000100 .w32 0x04030201), (0, .write 0x40000104 .w32 0x00000005)] := by decide

/-! ### The fetch of the host's questions -/

theorem test_fetch_command : step (State.reset.withFetchWord 32 0x00000006) = exec (.readBlock 0) State.reset := by rfl
theorem test_fetch_frame : step (State.reset.withFetchWord 32 0x03090000)
    = exec (.ctrlRead 0x09) (State.reset.withJob .regRead (.read 0x09)) := by rfl
theorem test_fetch_chunk : step (State.reset.withFetchWord 16 0x0201)
    = exec (.dataChunk [0x01, 0x02]) (State.reset.withFetchWord 16 0x0201) := by rfl

/-! ### One command each (spec/95_test_vectors.md) -/

/-- I1: STATUS and RESET_N. -/
theorem test_I1 : statusWord (after (exec (.init 0) { State.reset with
    dev := ⟨List.replicate 4 true, [four, four, four, word 0x60 0x00], [true, true]⟩ })) = 0x00000082 := by decide
/-- I5: the second Configure fails. -/
theorem test_I5 : (fun s => (statusWord s, s.resetN, s.trace.length)) (after (exec (.init 0)
    { State.reset with dev := ⟨[], [], [true, false]⟩ })) = (0x00001105, false, 2) := by decide
/-- R1: the events. -/
theorem test_R1 : (after (exec (.regWrite 0x0B 0x1010) (idle 1 [four]))).trace
    = [.ready true, .xfer .ctrl [0x02, 0x0B, 0x10, 0x10] four] := by decide
/-- R4. -/
theorem test_R4 : statusWord (after (exec (.regWrite 0x0B 0x1010) (idle 1 [.busErr]))) = 0x00001182 := by decide
/-- R8: rx0 and rx1 are discarded. -/
theorem test_R8 : (after (exec (.regRead 0x0B 0) (idle 1 [.ok [0xFF, 0xFF, 0x12, 0x34]]))).result = 0x00001234 := by decide
/-- R10. -/
theorem test_R10 : (fun s => (statusWord s, s.result)) (after (exec (.regRead 0x0B 0)
    { idle 1 [.busErr] with result := 0x1234 })) = (0x00001182, 0) := by decide
/-- K4: 33 bytes are chunks of 32 and 1. -/
theorem test_K4 : (dataChunks (after (exec (.bulkWrite 0) { idle 2 [.ok (List.replicate 32 0), .ok [0]] with
    arg0 := 33, buf := (List.range 33).map fun i => (i, BitVec.ofNat 8 i) })).trace).map List.length = [32, 1] := by decide
/-- K7. -/
theorem test_K7 : statusWord (after (exec (.bulkWrite 0) { idle 0 [] with arg0 := 257 })) = 0x00000482 := by decide
/-- E4: ARG1[0] = 0; the last frame. -/
theorem test_E4 : (after (exec (.startRecord 0) { idle 6 (List.replicate 5 four) with
    arg0 := 1, arg1 := 0xFFFFFFFE })).trace.getLast? = some (.xfer .ctrl [0x02, 0x0F, 0x00, 0x00] four) := by decide
/-- E8: the rate write fails. -/
theorem test_E8 : (fun s => (statusWord s, (ctrlFrames s.trace).length)) (after (exec (.startRecord 0)
    { idle 6 [four, four, .busErr] with arg0 := 8000 })) = (0x00001182, 3) := by decide
/-- B1: the words are stored high byte first. -/
theorem test_B1 : (fun s => (s.result, s.buf)) (after (exec (.readBlock 0) { bench .recording false
      (List.replicate 4 true) [word 0 3, word 0x12 0x34, word 0xAB 0xCD, word 0x00 0x01] [] with arg0 := 8 }))
    = (6, [(0, 0x12), (1, 0x34), (2, 0xAB), (3, 0xCD), (4, 0x00), (5, 0x01)]) := by decide
/-- The last word is seen in BUF while BUSY = 1 (R138, R357): a host read that lands after the stores, seven actions
after the launch (two frames of sample, select and shift, then the stores). -/
theorem test_last_word_seen_busy : (fun s => (s.busy, s.hostLog)) (after (step (after (exec (.readBlock 0)
      { bench .recording false [true, true] [word 0 1, word 0x12 0x34] [] with
        arg0 := 2, buf := [(2, 0), (3, 0)], inputs := [(7, .read 0x40000100 .w32)] }))))
    = (true, [.read 0x40000100 0x00003412]) := by decide
/-- H8. -/
theorem test_H8 : (fun s => (statusWord s, ctrlFrames s.trace)) (after (exec (.startDecode 0) (idle 1 [four])))
    = (0x00000084, [[0x02, 0x00, 0x08, 0x00]]) := by decide
/-- H1: the header of 8000 Hz mono. -/
theorem test_H1 : dataChunks (after (exec (.emitHeader 0) { bench .decoding false [true, true]
      [.ok (List.replicate 32 0), .ok (List.replicate 16 0)] [] with arg0 := 8000, arg1 := 1 })).trace
    = [[0x52, 0x49, 0x46, 0x46, 0xFF, 0xFF, 0xFF, 0xFF, 0x57, 0x41, 0x56, 0x45, 0x66, 0x6D, 0x74, 0x20, 0x14, 0x00, 0x00,
        0x00, 0x11, 0x00, 0x01, 0x00, 0x40, 0x1F, 0x00, 0x00, 0xA0, 0x0F, 0x00, 0x00],
       [0x00, 0x01, 0x04, 0x00, 0x02, 0x00, 0xF9, 0x01, 0x64, 0x61, 0x74, 0x61, 0xFF, 0xFF, 0xFF, 0xFF]] := by decide
/-- H10: no second header in a run. -/
theorem test_H10 : statusWord (after (exec (.emitHeader 0) { bench .decoding true [] [] [] with
    arg0 := 8000, arg1 := 1 })) = 0x000003C4 := by decide
/-- H18. -/
theorem test_H18 : statusWord (after (exec (.writeBlock 0) (bench .decoding false [] [] []))) = 0x00000584 := by decide
/-- H19, with a block of 33 bytes. -/
theorem test_H19 : (fun s => (statusWord s, (dataChunks s.trace).map List.length)) (after (exec (.writeBlock 0)
    { bench .decoding true [true, true] [.ok (List.replicate 32 0), .ok [0]] [] with
      cfg := { Params.p0 with blockSize := 33 }, buf := (List.range 33).map fun i => (i, BitVec.ofNat 8 i) }))
    = (0x000000C4, [32, 1]) := by decide
/-- L2: HDR is cleared. -/
theorem test_L2 : (fun s => (statusWord s, ctrlFrames s.trace)) (after (exec (.stop 0) (bench .decoding true [true]
    [four] []))) = (0x00000082, [[0x02, 0x00, 0x08, 0x04]]) := by decide
/-- L4. -/
theorem test_L4 : statusWord (after (exec (.stop 0) (bench .decoding true [true] [.busErr] []))) = 0x00001185 := by decide
/-- W2: ready on the second sample. -/
theorem test_W2 : (after (exec (.ctrlWrite 0x0B 0x2020) (bench .idle false [false, true] [four] []))).trace
    = [.ready false, .delay 1, .ready true, .xfer .ctrl [0x02, 0x0B, 0x20, 0x20] four] := by decide
/-- W7: a budget of one sample. -/
theorem test_W7 : (fun s => (s.trace, s.tmo, s.tmoCount)) (after (exec (.ctrlRead 0x03) { bench .idle false [false]
      [four] [] with cfg := { Params.p0 with readyPolls := 1 } }))
    = ([.ready false, .delay 1, .timeout, .xfer .ctrl [0x03, 0x03, 0x00, 0x00] four], true, 1) := by decide
/-- K2's chunk, alone. -/
theorem test_chunk : (after (exec (.dataChunk [0x00]) (bench .idle false [true] [.ok [0]] []))).trace
    = [.ready true, .xfer .data [0x00] (.ok [0])] := by decide

/-! ### Witnesses: for each statement of Certificates/Slice0 with hypotheses, states and operands that meet them
together, at the ends of the ranges of its clauses -/

/-- Accepts, for a state whose three conditions compute. -/
theorem accepts (op : Opcode) (s : State) (h : (!s.busy && allowed op s.fsm s.hdr && s.quiet) = true) : Accepts op s := by
  simp only [Bool.and_eq_true, Bool.not_eq_true'] at h
  exact ⟨h.1.1, h.1.2, h.2⟩

/-- The control invariant of an idle state. -/
theorem controlInv_idle (s : State) (hc : s.cur = none) (h : s.busy = false ∧ s.call = none ∧ s.ret = none)
    (hf : s.fsm = .idle ∨ s.fsm = .decoding) (hi : s.initFlag = true) (hh : s.hdr = true → s.fsm = .decoding) :
    ControlInv s where
  busy_iff := by simp [hc, h.1]
  idle_clean := fun _ => h.2
  idle_not_reset := by rcases hf with hf | hf <;> simp [hf]
  runs := by simp [hc]
  hdr_decoding := hh
  init_flag := by rcases hf with hf | hf <;> simp [hf]
  ready_init := fun _ => hi

/-- The control invariant of a state that runs a command. -/
theorem controlInv_busy (s : State) (c : Cursor) (hc : s.cur = some c) (h : s.busy = true)
    (hr : opRuns c.op s.fsm s.hdr) (hf : s.fsm = .recording ∨ s.fsm = .decoding ∨ s.fsm = .idle) (hi : s.initFlag = true)
    (hh : s.hdr = true → s.fsm = .decoding) : ControlInv s where
  busy_iff := by simp [hc, h]
  idle_clean := by simp [hc]
  idle_not_reset := by simp [hc]
  runs := by rintro c' h'; rw [hc] at h'; cases h'; exact hr
  hdr_decoding := hh
  init_flag := by rcases hf with hf | hf | hf <;> simp [hf]
  ready_init := fun _ => hi

/-- READ_BLOCK with one word of two still to read, ARG0 = 4. -/
def draining : State :=
  { busyWith .readBlock .recording [.frame (.word 1), .finish .ok 4] [] with
    arg0 := 4, dev := ⟨[true], [word 0xAB 0xCD], []⟩ }

/-- START_DECODE about to complete. -/
def finishing : State := busyWith .startDecode .idle [] []

/-- EMIT_HEADER about to complete. -/
def headerSent : State := busyWith .emitHeader .decoding [] []

/-- DECODING with the header sent, the host about to write STOP. -/
def stopping : State :=
  { bench .decoding true [true] [four] [] with inputs := [(0, .write 0x40000000 .w32 0x0000000A)] }

/-- The same with a controller reset next. -/
def resetting : State := { bench .decoding true [] [] [] with inputs := [(3, .reset)] }

/-- INIT about to configure its first channel. -/
def inInit : State :=
  { State.reset with fsm := .reset, busy := true, cur := some ⟨.init, [.configure .ctrl]⟩ }

theorem draining_control : ControlInv draining :=
  controlInv_busy _ _ rfl rfl rfl (.inl rfl) rfl (by decide)

theorem finishing_control : ControlInv finishing :=
  controlInv_busy _ _ rfl rfl rfl (.inr (.inr rfl)) rfl (by decide)

theorem headerSent_control : ControlInv headerSent :=
  controlInv_busy _ _ rfl rfl ⟨rfl, rfl⟩ (.inr (.inl rfl)) rfl (by decide)

theorem stopping_control : ControlInv stopping := controlInv_idle _ rfl ⟨rfl, rfl, rfl⟩ (.inr rfl) rfl (fun _ => rfl)

theorem resetting_control : ControlInv resetting := controlInv_idle _ rfl ⟨rfl, rfl, rfl⟩ (.inr rfl) rfl (fun _ => rfl)

theorem inInit_control : ControlInv inInit where
  busy_iff := rfl
  idle_clean := by simp [inInit]
  idle_not_reset := by simp [inInit]
  runs := by rintro c ⟨⟩; rfl
  hdr_decoding := by decide
  init_flag := by decide
  ready_init := by decide

theorem draining_body : BodyOk draining := by
  rintro c ⟨⟩ st hst
  rcases List.mem_cons.1 hst with rfl | hst
  · exact ⟨rfl, by decide⟩
  · rw [List.mem_singleton.1 hst]; exact .inl rfl

theorem draining_bounded : DrainBounded draining := by
  rintro c ⟨⟩ -
  refine ⟨by simp, fun k hk => ?_⟩
  have : k = 1 := by simpa using hk
  subst this; decide

theorem finishing_body : BodyOk finishing := by rintro c ⟨⟩ st hst; cases hst

theorem inInit_body : BodyOk inInit := by
  rintro c ⟨⟩ st hst
  rw [List.mem_singleton.1 hst]; rfl

theorem no_reset (s : State) (h : s.inputs = []) : ¬ resetLands s := by
  rintro ⟨⟨w, rest, h'⟩, -⟩; rw [h] at h'; cases h'

/-- A reset listed next that is not yet due does not land. -/
theorem reset_not_due {n : Nat} : ¬ resetLands { draining with inputs := [(n + 1, .reset)] } := by
  rintro ⟨-, h | h⟩
  · cases h
  · simp [State.due, dueInputs] at h

/-! #### Encodings -/

theorem witness_DecodeEncode : Params.p0.writeOp ≠ Params.p0.readOp ∧ (Instr.dataChunk [0]).wf = true
    ∧ (Instr.dataChunk (List.replicate 32 0xFF)).wf = true ∧ (Instr.regWrite 0xFF 0xFFFF).wf = true := by decide
theorem witness_EncodeDecode : decode Params.p0 (.frame .ctrl [0x03, 0xFF, 0x00, 0x00]) = .ok (.ctrlRead 0xFF)
    ∧ decode Params.p0 (.cmd 0xFFFFFF0A) = .ok (.stop 0xFFFFFF)
    ∧ decode Params.p0 (.frame .data (List.replicate 32 7)) = .ok (.dataChunk (List.replicate 32 7)) := by decide
theorem witness_CommandsByOp : decodeCmd 0xFFFFFF00 = .error (.illegalOpcode 0x00) ∧ decodeCmd 0x00000001 = .ok (.init 0)
    ∧ decodeCmd 0x0000000A = .ok (.stop 0) ∧ decodeCmd 0x0000000B = .error (.illegalOpcode 0x0B)
    ∧ decodeCmd 0x000000FF = .error (.illegalOpcode 0xFF) := by decide
/-- REG_READ with two values of the ignored field. -/
theorem witness_UnusedFieldsIgnored :
    (0xABCD0B03 : Word).extractLsb' 0 8 = (0x00000B03 : Word).extractLsb' 0 8
      ∧ ((0xABCD0B03 : Word).extractLsb' 0 8 = 0x02 ∨ (0xABCD0B03 : Word).extractLsb' 0 8 = 0x03 →
        (0xABCD0B03 : Word).extractLsb' 8 8 = (0x00000B03 : Word).extractLsb' 8 8)
      ∧ ((0xABCD0B03 : Word).extractLsb' 0 8 = 0x02 →
        (0xABCD0B03 : Word).extractLsb' 16 16 = (0x00000B03 : Word).extractLsb' 16 16) := by decide
theorem witness_LegalFramesDecode : decode Params.p0 (.frame .data []) = .error (.chunkLength 0)
    ∧ decode Params.p0 (.frame .data [0]) = .ok (.dataChunk [0])
    ∧ decode Params.p0 (.frame .data (List.replicate 33 0)) = .error (.chunkLength 33)
    ∧ decode Params.p0 (.frame .ctrl [0x02, 1, 2, 3]) = .ok (.ctrlWrite 1 0x0203) := by decide

/-! #### The host window -/

/-- The offsets of every clause, at the ends of their ranges; the four bytes of the last BUF word hold values. -/
theorem witness_HostReadValues :
    (∀ off ∈ [0x000, 0x004, 0x008, 0x00C, 0x010, 0x014, 0x018, 0x0FC, 0x100, 0x1FC, 0x200, 0xFFC],
        off < 0x1000 ∧ off % 4 = 0)
      ∧ 0x1FC = 0x100 + 4 * 63 ∧ 4 * 63 < Params.p0.bufSize
      ∧ Memory.read? [(252, 1), (253, 2), (254, 3), (255, 4)] (4 * 63) = some 1
      ∧ Memory.read? [(252, 1), (253, 2), (254, 3), (255, 4)] (4 * 63 + 3) = some 4 := by decide
theorem witness_HostWriteEffects : 4 * 0 < (idle 0 []).cfg.bufSize ∧ 4 * 63 < (idle 0 []).cfg.bufSize
    ∧ (idle 0 []).cfg.bufSize ≤ 3840 ∧ (idle 0 []).busy = false ∧ draining.busy = true ∧ draining.cfg.bufSize ≤ 3840
    ∧ 0x018 < 0x100 ∧ 0x100 + (idle 0 []).cfg.bufSize ≤ 0x200 ∧ 0xFFC < 0x1000 := by decide
theorem witness_IllegalAccessFaults : (0 < 0x1000 ∧ (Width.w8 ≠ .w32 ∨ 0 % 4 ≠ 0))
    ∧ (0xFFC < 0x1000 ∧ (Width.w16 ≠ .w32 ∨ 0xFFC % 4 ≠ 0)) ∧ 0xFFF < 0x1000 ∧ (Width.w32 ≠ .w32 ∨ 0xFFF % 4 ≠ 0) := by
  decide
/-- At CMD, ARG0, ARG1 and the first and the last BUF word. -/
theorem witness_BusyWritesIgnored : ∀ off ∈ [0x000, 0x004, 0x008, 0x100, 0x1FC], ∃ s : State, ∃ c v rest,
    s.cfg.Wf ∧ s.cur = some c ∧ s.busy = true ∧ s.inputs = (0, .write (s.cfg.base + off) .w32 v) :: rest
      ∧ (off = 0x000 ∨ off = 0x004 ∨ off = 0x008 ∨ ∃ k, off = 0x100 + 4 * k ∧ 4 * k < s.cfg.bufSize) := by
  intro off h
  refine ⟨{ draining with inputs := [(0, .write (0x40000000 + off) .w32 7)] }, _, _, _,
    (by decide : Params.p0.Wf), rfl, rfl, rfl, ?_⟩
  fin_cases h
  · exact .inl rfl
  · exact .inr (.inl rfl)
  · exact .inr (.inr (.inl rfl))
  · exact .inr (.inr (.inr ⟨0, rfl, by decide⟩))
  · exact .inr (.inr (.inr ⟨63, rfl, by decide⟩))

/-! #### Launch -/

theorem witness_IllegalCommand : State.reset.busy = false
    ∧ ((0xFFFFFF00 : Word).extractLsb' 0 8).toNat = 0
    ∧ 0x0B ≤ ((0x0000000B : Word).extractLsb' 0 8).toNat ∧ 0x0B ≤ ((0x000000FF : Word).extractLsb' 0 8).toNat := by decide
theorem witness_WrongState : (Instr.readBlock 0).opcode? = some .readBlock
    ∧ encode State.reset.cfg (.readBlock 0) = .cmd 0x00000006 ∧ State.reset.busy = false
    ∧ allowed .readBlock State.reset.fsm State.reset.hdr = false := by decide
theorem witness_AllowedTable : ControlInv inInit ∧ inInit.fsm = .reset := ⟨inInit_control, rfl⟩
/-- Each precondition broken at the ends of its range: 257 bytes; rates 0 and 65536; channels 0 and 3; no header. -/
theorem witness_Preconditions :
    (Accepts .bulkWrite { idle 0 [] with arg0 := 257 } ∧ 256 < (257 : Word).toNat)
      ∧ (Accepts .startRecord { idle 0 [] with arg0 := 0 } ∧ Accepts .startRecord { idle 0 [] with arg0 := 0x10000 }
        ∧ 65535 < (0x10000 : Word).toNat)
      ∧ (Accepts .emitHeader { bench .decoding false [] [] [] with arg0 := 1, arg1 := 3 }
        ∧ (3 : Word).extractLsb' 0 8 ≠ 1 ∧ (3 : Word).extractLsb' 0 8 ≠ 2 ∧ (0 : Word).extractLsb' 0 8 ≠ 1)
      ∧ Accepts .writeBlock (bench .decoding false [] [] []) :=
  ⟨⟨accepts _ _ rfl, by decide⟩, ⟨accepts _ _ rfl, accepts _ _ rfl, by decide⟩, ⟨accepts _ _ rfl, by decide⟩,
    accepts _ _ rfl⟩

/-- The statements `…RunsItsBody`: each command is accepted in every state that allows it. -/
theorem witness_RunsItsBody :
    (Accepts .init State.reset ∧ Accepts .init (idle 0 []) ∧ Accepts .init (bench .faulted false [] [] []))
      ∧ (∀ fsm ∈ [Fsm.idle, .recording, .decoding], ∀ op ∈ [Opcode.regWrite, .regRead, .bulkWrite, .stop],
          Accepts op (bench fsm false [] [] []))
      ∧ Accepts .startRecord (idle 0 []) ∧ Accepts .startDecode (idle 0 [])
      ∧ Accepts .readBlock (bench .recording false [] [] [])
      ∧ Accepts .emitHeader (bench .decoding false [] [] []) ∧ Accepts .writeBlock (bench .decoding true [] [] []) := by
  refine ⟨⟨accepts _ _ rfl, accepts _ _ rfl, accepts _ _ rfl⟩, ?_, accepts _ _ rfl, accepts _ _ rfl, accepts _ _ rfl,
    accepts _ _ rfl, accepts _ _ rfl⟩
  intro fsm hf op ho
  fin_cases hf <;> fin_cases ho <;> exact accepts _ _ rfl

/-! #### Device-side frames -/

theorem witness_FramesSent : (idle 1 [four]).call = none ∧ (idle 1 [four]).quiet = true
    ∧ (∀ n ∈ [1, 32], 1 ≤ n ∧ n ≤ 32) ∧ (∀ n ∈ [0, 33], n = 0 ∨ 32 < n)
    ∧ ({ idle 0 [] with call := some (.select ⟨.data, [0]⟩) } : State).call ≠ none := by decide
/-- Ready at once, and on the last sample of the budget. -/
theorem witness_ReadyOnSampleK : ∀ k ∈ [0, 999], ∃ s : State, ∃ d rx xs cs,
    (Instr.ctrlRead 3).wf = true ∧ encode s.cfg (.ctrlRead 3) = .frame .ctrl [0x03, 0x03, 0x00, 0x00] ∧ s.call = none
      ∧ s.quiet = true ∧ k < s.cfg.readyPolls ∧ rx.length = 4
      ∧ s.dev = ⟨List.replicate k false ++ true :: d, .ok rx :: xs, cs⟩ := by
  intro k hk
  refine ⟨bench .idle false (List.replicate k false ++ [true]) [.ok [1, 2, 3, 4]] [], [], [1, 2, 3, 4], [], [], rfl,
    rfl, rfl, rfl, ?_, rfl, rfl⟩
  fin_cases hk <;> decide
/-- A frame after 1000 not-ready samples, and a command whose only wait times out. -/
theorem witness_TimeoutGoesOn :
    (∃ s : State, (Instr.dataChunk [7]).wf = true ∧ encode s.cfg (.dataChunk [7]) = .frame .data [7] ∧ s.call = none
      ∧ s.quiet = true ∧ s.dev = ⟨List.replicate s.cfg.readyPolls false ++ [], .ok [1] :: [], []⟩)
    ∧ ∃ s : State, ∃ t ev, Accepts .regWrite s ∧ exec (.regWrite 3 4) s = .next t ∧ t.trace = s.trace ++ ev
        ∧ Event.timeout ∈ ev ∧ ev.any Event.failed = false := by
  refine ⟨⟨bench .idle false (List.replicate 1000 false ++ []) [.ok [1]] [], rfl, rfl, rfl, rfl, rfl⟩, ?_⟩
  refine ⟨{ bench .idle false [false] [four] [] with cfg := { Params.p0 with readyPolls := 1 } }, _,
    [.ready false, .delay 1, .timeout, .xfer .ctrl [0x02, 0x03, 0x00, 0x04] four], accepts _ _ rfl, rfl, rfl, ?_, rfl⟩
  decide
theorem witness_FramesLeave : (Instr.ctrlWrite 3 4).opcode? = none ∧ (Instr.ctrlRead 3).opcode? = none
    ∧ (Instr.dataChunk [7]).opcode? = none ∧ (∃ t, exec (.ctrlWrite 3 4) (idle 1 [four]) = .next t)
    ∧ (∃ t, exec (.ctrlRead 3) (idle 1 [.busErr]) = .next t) ∧ ∃ t, exec (.dataChunk [7]) (idle 1 [.ok [0]]) = .next t :=
  ⟨rfl, rfl, rfl, ⟨_, rfl⟩, ⟨_, rfl⟩, ⟨_, rfl⟩⟩

/-! #### Commands on a device that answers -/

theorem witness_RegWriteOk : ∃ s : State, ∃ d rx xs cs, Accepts .regWrite s ∧ 1 ≤ s.cfg.readyPolls ∧ rx.length = 4
    ∧ s.dev = ⟨true :: d, .ok rx :: xs, cs⟩ :=
  ⟨idle 1 [four], [], [0, 0, 0, 0], [], [], accepts _ _ rfl, by decide, rfl, rfl⟩
theorem witness_RegReadOk : ∃ s : State, ∃ d x0 x1 x2 x3 xs cs, Accepts .regRead s ∧ 1 ≤ s.cfg.readyPolls
    ∧ s.dev = ⟨true :: d, .ok [x0, x1, x2, x3] :: xs, cs⟩ :=
  ⟨idle 1 [word 0x12 0x34], [], 0, 0, 0x12, 0x34, [], [], accepts _ _ rfl, by decide, rfl⟩
theorem witness_InitOk : ∃ s : State, ∃ d a b c x0 x1 xs cs, Accepts .init s ∧ 1 ≤ s.cfg.readyPolls
    ∧ s.cfg.verifyOnInit = true ∧ a.length = 4 ∧ b.length = 4 ∧ c.length = 4
    ∧ s.dev = ⟨true :: true :: true :: true :: d, .ok a :: .ok b :: .ok c
        :: .ok [x0, x1, s.cfg.clockDefault.extractLsb' 8 8, s.cfg.clockDefault.extractLsb' 0 8] :: xs,
      true :: true :: cs⟩ :=
  ⟨{ State.reset with dev := ⟨List.replicate 4 true, [four, four, four, word 0x60 0x00], [true, true]⟩ }, [],
    [0, 0, 0, 0], [0, 0, 0, 0], [0, 0, 0, 0], 0, 0, [], [], accepts _ _ rfl, by decide, rfl, rfl, rfl, rfl, by decide⟩
theorem witness_ModeCommandsOk : ∃ s : State, ∃ d rx xs cs, 1 ≤ s.cfg.readyPolls ∧ rx.length = 4
    ∧ s.dev = ⟨true :: d, .ok rx :: xs, cs⟩ ∧ Accepts .stop s ∧ Accepts .startDecode s :=
  ⟨idle 1 [four], [], [0, 0, 0, 0], [], [], by decide, rfl, rfl, accepts _ _ rfl, accepts _ _ rfl⟩
/-- The rates 1 and 65535. -/
theorem witness_StartRecordOk : ∀ sr ∈ [(1 : Word), 0xFFFF], ∃ s : State, ∃ d a xs cs, Accepts .startRecord s
    ∧ 1 ≤ s.cfg.readyPolls ∧ 1 ≤ s.arg0.toNat ∧ s.arg0.toNat ≤ 65535 ∧ s.arg0 = sr ∧ a.length = 4
    ∧ s.dev = ⟨true :: true :: true :: true :: true :: true :: d, .ok a :: .ok a :: .ok a :: .ok a :: .ok a :: xs, cs⟩ := by
  intro sr h
  refine ⟨{ idle 6 (List.replicate 5 four) with arg0 := sr }, [], [0, 0, 0, 0], [], [], accepts _ _ rfl,
    (by decide : 1 ≤ Params.p0.readyPolls), ?_⟩
  fin_cases h <;> exact ⟨by decide, by decide, rfl, rfl, rfl⟩
theorem witness_EmitHeaderOk : ∃ s : State, ∃ d a b xs cs, Accepts .emitHeader s ∧ 1 ≤ s.cfg.readyPolls
    ∧ 1 ≤ s.arg0.toNat ∧ s.arg0.toNat ≤ 65535 ∧ (s.arg1.extractLsb' 0 8 = 1 ∨ s.arg1.extractLsb' 0 8 = 2)
    ∧ a.length = 32 ∧ b.length = 16 ∧ s.dev = ⟨true :: true :: d, .ok a :: .ok b :: xs, cs⟩ :=
  ⟨{ bench .decoding false [true, true] [.ok (List.replicate 32 0), .ok (List.replicate 16 0)] [] with
      arg0 := 0xFFFF, arg1 := 0xFFFFFF02 },
    [], List.replicate 32 0, List.replicate 16 0, [], [], accepts _ _ rfl, by decide, by decide, by decide, by decide, rfl,
    rfl, rfl⟩
/-- 33 bytes, in chunks of 32 and 1, from a BUF that holds them; and none, from a BUF that holds no byte. -/
theorem witness_BlockDataSent :
    (∃ s : State, Accepts .bulkWrite s ∧ s.arg0.toNat = 33 ∧ s.arg0.toNat ≤ s.cfg.bufSize
      ∧ Accepts .writeBlock s ∧ s.hdr = true ∧ s.cfg.blockSize = 33 ∧ s.buf.length = 33)
    ∧ ∃ s : State, Accepts .bulkWrite s ∧ s.arg0.toNat = 0 ∧ s.buf = [] :=
  ⟨⟨{ bench .decoding true [true, true] [.ok (List.replicate 32 0), .busErr] [] with
        cfg := { Params.p0 with blockSize := 33 }, arg0 := 33, buf := (List.range 33).map fun i => (i, 7) },
      accepts _ _ rfl, rfl, by decide, accepts _ _ rfl, rfl, rfl, rfl⟩,
    { idle 0 [] with arg0 := 0 }, accepts _ _ rfl, rfl, rfl⟩
/-- BULK_WRITE of 0, 1, 33 and 256 bytes; WRITE_BLOCK of 1 and 256; EMIT_HEADER at the ends of its ranges. -/
theorem witness_ChunkArithmetic :
    (∀ n ∈ [(0 : Word), 1, 33, 256], ∃ s : State, Accepts .bulkWrite s ∧ s.arg0 = n ∧ s.arg0.toNat ≤ s.cfg.bufSize)
    ∧ (∀ n ∈ [1, 256], ∃ s : State, Accepts .writeBlock s ∧ s.hdr = true ∧ s.cfg.blockSize = n)
    ∧ ∀ sr ∈ [(1 : Word), 0xFFFF], ∀ ch ∈ [(1 : Word), 2], ∃ s : State, Accepts .emitHeader s ∧ 1 ≤ s.arg0.toNat
      ∧ s.arg0.toNat ≤ 65535 ∧ s.arg0 = sr ∧ s.arg1 = ch
      ∧ (s.arg1.extractLsb' 0 8 = 1 ∨ s.arg1.extractLsb' 0 8 = 2) := by
  refine ⟨fun n h => ⟨{ idle 0 [] with arg0 := n }, accepts _ _ rfl, rfl, ?_⟩,
    fun n h => ⟨{ bench .decoding true [] [] [] with cfg := { Params.p0 with blockSize := n } }, accepts _ _ rfl, rfl,
      rfl⟩,
    fun sr hr ch hc => ⟨{ bench .decoding false [] [] [] with arg0 := sr, arg1 := ch }, accepts _ _ rfl, ?_, ?_, rfl,
      rfl, ?_⟩⟩
  · show n.toNat ≤ 256
    fin_cases h <;> decide
  · show 1 ≤ sr.toNat
    fin_cases hr <;> decide
  · show sr.toNat ≤ 65535
    fin_cases hr <;> decide
  · show ch.extractLsb' 0 8 = 1 ∨ ch.extractLsb' 0 8 = 2
    fin_cases hc <;> decide
/-- A drain of two words and of none. -/
theorem witness_ReadBlockStores :
    (∃ s : State, ∃ ws : List (List Byte), ∃ xs, Accepts .readBlock s ∧ 2 = min ((0 : Byte) ++ (2 : Byte)).toNat (min s.arg0.toNat s.cfg.bufSize / 2)
      ∧ s.cfg.bufSize ≤ 3840 ∧ ws.length = 2 ∧ (∀ w ∈ ws, w.length = 4)
      ∧ s.dev.xfers = .ok [0, 0, 0, 2] :: (ws.map .ok ++ xs))
    ∧ ∃ s : State, ∃ xs, Accepts .readBlock s ∧ 0 = min ((0 : Byte) ++ (9 : Byte)).toNat (min s.arg0.toNat s.cfg.bufSize / 2)
      ∧ s.dev.xfers = .ok [0, 0, 0, 9] :: (([] : List (List Byte)).map .ok ++ xs) :=
  ⟨⟨{ bench .recording false [] [word 0 2, .ok [1, 2, 3, 4], .ok [5, 6, 7, 8]] [] with arg0 := 8 },
      [[1, 2, 3, 4], [5, 6, 7, 8]], [], accepts _ _ rfl, by decide, by decide, rfl, by decide, rfl⟩,
    { bench .recording false [] [word 0 9] [] with arg0 := 1 }, [], accepts _ _ rfl, by decide, rfl⟩
theorem witness_ReadBlockWithinCapacity :
    (∃ s : State, ∃ t, s.busy = false ∧ exec (.readBlock 0) s = .next t ∧ s.fsm = .recording)
    ∧ ∃ t, ControlInv draining ∧ DrainBounded draining ∧ ¬ resetLands draining ∧ step draining = .next t :=
  ⟨⟨{ bench .recording false [true, true] [word 0 1, word 0x12 0x34] [] with arg0 := 2 }, _, rfl, rfl, rfl⟩,
    _, draining_control, draining_bounded, no_reset _ rfl, rfl⟩

/-! #### Errors and frames -/

/-- A register write, INIT and STOP that fail, and a drain that fails at its second word (B9). -/
theorem witness_BusErrorOutcome :
    (∃ s : State, ∃ t, Accepts .regWrite s ∧ exec (.regWrite 3 4) s = .next t ∧ t.code = .busError)
    ∧ (∃ s : State, ∃ t, Accepts .init s ∧ exec (.init 0) s = .next t ∧ t.code = .busError)
    ∧ (∃ s : State, ∃ t, Accepts .stop s ∧ exec (.stop 0) s = .next t ∧ t.code = .busError)
    ∧ ∃ s : State, ∃ t, Accepts .readBlock s ∧ exec (.readBlock 0) s = .next t ∧ t.code = .busError ∧ t.result = 2 :=
  ⟨⟨idle 1 [.busErr], _, accepts _ _ rfl, rfl, rfl⟩,
    ⟨{ State.reset with dev := ⟨[], [], [true, false]⟩ }, _, accepts _ _ rfl, rfl, rfl⟩,
    ⟨idle 1 [.busErr], _, accepts _ _ rfl, rfl, rfl⟩,
    { bench .recording false (List.replicate 3 true) [word 0 3, word 0x12 0x34, .busErr] [] with arg0 := 8 }, _,
    accepts _ _ rfl, rfl, rfl, rfl⟩
theorem witness_VerifyFailure : ∃ s : State, ∃ t, (Instr.init 0).opcode? = some .init ∧ Accepts .init s
    ∧ exec (.init 0) s = .next t ∧ t.code = .hwNotResponding :=
  ⟨{ State.reset with dev := ⟨List.replicate 4 true, [four, four, four, word 0x60 0x01], [true, true]⟩ }, _, rfl,
    accepts _ _ rfl, rfl, rfl⟩
/-- StickyFlags, CommandRegisterFrame and CommandMemoryFrame. -/
theorem witness_CommandFrames : ∃ s : State, ∃ t, (Instr.stop 0).opcode? = some .stop
    ∧ encode s.cfg (.stop 0) = .cmd 0x0000000A ∧ s.busy = false ∧ exec (.stop 0) s = .next t :=
  ⟨idle 1 [.busErr], _, rfl, by decide, rfl, rfl⟩
theorem witness_HeaderFields : State.reset.cfg.Wf ∧ 1 ≤ (1 : Word).toNat ∧ (65535 : Word).toNat ≤ 65535
    ∧ ((1 : Byte) = 1 ∨ (1 : Byte) = 2) ∧ ((2 : Byte) = 1 ∨ (2 : Byte) = 2) := by decide

/-! #### The step -/

theorem witness_StepRunsCommand : ∃ s : State, ∃ w i rest, s.cfg.Wf ∧ s.cur = none
    ∧ s.inputs = (5, .write (s.cfg.base + 0x000) .w32 w) :: rest ∧ decode s.cfg (.cmd w) = .ok i :=
  ⟨{ State.reset with inputs := [(5, .write 0x40000000 .w32 1)] }, _, _, _, by decide, rfl, rfl, by rfl⟩
theorem witness_StepRunsFrame : ∃ op j rest ch tx i, draining.cfg.Wf ∧ draining.cfg.writeOp ≠ draining.cfg.readOp
    ∧ draining.cur = some ⟨op, .frame j :: rest⟩ ∧ draining.call = none ∧ draining.ret = none ∧ draining.due = false
    ∧ encode draining.cfg (j.instr draining) = .frame ch tx ∧ decode draining.cfg (.frame ch tx) = .ok i :=
  ⟨_, _, _, _, _, _, by decide, by decide, rfl, rfl, rfl, rfl, rfl, by rfl⟩
theorem witness_FetchWordRuns : State.reset.cfg.Wf ∧ decodeTableWord 32 0x0000000A = some (.stop 0)
    ∧ decodeTableWord 32 0x020B2020 = some (.ctrlWrite 0x0B 0x2020) ∧ decodeTableWord 8 0xFF = some (.dataChunk [0xFF]) :=
  by decide

/-! #### Invariants -/

/-- A drain in progress meets all four invariants, and steps. -/
theorem witness_InvKept : ControlInv draining ∧ SelectInv draining ∧ WireInv draining ∧ MemoryInv draining
    ∧ ∃ t, step draining = .next t :=
  ⟨draining_control, ⟨rfl, rfl⟩,
    { legal := by intro ch tx r h; cases h
      gated := by intro pre e post h; cases pre <;> cases h
      body_ok := draining_body
      call_ok := by intro c t h; cases h
      call_waited := by intro c h; cases h },
    { buf_wf := .nil
      hdr_wf := .nil
      buf_bound := by intro e h; cases h
      hdr_bound := by intro e h; cases h
      body_ok := draining_body },
    _, rfl⟩
/-- A command that completes into another state, a launch that does, and a reset that lands. -/
theorem witness_FsmMoves :
    (∃ t, ControlInv finishing ∧ BodyOk finishing ∧ step finishing = .next t ∧ t.fsm ≠ finishing.fsm)
    ∧ (∃ t, ControlInv stopping ∧ BodyOk stopping ∧ step stopping = .next t ∧ t.fsm ≠ stopping.fsm)
    ∧ ∃ t, ControlInv resetting ∧ BodyOk resetting ∧ step resetting = .next t ∧ t.fsm ≠ resetting.fsm
      ∧ resetLands resetting :=
  ⟨⟨_, finishing_control, finishing_body, rfl, by decide⟩, ⟨_, stopping_control, (by rintro c ⟨⟩), rfl, by decide⟩,
    _, resetting_control, (by rintro c ⟨⟩), rfl, by decide, ⟨_, _, rfl⟩, .inl rfl⟩
theorem witness_HdrChanges :
    (∃ t, ControlInv headerSent ∧ step headerSent = .next t ∧ headerSent.hdr = false ∧ t.hdr = true)
    ∧ (∃ t, ControlInv stopping ∧ step stopping = .next t ∧ stopping.hdr = true ∧ t.hdr = false)
    ∧ ∃ t, ControlInv resetting ∧ step resetting = .next t ∧ resetting.hdr = true ∧ t.hdr = false :=
  ⟨⟨_, headerSent_control, rfl, rfl, rfl⟩, ⟨_, stopping_control, rfl, rfl, rfl⟩, _, resetting_control, rfl, rfl, rfl⟩
/-- With no input, and with a reset listed next that is not yet due. -/
theorem witness_ArgumentsFrozen :
    (∃ c t, ControlInv draining ∧ BodyOk draining ∧ draining.cur = some c ∧ ¬ resetLands draining
      ∧ step draining = .next t)
    ∧ ∃ s : State, ∃ c t, ControlInv s ∧ BodyOk s ∧ s.cur = some c ∧ s.inputs = [(9, .reset)] ∧ ¬ resetLands s
      ∧ step s = .next t :=
  ⟨⟨_, _, draining_control, draining_body, rfl, no_reset _ rfl, rfl⟩,
    { draining with inputs := [(9, .reset)] }, _, _, controlInv_busy _ _ rfl rfl rfl (.inl rfl) rfl (by decide),
    draining_body, rfl, rfl, reset_not_due, rfl⟩
theorem witness_InitReadsReset : ∃ c, ControlInv inInit ∧ inInit.cur = some c ∧ c.op = .init :=
  ⟨_, inInit_control, rfl, rfl⟩
theorem witness_CommandsComplete : ∃ c, inInit.cfg.Wf ∧ ControlInv inInit ∧ BodyOk inInit ∧ inInit.cur = some c
    ∧ inInit.quiet = true :=
  ⟨_, by decide, inInit_control, inInit_body, rfl, rfl⟩

/-- `wait_idle` on an idle controller; and while a command runs with a poll due, not yet due, and none before completion. -/
theorem witness_WaitIdlePolls :
    (∃ s : State, s.cfg.Wf ∧ ControlInv s ∧ BodyOk s ∧ s.inputs = [(0, .waitIdle [])] ∧ s.cur = none)
    ∧ ∀ e ∈ [(0, [0], true), (3, [0], false), (0, [], false)], ∃ s : State, s.cfg.Wf ∧ ControlInv s ∧ BodyOk s
      ∧ s.inputs = [(e.1, .waitIdle e.2.1)] ∧ s.cur ≠ none ∧ s.due = e.2.2 := by
  refine ⟨⟨{ idle 0 [] with inputs := [(0, .waitIdle [])] }, by decide,
    controlInv_idle _ rfl ⟨rfl, rfl, rfl⟩ (.inl rfl) rfl (by decide), by rintro c ⟨⟩, rfl, rfl⟩, fun e h => ?_⟩
  refine ⟨{ draining with inputs := [(e.1, .waitIdle e.2.1)] }, (by decide : Params.p0.Wf),
    controlInv_busy _ _ rfl rfl rfl (.inl rfl) rfl (fun h => by cases h), draining_body, rfl,
    (by intro h; cases h), ?_⟩
  fin_cases h <;> rfl

end Sys2Proof.Tests
end

section
/-! SUPPORT. What a step, an advance and a command's run can do to the fields of the state: the layer under the proofs
of the statements of spec/10_state.md. -/

namespace Sys2Proof.Machine

/-! ### An advance, for any Body -/

/-- STATE, BUSY, HDR and INIT are the same. -/
structure SameControl (u v : State) : Prop where
  fsm : v.fsm = u.fsm
  busy : v.busy = u.busy
  hdr : v.hdr = u.hdr
  initFlag : v.initFlag = u.initFlag

/-- Whatever its Body holds, an advance completes the command, or leaves STATE, BUSY, HDR, INIT and the command. -/
theorem advance_finish_or_same {u : State} {c : Cursor} (hc : u.cur = some c) :
    (∃ code r, advance u = finish c.op code r u)
      ∨ (SameControl u (advance u) ∧ ∃ body, (advance u).cur = some ⟨c.op, body⟩) := by
  apply advance_cases (Q := fun t => (∃ code r, t = finish c.op code r u)
    ∨ (SameControl u t ∧ ∃ body, t.cur = some ⟨c.op, body⟩)) u c hc
  · exact fun k _ => .inr ⟨⟨by simp, by simp, by simp, by simp⟩, c.body, by simp [hc]⟩
  · exact fun _ _ => .inl ⟨.ok, 0, rfl⟩
  · intro _ st rest _
    cases st with
    | finish code r => exact .inl ⟨code, r, rfl⟩
    | configure ch | resetN v | delay n =>
      exact .inr ⟨⟨by simp [advanceStmt], by simp [advanceStmt], by simp [advanceStmt], by simp [advanceStmt]⟩,
        _, setBody_cur ..⟩
    | wait =>
      simp only [advanceStmt]
      split
      · exact .inr ⟨⟨by simp, by simp, by simp, by simp⟩, c.body, by simp [hc]⟩
      · exact .inr ⟨⟨rfl, rfl, rfl, rfl⟩, _, setBody_cur ..⟩
    | frame j =>
      simp only [advanceStmt]
      split
      · exact .inr ⟨⟨by simp, by simp, by simp, by simp⟩, c.body, by simp [hc]⟩
      · unfold takeAnswer
        split <;> exact .inr ⟨⟨by simp, by simp, by simp, by simp⟩, _, setBody_cur ..⟩

/-! ### A Body's start -/

/-- The assignments before a Body's first primitive leave what INIT's, STOP's and EMIT_HEADER's leave. -/
theorem enter_field {α : Type} (f : State → α) {i : Instr} {e : Entry} (he : entryOf i = some e)
    (hinit : ∀ u, f (initEnter u) = f u) (hstop : ∀ u, f (stopEnter u) = f u)
    (hheader : ∀ u, f (emitHeaderEnter u) = f u) (u : State) : f (e.enter u) = f u := by
  cases i <;> simp only [entryOf, Option.some.injEq, reduceCtorEq] at he <;> subst he
  case init => exact hinit u
  case stop => exact hstop u
  case emitHeader => exact hheader u
  all_goals rfl

section
variable {i : Instr} {e : Entry} (he : entryOf i = some e) (s : State)
include he

theorem start_cfg : (e.start s).cfg = s.cfg :=
  enter_field State.cfg he (fun _ => rfl) (fun _ => rfl) emitHeaderEnter_cfg _
theorem start_cmd : (e.start s).cmd = e.word :=
  enter_field State.cmd he (fun _ => rfl) (fun _ => rfl) emitHeaderEnter_cmd _
theorem start_arg0 : (e.start s).arg0 = s.arg0 :=
  enter_field State.arg0 he (fun _ => rfl) (fun _ => rfl) emitHeaderEnter_arg0 _
theorem start_arg1 : (e.start s).arg1 = s.arg1 :=
  enter_field State.arg1 he (fun _ => rfl) (fun _ => rfl) emitHeaderEnter_arg1 _
theorem start_tmo : (e.start s).tmo = s.tmo :=
  enter_field State.tmo he (fun _ => rfl) (fun _ => rfl) emitHeaderEnter_tmo _
theorem start_ovr : (e.start s).ovr = s.ovr :=
  enter_field State.ovr he (fun _ => rfl) (fun _ => rfl) emitHeaderEnter_ovr _
theorem start_berr : (e.start s).berr = s.berr :=
  enter_field State.berr he (fun _ => rfl) (fun _ => rfl) emitHeaderEnter_berr _
theorem start_tmoCount : (e.start s).tmoCount = s.tmoCount :=
  enter_field State.tmoCount he (fun _ => rfl) (fun _ => rfl) emitHeaderEnter_tmoCount _
theorem start_buf : (e.start s).buf = s.buf :=
  enter_field State.buf he (fun _ => rfl) (fun _ => rfl) emitHeaderEnter_buf _
theorem start_resetN : (e.start s).resetN = s.resetN :=
  enter_field State.resetN he (fun _ => rfl) (fun _ => rfl) emitHeaderEnter_resetN _
theorem start_csCtrl : (e.start s).csCtrl = s.csCtrl :=
  enter_field State.csCtrl he (fun _ => rfl) (fun _ => rfl) emitHeaderEnter_csCtrl _
theorem start_csData : (e.start s).csData = s.csData :=
  enter_field State.csData he (fun _ => rfl) (fun _ => rfl) emitHeaderEnter_csData _
theorem start_call : (e.start s).call = none :=
  enter_field State.call he (fun _ => rfl) (fun _ => rfl) emitHeaderEnter_call _
theorem start_trace : (e.start s).trace = s.trace :=
  enter_field State.trace he (fun _ => rfl) (fun _ => rfl) emitHeaderEnter_trace _
theorem start_hostLog : (e.start s).hostLog = s.hostLog :=
  enter_field State.hostLog he (fun _ => rfl) (fun _ => rfl) emitHeaderEnter_hostLog _

/-- Only INIT writes INIT before its first primitive (R220). -/
theorem start_initFlag : (e.start s).initFlag = (if e.op = .init then false else s.initFlag) := by
  cases i <;> simp only [entryOf, Option.some.injEq, reduceCtorEq] at he <;> subst he
  case emitHeader => exact emitHeaderEnter_initFlag _
  all_goals rfl

/-- Only EMIT_HEADER writes HDRBUF before its first primitive: with the header, or with nothing (R285). -/
theorem start_hdrbuf : (e.start s).hdrbuf = s.hdrbuf
    ∨ e.op = .emitHeader ∧ ∃ bs, bs.length = hdrLen ∧ (e.start s).hdrbuf = s.hdrbuf.writeAll 0 bs := by
  cases i <;> simp only [entryOf, Option.some.injEq, reduceCtorEq] at he <;> subst he
  case emitHeader =>
    have h := emitHeaderEnter_hdrbuf
      { s with cmd := cmdWordIgn .emitHeader ‹_›, busy := true, call := none, ret := none }
    split at h
    · exact .inr ⟨rfl, _, headerBytes_length .., h⟩
    · exact .inl h
  all_goals exact .inl rfl

end

/-! ### A command's run -/

/-- The instruction with an opcode is a command, whose launch has it. -/
theorem entry_of_opcode {i : Instr} {op : Opcode} (h : i.opcode? = some op) :
    ∃ e, entryOf i = some e ∧ e.op = op := by
  cases i <;> simp only [Instr.opcode?, Option.some.injEq, reduceCtorEq] at h <;> exact ⟨_, rfl, h⟩

/-- A field that an ignored write, a completion at launch, the start and each advance of a command leave is left by its
run, whatever lands meanwhile. -/
theorem exec_field {α : Type} (f : State → α) {i : Instr} {e : Entry} (he : entryOf i = some e) {s t : State}
    (hx : exec i s = .next t) (hign : f (ignoredWrite s) = f s)
    (hwrong : f (complete .wrongState 0 { s with cmd := e.word, busy := true }) = f s) (hstart : f (e.start s) = f s)
    (hadv : ∀ u c, u.cur = some c → BodyOk u → c.op = e.op → f (advance u) = f u) : f t = f s := by
  by_cases hb : s.busy = true
  · rw [exec_busy he hb, Host.Outcome.next.injEq] at hx
    exact hx ▸ hign
  · have key := exec_keeps (P := fun u => f u = f s ∧ BodyOk u ∧ ∀ c, u.cur = some c → c.op = e.op) he hx
      (fun h => absurd h hb) (fun _ _ => ⟨hwrong, by rintro c ⟨⟩, by rintro c ⟨⟩⟩)
      (fun _ _ => ⟨hstart, start_body s i e he, by rintro c ⟨⟩; rfl⟩)
      (fun u c ⟨hf, hB, hop⟩ hc => ⟨(hadv u c hc hB (hop c hc)).trans hf, advance_body u c hB hc,
        fun d hd => (advance_op u c hc d hd).trans (hop c hc)⟩)
    exact key.1

/-! ### A step -/

/-- A step that goes on does nothing, advances the command in progress, or takes the next input. -/
theorem step_cases {s t : State} (h : step s = .next t) :
    (s.cur = none ∧ t = s)
      ∨ (∃ c, s.cur = some c ∧ t = advance s)
      ∨ ∃ w i rest, s.inputs = (w, i) :: rest ∧ (s.cur = none ∨ s.due = true)
          ∧ perform i { s with inputs := rest } = .next t := by
  unfold step at h
  split at h
  · split at h
    · rename_i hturn
      have hturn : s.cur = none ∨ s.due = true := by simpa using hturn
      split at h
      · rename_i hin
        have hdue : s.due = false := by rw [State.due, hin]; rfl
        exact .inl ⟨hturn.resolve_right (by simp [hdue]), (Host.Outcome.next.inj h).symm⟩
      · exact .inr (.inr ⟨_, _, _, ‹_›, hturn, h⟩)
    · rename_i hturn
      obtain ⟨c, hc⟩ : ∃ c, s.cur = some c := Option.ne_none_iff_exists'.mp fun hn => hturn (by simp [hn])
      exact .inr (.inl ⟨c, hc, stepBody_advance h⟩)
  · simp at h

end Sys2Proof.Machine
end

section
/-! SUPPORT and the proof of O50. What a host input does to STATE, BUSY, HDR and INIT, and that these agree with the
command in progress (spec/10_state.md R31, R45 to R47, R50). -/

namespace Sys2Proof.Machine

/-- CMD is the register at the base of the window. -/
theorem windowReg_cmd {p : Params} {addr : Nat} (hin : inWindow p addr) (h : windowReg p (addr - p.base) = .cmd) :
    addr = p.base + offCmd := by
  unfold windowReg at h
  split at h
  · simp only [offCmd] at *; omega
  · repeat' split at h
    all_goals simp at h

theorem SameControl.refl (u : State) : SameControl u u := ⟨rfl, rfl, rfl, rfl⟩

/-- A write to a register other than CMD leaves STATE, BUSY, HDR and INIT. -/
theorem writeReg_sameControl {r : WindowReg} {v : Word} {u t : State} (hr : r ≠ .cmd) (h : writeReg r v u = .next t) :
    SameControl u t := by
  cases r <;> simp only [writeReg, Host.Outcome.next.injEq] at h
  case cmd => exact absurd rfl hr
  case arg0 | arg1 => subst h; split <;> exact ⟨rfl, rfl, rfl, rfl⟩
  case status => subst h; exact ⟨rfl, rfl, rfl, rfl⟩
  case bufWord k => subst h; split <;> exact ⟨by simp, by simp, by simp, by simp⟩
  all_goals exact h ▸ .refl u

/-- A command accepted in this step: its word is written to CMD, the controller is idle and its state check holds. -/
structure Launched (i : Input) (instr : Instr) (e : Entry) (u t : State) : Prop where
  input : ∃ v, i = .write (u.cfg.base + offCmd) .w32 v ∧ decodeCmd v = .ok instr
  entry : entryOf instr = some e
  idle : u.busy = false
  allow : allowed e.op u.fsm u.hdr = true
  run : exec instr u = .next t

/-- A write to CMD launches a command, or leaves STATE, BUSY, HDR and INIT. -/
theorem writeCmd_launched_or_same {v : Word} {u t : State} (h : writeCmd v u = .next t) :
    (∃ instr e, Launched (.write (u.cfg.base + offCmd) .w32 v) instr e u t) ∨ SameControl u t := by
  by_cases hb : u.busy = true
  · rw [writeCmd_busy v hb, Host.Outcome.next.injEq] at h
    exact .inr (h ▸ ⟨rfl, rfl, rfl, rfl⟩)
  have hb : u.busy = false := by simpa using hb
  unfold writeCmd at h
  split at h
  · rename_i instr hd
    obtain ⟨e, he⟩ := decodeCmd_entry hd
    by_cases ha : allowed e.op u.fsm u.hdr = true
    · exact .inl ⟨instr, e, ⟨v, rfl, hd⟩, he, hb, ha, h⟩
    · rw [exec_entry he, launch_eq, if_neg (by simp [hb]), if_neg ha, Host.Outcome.next.injEq] at h
      exact .inr (h ▸ ⟨rfl, hb.symm, rfl, rfl⟩)
  · rw [illegalCommand, if_neg (by simp [hb]), Host.Outcome.next.injEq] at h
    exact .inr (h ▸ ⟨rfl, hb.symm, rfl, rfl⟩)

/-- An input resets the controller, launches a command, or leaves STATE, BUSY, HDR and INIT. -/
theorem perform_cases {i : Input} {u t : State} (h : perform i u = .next t) :
    (i = .reset ∧ t = controllerReset u) ∨ (∃ instr e, Launched i instr e u t) ∨ SameControl u t := by
  cases i with
  | read addr width =>
    obtain ⟨-, -, h⟩ := guardAccess_next (act := fun s => .next (hostRead addr s)) h
    exact .inr (.inr (Host.Outcome.next.inj h ▸ ⟨by simp, by simp, by simp, by simp⟩))
  | write addr width v =>
    obtain ⟨hin, ⟨rfl, -⟩, hw⟩ := guardAccess_next (act := writeReg (windowReg u.cfg (addr - u.cfg.base)) v) h
    by_cases hr : windowReg u.cfg (addr - u.cfg.base) = .cmd
    · rw [hr] at hw
      rw [windowReg_cmd hin hr]
      exact .inr (writeCmd_launched_or_same hw)
    · exact .inr (.inr (writeReg_sameControl hr hw))
  | waitIdle gaps => exact .inr (.inr (Host.Outcome.next.inj h ▸ ⟨by simp, by simp, by simp, by simp⟩))
  | check addr mask val =>
    simp only [perform] at h
    obtain ⟨-, -, h⟩ := guardAccess_next h
    refine .inr (.inr (Host.Outcome.next.inj h ▸ ?_))
    split <;> exact ⟨by simp, by simp, by simp, by simp⟩
  | reset => exact .inl ⟨rfl, (Host.Outcome.next.inj h).symm⟩

/-! ### STATE, BUSY, HDR, INIT and the command in progress (R31, R45 to R47, R50) -/

/-- The invariant reads STATE, BUSY, HDR, INIT and `st.cur` alone. -/
theorem ControlInv.of_same {s t : State} (h : ControlInv s) (hs : SameControl s t) (hcur : t.cur = s.cur)
    (hcall : t.call = s.call) (hret : t.ret = s.ret) : ControlInv t where
  busy_iff := by rw [hs.busy, hcur]; exact h.busy_iff
  idle_clean := by rw [hcur, hcall, hret]; exact h.idle_clean
  idle_not_reset := by rw [hcur, hs.fsm]; exact h.idle_not_reset
  runs := by rw [hcur, hs.fsm, hs.hdr]; exact h.runs
  hdr_decoding := by rw [hs.hdr, hs.fsm]; exact h.hdr_decoding
  init_flag := by rw [hs.initFlag, hs.fsm]; exact h.init_flag
  ready_init := by rw [hs.initFlag, hs.fsm]; exact h.ready_init

theorem ControlInv.cur_none {s : State} (h : ControlInv s) (hb : s.busy = false) : s.cur = none := by
  simpa [hb] using h.busy_iff

/-- A completed command, where its STATE agrees with HDR and INIT. -/
theorem controlInv_complete {v : State} (code : ResultCode) (r : Word) (hfsm : v.fsm ≠ .reset)
    (hhdr : v.hdr = true → v.fsm = .decoding) (hinit : v.initFlag = true → v.fsm ≠ .uninit)
    (hready : v.fsm = .idle ∨ v.fsm = .recording ∨ v.fsm = .decoding → v.initFlag = true) :
    ControlInv (complete code r v) where
  busy_iff := rfl
  idle_clean _ := ⟨rfl, rfl⟩
  idle_not_reset _ := hfsm
  runs := by rintro c ⟨⟩
  hdr_decoding := hhdr
  init_flag h := ⟨hinit h, hfsm⟩
  ready_init := hready

/-- The changes of STATE, INIT and HDR with a completion, case by case (R32, R45, spec/60_exceptions.md R312). -/
theorem finishFsm_cases {Q : State → Prop} (op : Opcode) (code : ResultCode) (s : State)
    (hinit : op = .init → code = .ok → Q { s with fsm := .idle, initFlag := true })
    (hstop : op = .stop → code = .ok → Q { s with fsm := .idle })
    (hfault : op = .init ∨ op = .stop → code ≠ .ok → Q { s with fsm := .faulted })
    (hrecord : op = .startRecord → code = .ok → Q { s with fsm := .recording })
    (hdecode : op = .startDecode → code = .ok → Q { s with fsm := .decoding, hdr := false })
    (hheader : op = .emitHeader → code = .ok → Q { s with hdr := true })
    (hsame : op ≠ .init → op ≠ .stop → Q s) : Q (finishFsm op code s) := by
  cases op
  case init => cases code with
    | ok => exact hinit rfl rfl
    | _ => exact hfault (.inl rfl) (by simp)
  case stop => cases code with
    | ok => exact hstop rfl rfl
    | _ => exact hfault (.inr rfl) (by simp)
  case startRecord => cases code with
    | ok => exact hrecord rfl rfl
    | _ => exact hsame (by simp) (by simp)
  case startDecode => cases code with
    | ok => exact hdecode rfl rfl
    | _ => exact hsame (by simp) (by simp)
  case emitHeader => cases code with
    | ok => exact hheader rfl rfl
    | _ => exact hsame (by simp) (by simp)
  all_goals exact hsame (by simp) (by simp)

theorem ControlInv.hdr_false {s : State} (h : ControlInv s) (hf : s.fsm ≠ .decoding) : s.hdr = false := by
  by_contra hne
  exact hf (h.hdr_decoding (by simpa using hne))

/-- Only INIT runs in STATE = RESET (R221). -/
theorem opRuns_ne_reset {op : Opcode} {fsm : Fsm} {hdr : Bool} (h : opRuns op fsm hdr) (hop : op ≠ .init) :
    fsm ≠ .reset := by
  rintro rfl
  cases op <;> simp_all [opRuns]

/-- A completion leaves an idle controller that agrees: each FSM change leads to a state that HDR and INIT allow. -/
theorem ControlInv.finish {s : State} {c : Cursor} (h : ControlInv s) (hc : s.cur = some c) (code : ResultCode)
    (r : Word) : ControlInv (finish c.op code r s) := by
  have hruns := h.runs c hc
  have hready := h.ready_init
  apply finishFsm_cases (Q := fun v => ControlInv (Machine.complete code r v))
  · intro hop _
    rw [hop] at hruns
    have hhdr := h.hdr_false (by rw [hruns]; simp)
    exact controlInv_complete _ _ (by simp) (by simp [hhdr]) (by simp) (by simp)
  · intro hop _
    rw [hop] at hruns
    exact controlInv_complete _ _ (by simp) (by simp [hruns.2]) (by simp) (fun _ => hready hruns.1)
  · intro hop _
    have hhdr : s.hdr = false := by
      rcases hop with hop | hop <;> rw [hop] at hruns
      · exact h.hdr_false (by rw [hruns]; simp)
      · exact hruns.2
    exact controlInv_complete _ _ (by simp) (by simp [hhdr]) (by simp) (by simp)
  · intro hop _
    rw [hop] at hruns
    have hhdr := h.hdr_false (by rw [hruns]; simp)
    exact controlInv_complete _ _ (by simp) (by simp [hhdr]) (by simp) (fun _ => hready (.inl hruns))
  · intro hop _
    rw [hop] at hruns
    exact controlInv_complete _ _ (by simp) (by simp) (by simp) (fun _ => hready (.inl hruns))
  · intro hop _
    rw [hop] at hruns
    exact controlInv_complete _ _ (by simp [hruns.1]) (fun _ => hruns.1) (fun hi => (h.init_flag hi).1) hready
  · intro hne _
    exact controlInv_complete _ _ (opRuns_ne_reset hruns hne) h.hdr_decoding (fun hi => (h.init_flag hi).1) hready

/-- An accepted command starts in a state in which it may be in progress (R136, R220, R230). -/
theorem opRuns_start {op : Opcode} {fsm : Fsm} {hdr : Bool} (ha : allowed op fsm hdr = true) :
    opRuns op (if op = .init then .reset else fsm) (if op = .init ∨ op = .stop then false else hdr) := by
  cases op <;> cases fsm <;> simp_all [allowed, opRuns]

/-- A started Body agrees with STATE, HDR and INIT. -/
theorem ControlInv.start {s : State} (h : ControlInv s) {i : Instr} {e : Entry} (he : entryOf i = some e)
    (ha : allowed e.op s.fsm s.hdr = true) : ControlInv (e.start s) := by
  obtain ⟨hfsm, hhdr, hbusy, -⟩ := start_control he s
  have hflag := start_initFlag he s
  have hruns := opRuns_start ha
  rw [← hfsm, ← hhdr] at hruns
  have hcur : ∀ c, (e.start s).cur = some c → opRuns c.op (e.start s).fsm (e.start s).hdr := by
    rintro c ⟨⟩; exact hruns
  by_cases hop : e.op = .init
  · refine ⟨hbusy, by rintro ⟨⟩, by rintro ⟨⟩, hcur, ?_, ?_, ?_⟩ <;> simp [hfsm, hhdr, hflag, hop]
  · rw [if_neg hop] at hfsm hflag
    have hdec : (e.start s).hdr = true → (e.start s).fsm = .decoding := fun ht => by
      rw [hhdr] at ht
      split at ht
      · simp at ht
      · exact hfsm.trans (h.hdr_decoding ht)
    exact ⟨hbusy, by rintro ⟨⟩, by rintro ⟨⟩, hcur, hdec, by rw [hflag, hfsm]; exact h.init_flag,
      by rw [hflag, hfsm]; exact h.ready_init⟩

/-- An advance keeps the agreement. -/
theorem ControlInv.advance {s : State} {c : Cursor} (h : ControlInv s) (hc : s.cur = some c) :
    ControlInv (advance s) := by
  rcases advance_finish_or_same hc with ⟨code, r, hf⟩ | ⟨hs, body, hcur⟩
  · exact hf ▸ h.finish hc code r
  · have hbusy : s.busy = true := by simpa [hc] using h.busy_iff
    refine ⟨by rw [hs.busy, hbusy, hcur]; rfl, by simp [hcur], by simp [hcur], ?_, ?_, ?_, ?_⟩
    · intro d hd
      rw [hcur, Option.some.injEq] at hd
      rw [← hd, hs.fsm, hs.hdr]
      exact h.runs c hc
    · rw [hs.hdr, hs.fsm]; exact h.hdr_decoding
    · rw [hs.initFlag, hs.fsm]; exact h.init_flag
    · rw [hs.initFlag, hs.fsm]; exact h.ready_init

/-- Everything that a step can do keeps the agreement. -/
theorem controlInv_stepKeeps : StepKeeps ControlInv where
  inputs _ _ h := h.of_same ⟨rfl, rfl, rfl, rfl⟩ rfl rfl rfl
  read _ _ h := h.of_same ⟨by simp, by simp, by simp, by simp⟩ (by simp) (by simp) (by simp)
  stopped _ h := h.of_same ⟨rfl, rfl, rfl, rfl⟩ rfl rfl rfl
  reset s _ := controlInv_complete (v := controllerReset s) .ok 0 (by simp) (by simp) (by simp) (by simp)
  ignored _ h _ := h.of_same ⟨rfl, rfl, rfl, rfl⟩ rfl rfl rfl
  arg0 _ _ h _ := h.of_same ⟨rfl, rfl, rfl, rfl⟩ rfl rfl rfl
  arg1 _ _ h _ := h.of_same ⟨rfl, rfl, rfl, rfl⟩ rfl rfl rfl
  status _ _ h := h.of_same ⟨rfl, rfl, rfl, rfl⟩ rfl rfl rfl
  buf _ _ _ h _ _ := h.of_same ⟨by simp, by simp, by simp, by simp⟩ (by simp) (by simp) (by simp)
  atLaunch s w code h hb := controlInv_complete (v := { s with cmd := w, busy := true }) code 0
    (h.idle_not_reset (h.cur_none hb)) h.hdr_decoding (fun hi => (h.init_flag hi).1) h.ready_init
  start _ _ _ he h _ ha := h.start he ha
  advance _ _ h hc := h.advance hc

/-- Settles O50: the agreement of STATE, BUSY, HDR, INIT and `st.cur` is kept by each thing a step can do. -/
theorem controlInvKept : Obligations.ControlInvKept :=
  fun _ _ h hx => controlInv_stepKeeps.step hx h

end Sys2Proof.Machine
end

section
/-! SUPPORT and the proofs of O51, O53 and O54. The chip selects (spec/10_state.md R49), and BUF and HDRBUF (R40, R50),
over a step; the four invariants after reset. -/

namespace Sys2Proof.Machine

/-! ### The chip selects (R49) -/

/-- Between two calls of a procedure no chip select is asserted. -/
theorem SelectInv.released {s : State} (h : SelectInv s) (hc : s.call = none) :
    s.csCtrl = false ∧ s.csData = false := by
  simpa [SelectInv, hc] using h

theorem selectInv_of_released {s : State} (hc : s.call = none) (h : s.csCtrl = false ∧ s.csData = false) :
    SelectInv s := by
  simpa [SelectInv, hc] using h

/-- The invariant reads the chip selects and the call in progress alone. -/
theorem SelectInv.of_same {s t : State} (h : SelectInv s) (hcall : t.call = s.call) (hctrl : t.csCtrl = s.csCtrl)
    (hdata : t.csData = s.csData) : SelectInv t := by
  unfold SelectInv at *
  rw [hcall, hctrl, hdata]
  exact h

/-- A procedure asserts a chip select only for the time of its Xfer. -/
theorem SelectInv.finishCall {s : State} (h : SelectInv s) : SelectInv (finishCall s) :=
  finishCall_keeps callStep_select h

/-- A transaction begins with no chip select asserted. -/
theorem SelectInv.transact {s : State} (h : s.csCtrl = false ∧ s.csData = false) (t : Option Transaction) :
    SelectInv (transact t s) :=
  SelectInv.finishCall (s := beginCall t s) (by simpa [SelectInv] using h)

/-- A statement of a Body stands between two calls: it leaves the chip selects, or calls a procedure. -/
theorem SelectInv.advanceStmt {s : State} (h : SelectInv s) (hc : s.call = none) (op : Opcode) (st : Stmt)
    (rest : List Stmt) : SelectInv (advanceStmt op st rest s) := by
  have hr := h.released hc
  cases st with
  | configure ch =>
    exact selectInv_of_released (by simp [Machine.advanceStmt, hc]) (by simpa [Machine.advanceStmt] using hr)
  | resetN v => exact selectInv_of_released hc hr
  | delay n => exact selectInv_of_released hc hr
  | wait =>
    simp only [Machine.advanceStmt]
    split
    · exact .transact hr _
    · exact selectInv_of_released hc hr
  | frame j =>
    simp only [Machine.advanceStmt]
    split
    · exact .transact (by simpa using hr) _
    · unfold takeAnswer
      split <;> exact selectInv_of_released (by simp [hc]) (by simpa using hr)
  | finish code r => exact selectInv_of_released rfl (by simpa [Machine.advanceStmt, finish] using hr)

theorem SelectInv.advance {s : State} {c : Cursor} (h : SelectInv s) (hc : s.cur = some c) : SelectInv (advance s) := by
  apply advance_cases (Q := SelectInv) s c hc
  · exact fun _ _ => h.finishCall
  · exact fun hcall _ => selectInv_of_released rfl (by simpa [finish] using h.released hcall)
  · exact fun hcall st rest _ => h.advanceStmt hcall _ st rest

/-- Everything that a step can do keeps the chip selects right; that an idle controller is in no call is the agreement
of `ControlInv`. -/
theorem selectInv_stepKeeps : StepKeeps fun s => ControlInv s ∧ SelectInv s where
  inputs s l h := ⟨controlInv_stepKeeps.inputs s l h.1, h.2.of_same rfl rfl rfl⟩
  read s a h := ⟨controlInv_stepKeeps.read s a h.1, h.2.of_same (by simp) (by simp) (by simp)⟩
  stopped s h := ⟨controlInv_stepKeeps.stopped s h.1, h.2.of_same rfl rfl rfl⟩
  reset s h := ⟨controlInv_stepKeeps.reset s h.1, selectInv_of_released rfl ⟨rfl, rfl⟩⟩
  ignored s h hb := ⟨controlInv_stepKeeps.ignored s h.1 hb, h.2.of_same rfl rfl rfl⟩
  arg0 s v h hb := ⟨controlInv_stepKeeps.arg0 s v h.1 hb, h.2.of_same rfl rfl rfl⟩
  arg1 s v h hb := ⟨controlInv_stepKeeps.arg1 s v h.1 hb, h.2.of_same rfl rfl rfl⟩
  status s v h := ⟨controlInv_stepKeeps.status s v h.1, h.2.of_same rfl rfl rfl⟩
  buf s k v h hb hk := ⟨controlInv_stepKeeps.buf s k v h.1 hb hk, h.2.of_same (by simp) (by simp) (by simp)⟩
  atLaunch s w code h hb := ⟨controlInv_stepKeeps.atLaunch s w code h.1 hb,
    selectInv_of_released rfl (h.2.released (h.1.idle_clean (h.1.cur_none hb)).1)⟩
  start s i e he h hb ha := ⟨controlInv_stepKeeps.start s i e he h.1 hb ha,
    selectInv_of_released (start_call he s) (by
      rw [start_csCtrl he, start_csData he]
      exact h.2.released (h.1.idle_clean (h.1.cur_none hb)).1)⟩
  advance s c h hc := ⟨controlInv_stepKeeps.advance s c h.1 hc, h.2.advance hc⟩

/-- Settles O51: a chip select changes only in the two actions of an Xfer, and every other thing a step can do happens
between two calls. -/
theorem selectInvKept : Obligations.SelectInvKept :=
  fun _ _ hc hs hx => (selectInv_stepKeeps.step hx ⟨hc, hs⟩).2

/-! ### BUF and HDRBUF (R40, R50) -/

/-- A memory in canonical form with every byte below a bound. -/
def Memory.within (m : Memory) (n : Nat) : Prop := m.wf ∧ ∀ e ∈ m, e.1 < n

theorem Memory.within_nil (n : Nat) : Memory.within [] n := ⟨.nil, by simp⟩

theorem Memory.within_write {m : Memory} {n a : Nat} (h : m.within n) (ha : a < n) (v : Byte) :
    (m.write a v).within n := by
  refine ⟨Memory.wf_write h.1 a v, fun e he => ?_⟩
  rcases Memory.mem_write he with rfl | he
  · exact ha
  · exact h.2 e he

theorem Memory.within_writeAll {m : Memory} {n a : Nat} (h : m.within n) {vs : List Byte} (ha : a + vs.length ≤ n) :
    (m.writeAll a vs).within n := by
  refine ⟨Memory.wf_writeAll h.1 a vs, fun e he => ?_⟩
  rcases Memory.mem_writeAll he with hin | he
  · omega
  · exact h.2 e he

theorem memoryInv_iff (s : State) :
    MemoryInv s ↔ s.buf.within s.cfg.bufSize ∧ s.hdrbuf.within hdrLen ∧ BodyOk s :=
  ⟨fun ⟨bw, hw, bb, hb, hB⟩ => ⟨⟨bw, bb⟩, ⟨hw, hb⟩, hB⟩,
    fun ⟨⟨bw, bb⟩, ⟨hw, hb⟩, hB⟩ => ⟨bw, hw, bb, hb, hB⟩⟩

/-- The invariant reads the parameters, the two memories and the command in progress alone. -/
theorem MemoryInv.of_same {s t : State} (h : MemoryInv s) (hcfg : t.cfg = s.cfg) (hbuf : t.buf = s.buf)
    (hhdr : t.hdrbuf = s.hdrbuf) (hcur : t.cur = s.cur) : MemoryInv t := by
  rw [memoryInv_iff] at *
  unfold BodyOk at *
  rw [hcfg, hbuf, hhdr, hcur]
  exact h

/-- An advance leaves BUF, or it stores a word of a drain in it (R260). -/
theorem advance_buf_or_store {s : State} {c : Cursor} (hc : s.cur = some c) :
    (advance s).buf = s.buf
      ∨ ∃ k w, .frame (.word k) ∈ c.body ∧ (advance s).buf = (storeWord k w s).buf := by
  apply advance_cases (Q := fun t => t.buf = s.buf
    ∨ ∃ k w, .frame (.word k) ∈ c.body ∧ t.buf = (storeWord k w s).buf) s c hc
  · exact fun _ _ => .inl (by simp)
  · exact fun _ _ => .inl (by simp [finish])
  · intro _ st rest hb
    cases st with
    | configure ch | resetN v | delay n | finish code r => exact .inl (by simp [advanceStmt, finish])
    | wait => simp only [advanceStmt]; split <;> exact .inl (by simp)
    | frame j =>
      simp only [advanceStmt]
      split
      · exact .inl (by simp)
      · unfold takeAnswer
        split
        · exact .inl rfl
        · cases j with
          | word k => exact .inr ⟨k, _, by simp [hb], rfl⟩
          | _ => exact .inl rfl
        · exact .inl rfl
        · exact .inl rfl

/-- An advance keeps the memories: a drain's words lie within BUF. -/
theorem MemoryInv.advance {s : State} {c : Cursor} (h : MemoryInv s) (hc : s.cur = some c) :
    MemoryInv (advance s) := by
  obtain ⟨hbuf, hhdr, hB⟩ := (memoryInv_iff s).mp h
  refine (memoryInv_iff _).mpr ⟨?_, by rw [advance_hdrbuf]; exact hhdr, advance_body s c hB hc⟩
  rw [advance_cfg]
  rcases advance_buf_or_store hc with hs | ⟨k, w, hk, hs⟩
  · rw [hs]; exact hbuf
  · have hin : 2 * k + 1 < s.cfg.bufSize := (hB c hc _ hk).2
    rw [hs]
    exact Memory.within_write (Memory.within_write hbuf (by omega) _) hin _

/-- A started Body keeps the memories: EMIT_HEADER's header fills HDRBUF and goes no further. -/
theorem MemoryInv.start {s : State} (h : MemoryInv s) {i : Instr} {e : Entry} (he : entryOf i = some e) :
    MemoryInv (e.start s) := by
  obtain ⟨hbuf, hhdr, -⟩ := (memoryInv_iff s).mp h
  refine (memoryInv_iff _).mpr ⟨by rw [start_buf he, start_cfg he]; exact hbuf, ?_, start_body s i e he⟩
  rcases start_hdrbuf he s with hs | ⟨-, bs, hlen, hs⟩
  · rw [hs]; exact hhdr
  · rw [hs]; exact Memory.within_writeAll hhdr (by omega)

/-- Everything that a step can do keeps the memories. -/
theorem memoryInv_stepKeeps : StepKeeps MemoryInv where
  inputs _ _ h := h.of_same rfl rfl rfl rfl
  read _ _ h := h.of_same (by simp) (by simp) (by simp) (by simp)
  stopped _ h := h.of_same rfl rfl rfl rfl
  reset s _ := (memoryInv_iff (controllerReset s)).mpr ⟨Memory.within_nil _, Memory.within_nil _, by rintro c ⟨⟩⟩
  ignored _ h _ := h.of_same rfl rfl rfl rfl
  arg0 _ _ h _ := h.of_same rfl rfl rfl rfl
  arg1 _ _ h _ := h.of_same rfl rfl rfl rfl
  status _ _ h := h.of_same rfl rfl rfl rfl
  buf s k v h _ hk := by
    obtain ⟨hbuf, hhdr, hB⟩ := (memoryInv_iff s).mp h
    have hlen : 4 * k + (le32 v).length ≤ s.cfg.bufSize := hk
    exact (memoryInv_iff _).mpr ⟨by simpa using Memory.within_writeAll hbuf hlen, by simpa using hhdr,
      by simpa [BodyOk] using hB⟩
  atLaunch s w code h _ := by
    obtain ⟨hbuf, hhdr, -⟩ := (memoryInv_iff s).mp h
    exact (memoryInv_iff _).mpr ⟨hbuf, hhdr, by rintro c ⟨⟩⟩
  start _ _ _ he h _ _ := h.start he
  advance _ _ h hc := h.advance hc

/-- Settles O53: each of the three writers, a host write to BUF, a drain and BuildHeader, writes in place and in
bounds. -/
theorem memoryInvKept : Obligations.MemoryInvKept :=
  fun _ _ h hx => memoryInv_stepKeeps.step hx h

/-! ### After reset -/

/-- No transaction has been sent after reset, and none is to come. -/
theorem wireInv_reset (p : Params) : WireInv (State.resetWith p) where
  legal := by rintro ch tx r ⟨⟩
  gated := by
    intro pre e post h
    simp [State.resetWith] at h
  body_ok := by rintro c ⟨⟩
  call_ok := by rintro c t ⟨⟩
  call_waited := by rintro c ⟨⟩

theorem inv_reset (p : Params) : Inv (State.resetWith p) where
  control := controlInv_complete (v := State.resetWith p) .ok 0 (by simp [State.resetWith]) (by simp [State.resetWith])
    (by simp [State.resetWith]) (by simp [State.resetWith])
  select := ⟨rfl, rfl⟩
  wire := wireInv_reset p
  memory := (memoryInv_iff _).mpr ⟨Memory.within_nil _, Memory.within_nil _, by rintro c ⟨⟩⟩

/-- Settles O54: every field of the reset state is empty or 0, whatever the parameters. -/
theorem invAtReset : Obligations.InvAtReset := ⟨inv_reset, inv_reset Params.p0⟩

end Sys2Proof.Machine
end

section
/-! SUPPORT and the proofs of O55 and O56. What a step does to STATE and HDR (spec/10_state.md R31, R32, R45): nothing, a
controller reset, or the work on one command. -/

namespace Sys2Proof.Machine

/-! ### The command that a step works on -/

/-- A step finds the command in progress, or it accepts it. -/
def admits (op : Opcode) (fsm : Fsm) (hdr : Bool) : Prop := opRuns op fsm hdr ∨ allowed op fsm hdr = true

theorem admits_init {fsm : Fsm} {hdr : Bool} (h : admits .init fsm hdr) :
    fsm = .uninit ∨ fsm = .idle ∨ fsm = .faulted ∨ fsm = .reset := by
  cases fsm <;> simp_all [admits, opRuns, allowed]

theorem admits_stop {fsm : Fsm} {hdr : Bool} (h : admits .stop fsm hdr) :
    fsm = .idle ∨ fsm = .recording ∨ fsm = .decoding := by
  cases fsm <;> simp_all [admits, opRuns, allowed]

theorem admits_startRecord {fsm : Fsm} {hdr : Bool} (h : admits .startRecord fsm hdr) : fsm = .idle := by
  cases fsm <;> simp_all [admits, opRuns, allowed]

theorem admits_startDecode {fsm : Fsm} {hdr : Bool} (h : admits .startDecode fsm hdr) : fsm = .idle := by
  cases fsm <;> simp_all [admits, opRuns, allowed]

theorem admits_emitHeader {fsm : Fsm} {hdr : Bool} (h : admits .emitHeader fsm hdr) : fsm = .decoding := by
  cases fsm <;> simp_all [admits, opRuns, allowed]

/-- STATE and HDR as a Body of op, begun in s, has them until it completes (R220, R230). -/
structure BodyControl (op : Opcode) (s u : State) : Prop where
  fsm : u.fsm = if op = .init then .reset else s.fsm
  hdr : u.hdr = if op = .init ∨ op = .stop then false else s.hdr

/-- The step works on the command op: it leaves its Body in progress, or completes it. -/
structure StepsCommand (op : Opcode) (s t : State) : Prop where
  works : stepOp s = some op
  admitted : admits op s.fsm s.hdr
  outcome : (BodyControl op s t ∧ t.busy = true)
    ∨ ∃ u code r, BodyControl op s u ∧ t = finish op code r u ∧ (BodyOk s → stmtOk s.cfg op (.finish code r))

/-- A command in progress has STATE and HDR as its Body left them. -/
theorem ControlInv.bodyControl {s : State} {c : Cursor} (h : ControlInv s) (hc : s.cur = some c) :
    BodyControl c.op s s := by
  have hruns := h.runs c hc
  constructor
  · split
    · rename_i hop; rw [hop] at hruns; exact hruns
    · rfl
  · split
    · rename_i hop
      rcases hop with hop | hop <;> rw [hop] at hruns
      · exact h.hdr_false (by rw [hruns]; simp)
      · exact hruns.2
    · rfl

/-- A step that advances a command works on it, or leaves STATE and HDR. -/
theorem advance_stepsCommand {s : State} {c : Cursor} (h : ControlInv s) (hc : s.cur = some c) :
    SameControl s (advance s) ∨ StepsCommand c.op s (advance s) := by
  rcases advance_finish_or_same hc with ⟨code, r, hf⟩ | ⟨hs, -⟩
  · refine .inr ⟨by simp [stepOp, hc], .inl (h.runs c hc), .inr ⟨s, code, r, h.bodyControl hc, hf, fun hB => ?_⟩⟩
    rcases advance_or_finish s c hc hB with ⟨code', r', hf', hst⟩ | ⟨⟨d, hd, -⟩, -⟩
    · have hcode : code = code' := congrArg State.code (hf.symm.trans hf')
      exact hcode ▸ hst
    · rw [hf] at hd; simp [finish] at hd
  · exact .inl hs

/-- A step that launches a command works on it. -/
theorem launched_stepsCommand {s t : State} {w : Nat} {i : Input} {rest : List (Nat × Input)} {instr : Instr}
    {e : Entry} (hcur : s.cur = none) (hin : s.inputs = (w, i) :: rest)
    (hl : Launched i instr e { s with inputs := rest } t) : StepsCommand e.op s t := by
  obtain ⟨⟨v, rfl, hd⟩, he, hidle, hallow, hrun⟩ := hl
  obtain ⟨hfsm, hhdr, hbusy, -⟩ := start_control he { s with inputs := rest }
  refine ⟨by simp [stepOp, hcur, hin, hd, (entry_opcode he s.cfg).1], .inr hallow, ?_⟩
  obtain ⟨u, ufsm, uhdr, ubusy, -, ht | ⟨code, r, ht, hst⟩⟩ := exec_outcome he hidle hallow hrun
  · rw [ht.1]
    exact .inl ⟨⟨ufsm.trans hfsm, uhdr.trans hhdr⟩, ubusy.trans hbusy⟩
  · exact .inr ⟨u, code, r, ⟨ufsm.trans hfsm, uhdr.trans hhdr⟩, ht, fun _ => hst⟩

/-- What a step can do to STATE and HDR: nothing, a controller reset, or the work on one command. -/
theorem step_control {s t : State} (h : ControlInv s) (hx : step s = .next t) :
    SameControl s t ∨ (resetLands s ∧ ∃ u, t = controllerReset u) ∨ ∃ op, StepsCommand op s t := by
  rcases step_cases hx with ⟨-, rfl⟩ | ⟨c, hc, rfl⟩ | ⟨w, i, rest, hin, hturn, hp⟩
  · exact .inl (.refl _)
  · exact (advance_stepsCommand h hc).imp id fun hs => .inr ⟨c.op, hs⟩
  · rcases perform_cases hp with ⟨rfl, rfl⟩ | ⟨instr, e, hl⟩ | hs
    · exact .inr (.inl ⟨⟨⟨w, rest, hin⟩, hturn⟩, _, rfl⟩)
    · exact .inr (.inr ⟨e.op, launched_stepsCommand (h.cur_none hl.idle) hin hl⟩)
    · exact .inl ⟨hs.fsm, hs.busy, hs.hdr, hs.initFlag⟩

/-! ### STATE (R31, R32) -/

/-- A completion that changes STATE is a row of the table of R32, and its result code is the row's. -/
theorem finish_fsmMove {op : Opcode} {code : ResultCode} {r : Word} {s u : State} (ha : admits op s.fsm s.hdr)
    (hu : BodyControl op s u) (hst : stmtOk s.cfg op (.finish code r)) (hne : (finish op code r u).fsm ≠ s.fsm) :
    fsmMove op s.fsm (finish op code r u).fsm code false := by
  revert hne
  apply finishFsm_cases (Q := fun v => v.fsm ≠ s.fsm → fsmMove op s.fsm v.fsm code false)
  · rintro rfl rfl -
    exact ⟨admits_init ha, .inr (.inl ⟨rfl, rfl, rfl⟩)⟩
  · rintro rfl rfl -
    exact ⟨admits_stop ha, .inl ⟨rfl, rfl⟩, rfl⟩
  · rintro (rfl | rfl) hcode -
    · have hcodes : code = .busError ∨ code = .hwNotResponding := by simpa [stmtOk, hcode] using hst
      exact ⟨admits_init ha, .inr (.inr ⟨rfl, hcodes, rfl⟩)⟩
    · have hcodes : code = .busError := by simpa [stmtOk, hcode] using hst
      exact ⟨admits_stop ha, .inr ⟨rfl, hcodes⟩, rfl⟩
  · rintro rfl rfl -
    exact ⟨admits_startRecord ha, rfl, rfl, rfl⟩
  · rintro rfl rfl -
    exact ⟨admits_startDecode ha, rfl, rfl, rfl⟩
  · rintro rfl rfl hne
    exact absurd (hu.fsm.trans (if_neg (by simp))) hne
  · intro hinit _ hne
    exact absurd (hu.fsm.trans (if_neg hinit)) hne

/-- Settles O55: the work on one command moves STATE by its start, which is INIT's to RESET, or by its completion. -/
theorem fsmMoves : Obligations.FsmMoves := by
  intro s t h hB hx hne
  rcases step_control h hx with hs | ⟨hr, u, rfl⟩ | ⟨op, hop, ha, ⟨hc, hbusy⟩ | ⟨u, code, r, hu, rfl, hst⟩⟩
  · exact absurd hs.fsm hne
  · exact .inr ⟨hr, rfl⟩
  · refine .inl ⟨op, hop, ?_⟩
    by_cases hinit : op = .init
    · subst hinit
      exact ⟨admits_init ha, .inl ⟨hc.fsm, hbusy⟩⟩
    · exact absurd (hc.fsm.trans (if_neg hinit)) hne
  · exact .inl ⟨op, hop, finish_fsmMove ha hu (hst hB) hne⟩

/-! ### HDR (R45) -/

/-- A completion sets HDR only as EMIT_HEADER's with OK. -/
theorem finish_sets_hdr {op : Opcode} {code : ResultCode} {r : Word} {u : State} (hu : u.hdr = false)
    (ht : (finish op code r u).hdr = true) : op = .emitHeader ∧ code = .ok := by
  revert ht
  apply finishFsm_cases (Q := fun v => v.hdr = true → op = .emitHeader ∧ code = .ok)
  case hheader => exact fun hop hcode _ => ⟨hop, hcode⟩
  all_goals simp [hu]

/-- A completion clears HDR only as START_DECODE's. -/
theorem finish_clears_hdr {op : Opcode} {code : ResultCode} {r : Word} {u : State} (hu : u.hdr = true)
    (ht : (finish op code r u).hdr = false) : op = .startDecode := by
  revert ht
  apply finishFsm_cases (Q := fun v => v.hdr = false → op = .startDecode)
  case hdecode => exact fun hop _ _ => hop
  all_goals simp [hu]

/-- A Body clears HDR, while it is set, only as STOP's: no INIT finds it set. -/
theorem BodyControl.hdr_kept {op : Opcode} {s u : State} (h : ControlInv s) (ha : admits op s.fsm s.hdr)
    (hu : BodyControl op s u) (hs : s.hdr = true) (hop : op ≠ .stop) : u.hdr = true := by
  have hinit : op ≠ .init := by
    rintro rfl
    have := admits_init ha
    simp [h.hdr_decoding hs] at this
  rw [hu.hdr, if_neg (by simp [hinit, hop]), hs]

/-- Settles O56: of the commands a step may work on, only EMIT_HEADER's completion sets HDR and only STOP's Body clears
it, since INIT and START_DECODE are admitted only where HDR = 0. -/
theorem hdrChanges : Obligations.HdrChanges := by
  intro s t h hx
  rcases step_control h hx with hs | ⟨hr, u, rfl⟩ | ⟨op, hop, ha, ⟨hc, -⟩ | ⟨u, code, r, hu, rfl, -⟩⟩
  · exact ⟨fun h0 h1 => absurd (hs.hdr.symm.trans h1) (by simp [h0]),
      fun h1 h0 => absurd (hs.hdr.symm.trans h0) (by simp [h1])⟩
  · exact ⟨fun _ h1 => by simp at h1, fun _ _ => .inr hr⟩
  · refine ⟨fun h0 h1 => absurd (hc.hdr.symm.trans h1) (by simp [h0]), fun h1 h0 => ?_⟩
    by_cases hstop : op = .stop
    · exact .inl (hstop ▸ hop)
    · exact absurd h0 (by simp [hc.hdr_kept h ha h1 hstop])
  · refine ⟨fun h0 h1 => ?_, fun h1 h0 => ?_⟩
    · obtain ⟨rfl, rfl⟩ := finish_sets_hdr (by simp [hu.hdr, h0]) h1
      exact ⟨hop, rfl, rfl, admits_emitHeader ha⟩
    · by_cases hstop : op = .stop
      · exact .inl (hstop ▸ hop)
      · have hdecode := finish_clears_hdr (hu.hdr_kept h ha h1 hstop) h0
        subst hdecode
        exact absurd (admits_startDecode ha) (by simp [h.hdr_decoding h1])

end Sys2Proof.Machine
end

section
/-! SUPPORT and the proofs of O42, O43 and O44. What a command's run leaves, in every run and whatever lands meanwhile
(spec/10_state.md R32, R34 to R36, R40, R45 to R50), and the sticky flags over it (R39, R42 to R44). -/

namespace Sys2Proof.Machine

/-! ### The registers and the memory a command leaves -/

section
variable {s t : State} {i : Instr} {e : Entry} (he : entryOf i = some e) (hx : exec i s = .next t)
include he hx

theorem exec_cfg : t.cfg = s.cfg :=
  exec_field State.cfg he hx rfl rfl (start_cfg he s) fun u _ _ _ _ => advance_cfg u
theorem exec_arg0 : t.arg0 = s.arg0 :=
  exec_field State.arg0 he hx rfl rfl (start_arg0 he s) fun u _ _ _ _ => advance_arg0 u
theorem exec_arg1 : t.arg1 = s.arg1 :=
  exec_field State.arg1 he hx rfl rfl (start_arg1 he s) fun u _ _ _ _ => advance_arg1 u
theorem exec_hostLog : t.hostLog = s.hostLog :=
  exec_field State.hostLog he hx rfl rfl (start_hostLog he s) fun u _ _ _ _ => advance_hostLog u

theorem exec_resetN (hop : e.op ≠ .init) : t.resetN = s.resetN :=
  exec_field State.resetN he hx rfl rfl (start_resetN he s) fun u c hc hB ho =>
    advance_resetN u c hc hB (by rwa [ho])

theorem exec_initFlag (hop : e.op ≠ .init) : t.initFlag = s.initFlag :=
  exec_field State.initFlag he hx rfl rfl ((start_initFlag he s).trans (if_neg hop)) fun u c hc hB ho =>
    advance_initFlag u c hc hB (by rwa [ho])

theorem exec_hdr (hinit : e.op ≠ .init) (hstop : e.op ≠ .stop) (hdec : e.op ≠ .startDecode)
    (hemit : e.op ≠ .emitHeader) : t.hdr = s.hdr :=
  exec_field State.hdr he hx rfl rfl ((start_control he s).2.1.trans (if_neg (by simp [hinit, hstop])))
    fun u c hc hB ho => advance_hdr u c hc hB (by rw [ho]; exact ⟨hdec, hemit⟩)

theorem exec_fsm (hinit : e.op ≠ .init) (hstop : e.op ≠ .stop) (hrec : e.op ≠ .startRecord)
    (hdec : e.op ≠ .startDecode) : t.fsm = s.fsm :=
  exec_field State.fsm he hx rfl rfl ((start_control he s).1.trans (if_neg hinit))
    fun u c hc hB ho => advance_fsm u c hc hB (by rw [ho]; exact ⟨hinit, hstop, hrec, hdec⟩)

theorem exec_buf (hop : e.op ≠ .readBlock) : t.buf = s.buf :=
  exec_field State.buf he hx rfl rfl (start_buf he s) fun u c hc hB ho => advance_buf u c hc hB (by rwa [ho])

theorem exec_hdrbuf (hop : e.op ≠ .emitHeader) : t.hdrbuf = s.hdrbuf :=
  exec_field State.hdrbuf he hx rfl rfl ((start_hdrbuf he s).resolve_right fun h => hop h.1)
    fun u _ _ _ _ => advance_hdrbuf u

/-- CMD holds the word of a command that is not ignored (R34, R132). -/
theorem exec_cmd : t.cmd = if s.busy then s.cmd else e.word := by
  split
  · rw [exec_busy he ‹_›, Host.Outcome.next.injEq] at hx
    exact hx ▸ rfl
  · exact exec_keeps (P := fun u => u.cmd = e.word) he hx (fun hb => absurd hb ‹_›) (fun _ _ => rfl)
      (fun _ _ => start_cmd he s) (fun u _ hu _ => (advance_cmd u).trans hu)

end

/-- Settles O43: a field at a time, what an ignored write, a completion at launch, a start and an advance leave. -/
theorem commandRegisterFrame : Obligations.CommandRegisterFrame := by
  intro s t i op w hi hw hx
  obtain ⟨e, he, rfl⟩ := entry_of_opcode hi
  have hword : e.word = w := Encoded.cmd.inj ((entry_opcode he s.cfg).2.symm.trans hw)
  exact ⟨exec_cfg he hx, exec_arg0 he hx, exec_arg1 he hx, exec_hostLog he hx, hword ▸ exec_cmd he hx,
    fun hop => ⟨exec_resetN he hx hop, exec_initFlag he hx hop⟩, exec_hdr he hx, exec_fsm he hx⟩

/-- Settles O44: READ_BLOCK alone stores in BUF as it runs, and EMIT_HEADER alone fills HDRBUF, as it starts. -/
theorem commandMemoryFrame : Obligations.CommandMemoryFrame := by
  intro s t i op hi hx
  obtain ⟨e, he, rfl⟩ := entry_of_opcode hi
  exact ⟨fun hop a => by rw [exec_buf he hx hop], fun hop a => by rw [exec_hdrbuf he hx hop]⟩

/-! ### The sticky flags (R39, R42 to R44) -/

/-- The events ev have been added from s to t, and TMO, BERR and TMO_COUNT have followed them; OVR is the same. -/
structure FlagsFollow (ev : List Event) (s t : State) : Prop where
  trace : t.trace = s.trace ++ ev
  tmo : t.tmo = (s.tmo || decide (timeouts ev ≠ 0))
  berr : t.berr = (s.berr || ev.any Event.failed)
  count : t.tmoCount.toNat = min (s.tmoCount.toNat + timeouts ev) 0xFFFFFFFF
  ovr : t.ovr = s.ovr

theorem timeouts_append (a b : List Event) : timeouts (a ++ b) = timeouts a + timeouts b := by
  simp [timeouts, List.countP_append]

theorem FlagsFollow.trans {a b : List Event} {s t u : State} (h : FlagsFollow a s t) (k : FlagsFollow b t u) :
    FlagsFollow (a ++ b) s u where
  trace := by rw [k.trace, h.trace, List.append_assoc]
  tmo := by
    rw [k.tmo, h.tmo, timeouts_append, Bool.or_assoc, ← Bool.decide_or]
    congr 2
    apply propext
    omega
  berr := by rw [k.berr, h.berr, List.any_append, Bool.or_assoc]
  count := by rw [k.count, h.count, timeouts_append]; omega
  ovr := k.ovr.trans h.ovr

/-- Nothing happens: no event, and the flags stay. -/
theorem FlagsFollow.none {s t : State} (htrace : t.trace = s.trace) (htmo : t.tmo = s.tmo) (hberr : t.berr = s.berr)
    (hcount : t.tmoCount = s.tmoCount) (hovr : t.ovr = s.ovr) : FlagsFollow [] s t where
  trace := by simp [htrace]
  tmo := by simp [htmo, timeouts]
  berr := by simp [hberr]
  count := by
    have : s.tmoCount.toNat < 2 ^ 32 := s.tmoCount.isLt
    rw [hcount]; simp only [timeouts, List.countP_nil]; omega
  ovr := hovr

/-- One event that is no timeout: BERR follows its answer. -/
theorem FlagsFollow.one {s t : State} {e : Event} (he : e ≠ .timeout) (htrace : t.trace = s.trace ++ [e])
    (htmo : t.tmo = s.tmo) (hberr : t.berr = (s.berr || e.failed)) (hcount : t.tmoCount = s.tmoCount)
    (hovr : t.ovr = s.ovr) : FlagsFollow [e] s t where
  trace := htrace
  tmo := by simp [htmo, timeouts, he]
  berr := by simp [hberr]
  count := by
    have : s.tmoCount.toNat < 2 ^ 32 := s.tmoCount.isLt
    have h0 : timeouts [e] = 0 := by simp [timeouts, he]
    rw [hcount, h0]; omega
  ovr := hovr

/-- TMO_COUNT counts one more timeout, up to 0xFFFFFFFF (R39). -/
theorem satSucc_toNat (c : Word) : (satSucc c).toNat = min (c.toNat + 1) 0xFFFFFFFF := by
  unfold satSucc
  split
  · subst_vars; rfl
  · rename_i hne
    have hlt : c.toNat ≠ 0xFFFFFFFF := fun h => hne (BitVec.eq_of_toNat_eq h)
    have := c.isLt
    rw [BitVec.toNat_add]
    simp
    omega

/-- A timed-out wait: TMO and TMO_COUNT follow its event (R42, R161). -/
theorem flagsFollow_timeout {s t : State} (htrace : t.trace = s.trace ++ [.timeout]) (htmo : t.tmo = true)
    (hberr : t.berr = s.berr) (hcount : t.tmoCount = satSucc s.tmoCount) (hovr : t.ovr = s.ovr) :
    FlagsFollow [.timeout] s t where
  trace := htrace
  tmo := by simp [htmo, timeouts]
  berr := by simp [hberr, Event.failed]
  count := by rw [hcount, satSucc_toNat]; rfl
  ovr := hovr

/-- An action of a procedure adds one event and sets the flags by it, or it adds none. -/
theorem callStep_flagsFollow (k : Call) (s : State) : ∃ ev, FlagsFollow ev s (callStep k s) := by
  cases k with
  | sample n t =>
    cases n with
    | zero => refine ⟨_, flagsFollow_timeout ?_ ?_ ?_ ?_ ?_⟩ <;> simp [callStep]
    | succ n =>
      simp only [callStep]
      split <;> refine ⟨_, .one (e := .ready (sampleAnswer s)) (by simp) ?_ ?_ ?_ ?_ ?_⟩ <;> simp [Event.failed]
  | pollDelay n t =>
    exact ⟨_, .one (e := .delay s.cfg.pollIntervalTicks) (by simp) rfl rfl (by simp [callStep, Event.failed]) rfl rfl⟩
  | select t => refine ⟨[], .none ?_ ?_ ?_ ?_ ?_⟩ <;> simp [callStep]
  | shift t =>
    refine ⟨_, .one (e := .xfer t.ch t.bytes (xferAnswer t.bytes.length s)) (by simp) ?_ ?_ ?_ ?_ ?_⟩ <;>
      simp [callStep, Event.failed]

theorem tick_flagsFollow (s : State) : FlagsFollow [] s (tick s) := .none rfl rfl rfl rfl rfl

theorem finishCall_flagsFollow (s : State) : ∃ ev, FlagsFollow ev s (finishCall s) :=
  finishCall_keeps (P := fun u => ∃ ev, FlagsFollow ev s u)
    (fun u k ⟨_, hu⟩ _ =>
      have ⟨_, hk⟩ := callStep_flagsFollow k u
      ⟨_, (hu.trans hk).trans (tick_flagsFollow _)⟩)
    ⟨[], .none rfl rfl rfl rfl rfl⟩

theorem transact_flagsFollow (t : Option Transaction) (s : State) : ∃ ev, FlagsFollow ev s (transact t s) :=
  have hbegin : FlagsFollow [] s (beginCall t s) := .none rfl rfl rfl rfl rfl
  have ⟨_, h⟩ := finishCall_flagsFollow (beginCall t s)
  ⟨_, hbegin.trans h⟩

theorem finish_flagsFollow (op : Opcode) (code : ResultCode) (r : Word) (s : State) :
    FlagsFollow [] s (finish op code r s) := by
  apply FlagsFollow.none <;> simp [finish]

/-- A statement of a Body adds the events of its primitives, and the flags follow them. -/
theorem advanceStmt_flagsFollow (op : Opcode) (st : Stmt) (rest : List Stmt) (s : State) :
    ∃ ev, FlagsFollow ev s (advanceStmt op st rest s) := by
  cases st with
  | configure ch =>
    refine ⟨_, .one (e := .configure ch (configAnswer s)) (by simp) ?_ ?_ ?_ ?_ ?_⟩ <;>
      simp [advanceStmt, Event.failed]
  | resetN v =>
    exact ⟨_, .one (e := .resetN v) (by simp) rfl rfl (by simp [advanceStmt, Event.failed]) rfl rfl⟩
  | delay n =>
    exact ⟨_, .one (e := .delay n) (by simp) rfl rfl (by simp [advanceStmt, Event.failed]) rfl rfl⟩
  | wait =>
    simp only [advanceStmt]
    split
    · exact transact_flagsFollow none s
    · exact ⟨[], .none rfl rfl rfl rfl rfl⟩
  | frame j =>
    simp only [advanceStmt]
    split
    · have ⟨_, h⟩ := transact_flagsFollow (frameOf s.cfg (j.instr s)) (j.load s)
      have hload : FlagsFollow [] s (j.load s) := .none (by simp) (by simp) (by simp) (by simp) (by simp)
      exact ⟨_, hload.trans h⟩
    · unfold takeAnswer
      split <;> refine ⟨[], .none ?_ ?_ ?_ ?_ ?_⟩ <;> simp
  | finish code r => exact ⟨[], finish_flagsFollow op code r s⟩

theorem advance_flagsFollow {s : State} {c : Cursor} (hc : s.cur = some c) : ∃ ev, FlagsFollow ev s (advance s) :=
  advance_cases (Q := fun t => ∃ ev, FlagsFollow ev s t) s c hc (fun _ _ => finishCall_flagsFollow s)
    (fun _ _ => ⟨[], finish_flagsFollow c.op .ok 0 s⟩) (fun _ st rest _ => advanceStmt_flagsFollow c.op st rest s)

/-- Settles O42: the flags follow the events of each advance, and so those of the run. -/
theorem stickyFlags : Obligations.StickyFlags := by
  intro s t i op hi hb hx
  obtain ⟨e, he, -⟩ := entry_of_opcode hi
  have ⟨ev, hev⟩ := exec_keeps (P := fun u => ∃ ev, FlagsFollow ev s u) he hx (by simp [hb])
    (fun _ _ => ⟨[], .none rfl rfl rfl rfl rfl⟩)
    (fun _ _ => ⟨[], .none (start_trace he s) (start_tmo he s) (start_berr he s) (start_tmoCount he s)
      (start_ovr he s)⟩)
    (fun u c ⟨_, hu⟩ hc =>
      have ⟨_, ha⟩ := advance_flagsFollow hc
      ⟨_, hu.trans ha⟩)
  exact ⟨ev, hev.trace, hev.tmo, hev.berr, hev.count, hev.ovr⟩

end Sys2Proof.Machine
end

section
/-! SUPPORT and the proofs of O2, O7, O8 and O49. Words and frames against their encodings (spec/30_encoding.md R101 to
R107), the STATUS word (spec/10_state.md R37), host reads (R33, R41), and the word that the next step fetches (R52). -/

namespace Sys2Proof

/-- A CMD word is the encoding of the command it launches: OP tells the command, and every other bit is kept. -/
theorem encode_decodeCmd (p : Params) {w : Word} {i : Instr} (h : decodeCmd w = .ok i) : encode p i = .cmd w := by
  have hop : ∀ op : Opcode, (cmdOp w).toNat = op.byte.toNat → cmdOp w = op.byte := fun _ => BitVec.eq_of_toNat_eq
  unfold decodeCmd at h
  split at h
  case h_11 => simp at h
  all_goals
    rename_i hw
    simp only [Except.ok.injEq] at h
    subst h
  case h_2 => exact congrArg Encoded.cmd (cmdWord_fields w .regWrite (hop .regWrite hw))
  case h_3 => exact congrArg Encoded.cmd (cmdWord_fields w .regRead (hop .regRead hw))
  case h_1 => exact congrArg Encoded.cmd (cmdWordIgn_fields w .init (hop .init hw))
  case h_4 => exact congrArg Encoded.cmd (cmdWordIgn_fields w .bulkWrite (hop .bulkWrite hw))
  case h_5 => exact congrArg Encoded.cmd (cmdWordIgn_fields w .startRecord (hop .startRecord hw))
  case h_6 => exact congrArg Encoded.cmd (cmdWordIgn_fields w .readBlock (hop .readBlock hw))
  case h_7 => exact congrArg Encoded.cmd (cmdWordIgn_fields w .startDecode (hop .startDecode hw))
  case h_8 => exact congrArg Encoded.cmd (cmdWordIgn_fields w .emitHeader (hop .emitHeader hw))
  case h_9 => exact congrArg Encoded.cmd (cmdWordIgn_fields w .writeBlock (hop .writeBlock hw))
  case h_10 => exact congrArg Encoded.cmd (cmdWordIgn_fields w .stop (hop .stop hw))

/-- A control frame is the encoding of what it decodes to: a write's four bytes, or a read's filled with DUMMY_BYTE. -/
theorem encode_decodeCtrl (p : Params) {bytes : List Byte} {i : Instr} (h : decodeCtrl p bytes = .ok i) :
    encode p i = .frame .ctrl bytes := by
  unfold decodeCtrl at h
  split at h
  · split at h
    · rename_i hw
      simp only [Except.ok.injEq] at h
      subst h
      simp [encode, writeFrame, hw]
    · split at h
      · rename_i hr
        split at h
        · rename_i hd
          simp only [Except.ok.injEq] at h
          subst h
          simp [encode, readFrame, hr, hd]
        · simp at h
      · simp at h
  · simp at h

theorem encode_decodeChunk (p : Params) {bytes : List Byte} {i : Instr} (h : decodeChunk bytes = .ok i) :
    encode p i = .frame .data bytes := by
  unfold decodeChunk at h
  split at h
  · simp only [Except.ok.injEq] at h
    subst h
    rfl
  · simp at h

/-- Settles O2, a carrier at a time. -/
theorem encodeDecode : Obligations.EncodeDecode := by
  intro p e i h
  match e with
  | .cmd w => exact encode_decodeCmd p h
  | .frame .ctrl bytes => exact encode_decodeCtrl p h
  | .frame .data bytes => exact encode_decodeChunk p h

end Sys2Proof

namespace Sys2Proof.Machine

/-! ### STATUS (R37) -/

/-- A flag is one bit. -/
theorem flagBit_getLsbD (v : Bool) : (flagBit v).getLsbD 0 = v := by cases v <;> rfl

/-- STATUS[2:0] is STATE: the last field of the concatenation. -/
theorem statusWord_state (s : State) : (statusWord s).extractLsb' 0 3 = s.fsm.bits := by
  apply BitVec.eq_of_getLsbD_eq
  intro b hb
  simp only [statusWord, BitVec.getLsbD_extractLsb', BitVec.getLsbD_append, Nat.zero_add, hb, decide_true,
    Bool.true_and, if_true]

/-- STATUS[11:8] is RESULT_CODE: 8 bits of other fields stand below it. -/
theorem statusWord_code (s : State) : (statusWord s).extractLsb' 8 4 = s.code.bits := by
  apply BitVec.eq_of_getLsbD_eq
  intro b hb
  simp only [statusWord, BitVec.getLsbD_extractLsb', BitVec.getLsbD_append, hb, decide_true, Bool.true_and]
  iterate 6 rw [if_neg (by omega)]
  rw [if_pos (by omega)]
  congr 1
  omega

/-- STATUS[31:13] reads as 0: 13 bits of fields stand below it. -/
theorem statusWord_top (s : State) : (statusWord s).extractLsb' 13 19 = 0 := by
  apply BitVec.eq_of_getLsbD_eq
  intro b hb
  simp only [statusWord, BitVec.getLsbD_extractLsb', BitVec.getLsbD_append]
  iterate 8 rw [if_neg (by omega)]
  simp

/-- Settles O8: each field stands above the widths of the fields below it (R37). -/
theorem statusFields : Obligations.StatusFields := by
  intro s
  have flag := flagBit_getLsbD
  refine ⟨?_, statusWord_busy s, ?_, ?_, ?_, ?_, ?_, ?_, statusWord_top s⟩
  · rw [statusWord_state]; cases s.fsm <;> rfl
  · simp only [statusWord, BitVec.getLsbD_append]; exact flag s.tmo
  · simp only [statusWord, BitVec.getLsbD_append]; exact flag s.ovr
  · simp only [statusWord, BitVec.getLsbD_append]; exact flag s.hdr
  · simp only [statusWord, BitVec.getLsbD_append]; exact flag s.initFlag
  · rw [statusWord_code]; cases s.code <;> rfl
  · simp only [statusWord, BitVec.getLsbD_append]; exact flag s.berr

/-! ### Host reads (R33, R41, R74) -/

/-- A BUF word whose four bytes are written reads as them, byte 4k in bits 7:0, and draws nothing (R78). -/
theorem bufWord_read {s : State} {k : Nat} {b0 b1 b2 b3 : Byte} (h0 : s.buf.read? (4 * k) = some b0)
    (h1 : s.buf.read? (4 * k + 1) = some b1) (h2 : s.buf.read? (4 * k + 2) = some b2)
    (h3 : s.buf.read? (4 * k + 3) = some b3) :
    readReg (.bufWord k) s = b3 ++ b2 ++ b1 ++ b0 ∧ readDraws (.bufWord k) s = s.draws := by
  have h : s.buf.readAll (4 * k) s.draws 4 = ([b0, b1, b2, b3], s.draws) :=
    Memory.readAll_written (vs := [b0, b1, b2, b3]) s.draws fun j hj => by
      match j with
      | 0 => exact h0
      | 1 => exact h1
      | 2 => exact h2
      | 3 => exact h3
      | j + 4 => simp only [List.length_cons, List.length_nil] at hj; omega
  exact ⟨by rw [readReg, bufWordBytes, h]; rfl, by rw [readDraws, h]⟩

/-- Below BUF no read draws a value. -/
theorem readDraws_below (s : State) {off : Nat} (h : off < offBuf) : readDraws (windowReg s.cfg off) s = s.draws := by
  unfold windowReg
  repeat' split
  all_goals first | rfl | skip
  simp only [offBuf] at *; omega

/-- Settles O7: the value is that of the register at the offset. -/
theorem hostReadValues : Obligations.HostReadValues := by
  intro s off hoff halign
  refine ⟨_, _, perform_read_offset s hoff halign, ?_, ?_, ?_, ?_, ?_, ?_, ?_, ?_, readDraws_below s⟩
  iterate 6 (rintro rfl; rfl)
  · rintro k b0 b1 b2 b3 rfl hk h0 h1 h2 h3
    rw [windowReg_buf s.cfg hk]
    exact bufWord_read h0 h1 h2 h3
  · intro hlow hrange
    rw [windowReg_unmapped s.cfg hlow hrange]
    rfl

/-! ### The word that the next step fetches (R52, R131, R342) -/

/-- What decodes from a frame is no command. -/
theorem frame_no_entry {p : Params} {ch : Channel} {bytes : List Byte} {i : Instr} {e : Entry}
    (h : encode p i = .frame ch bytes) : entryOf i ≠ some e := fun he => by
  simp [(entry_opcode he p).2] at h

/-- A table word that is a command is its CMD word. -/
theorem decodeTableWord_command {nbits w : Nat} {i : Instr} {e : Entry} (h : decodeTableWord nbits w = some i)
    (he : entryOf i = some e) : decodeCmd (BitVec.ofNat 32 w) = .ok i := by
  unfold decodeTableWord at h
  split at h
  · split at h
    · rename_i hcmd
      exact Option.some.inj h ▸ hcmd
    · split at h
      · rename_i hctrl
        rw [Option.some.inj h] at hctrl
        exact absurd he (frame_no_entry (encode_decodeCtrl _ hctrl))
      · simp at h
  · split at h
    · split at h
      · rename_i hchunk
        rw [Option.some.inj h] at hchunk
        exact absurd he (frame_no_entry (encode_decodeChunk Params.p0 hchunk))
      · simp at h
    · simp at h

/-- An idle controller takes the write to CMD that is its next input. -/
theorem step_writeCmd {s : State} {n : Nat} {v : Word} {rest : List (Nat × Input)} (hp : s.cfg.Wf) (hc : s.cur = none)
    (hin : s.inputs = (n, .write (s.cfg.base + offCmd) .w32 v) :: rest) :
    step s = writeCmd v { s with inputs := rest } := by
  unfold step
  rw [if_pos hp, if_pos (by simp [hc]), hin]
  exact perform_write_offset { s with inputs := rest } v (by simp) rfl

/-- A Body that sends a frame next runs it. -/
theorem step_withJob {s : State} (hp : s.cfg.Wf) (op : Opcode) (j : Job) :
    step (s.withJob op j) = exec (j.instr (s.withJob op j)) (j.load (s.withJob op j)) := by
  unfold step
  rw [if_pos (show (s.withJob op j).cfg.Wf from hp), if_neg (by simp [State.withJob, State.due, dueInputs])]
  rfl

/-- The state u at which the fetched instruction runs: outside any transaction, and otherwise as s. -/
def FetchState (s u : State) : Prop :=
  u.cfg = s.cfg ∧ u.fsm = s.fsm ∧ u.arg0 = s.arg0 ∧ u.arg1 = s.arg1 ∧ u.hdr = s.hdr ∧ u.dev = s.dev
    ∧ u.trace = s.trace ∧ u.call = none

theorem fetchState_withJob (s : State) (op : Opcode) (j : Job) : FetchState s (j.load (s.withJob op j)) := by
  simp [FetchState, State.withJob]

/-- The controller with the write of a word to CMD as the host's next access. -/
def State.withCmdWrite (s : State) (v : Word) : State :=
  { s with
    busy := false
    cur := none
    call := none
    ret := none
    inputs := (0, .write (s.cfg.base + offCmd) .w32 v) :: s.inputs }

theorem withFetchWord_command {nbits w : Nat} {i : Instr} {e : Entry} (h : decodeTableWord nbits w = some i)
    (he : entryOf i = some e) (s : State) : s.withFetchWord nbits w = s.withCmdWrite (BitVec.ofNat 32 w) := by
  unfold State.withFetchWord
  rw [h]
  cases i <;> simp only [entryOf, reduceCtorEq] at he <;> rfl

/-- A command is fetched from the host's next access. -/
theorem fetch_command {s : State} {nbits w : Nat} {i : Instr} {e : Entry} (hp : s.cfg.Wf)
    (h : decodeTableWord nbits w = some i) (he : entryOf i = some e) :
    ∃ u, step (s.withFetchWord nbits w) = exec i u ∧ FetchState s u := by
  rw [withFetchWord_command h he,
    step_writeCmd (s := s.withCmdWrite _) (v := BitVec.ofNat 32 w) (n := 0) (rest := s.inputs) hp rfl rfl, writeCmd,
    decodeTableWord_command h he]
  exact ⟨_, rfl, rfl, rfl, rfl, rfl, rfl, rfl, rfl, rfl⟩

/-- A frame is fetched from the Body that sends it. -/
theorem fetch_frame {s : State} (hp : s.cfg.Wf) (op : Opcode) (j : Job) {i : Instr}
    (hi : j.instr (s.withJob op j) = i) : ∃ u, step (s.withJob op j) = exec i u ∧ FetchState s u :=
  ⟨_, hi ▸ step_withJob hp op j, fetchState_withJob s op j⟩

/-- Settles O49: a command by the write to CMD, a frame by the Body that sends it. -/
theorem fetchWordRuns : Obligations.FetchWordRuns := by
  intro s nbits w i hp h
  show ∃ u, step (s.withFetchWord nbits w) = exec i u ∧ FetchState s u
  cases i
  case ctrlWrite r v =>
    rw [State.withFetchWord, h]
    exact fetch_frame hp _ _ rfl
  case ctrlRead r =>
    rw [State.withFetchWord, h]
    exact fetch_frame hp _ _ rfl
  case dataChunk payload =>
    rw [State.withFetchWord, h]
    have hbytes : ((s.buf.writeAll 0 payload).readAll 0 s.draws payload.length).1 = payload := by
      rw [Memory.readAll_writeAll]
    exact fetch_frame (s := { s with buf := s.buf.writeAll 0 payload }) hp _ _ (congrArg Instr.dataChunk hbytes)
  all_goals exact fetch_command hp h rfl

end Sys2Proof.Machine
end

section
/-! SUPPORT and the proofs of O9, O10, O26 and O57. What a host write does to the controller, idle and busy
(spec/20_memory.md R73, R75, R91), and how a device-side frame is sent or refused (R88). -/

namespace Sys2Proof.Machine

/-! ### Accesses that are illegal (R73) -/

/-- A narrow or an unaligned access of the window is a bus error, whatever it would do. -/
theorem guardAccess_illegal (s : State) {off : Nat} {width : Width} (act : State → Host.Outcome State Fault Refusal)
    (hoff : off < windowSize) (h : width ≠ .w32 ∨ off % 4 ≠ 0) :
    guardAccess (s.cfg.base + off) width s act = .fault (.hostBusError (s.cfg.base + off) width) := by
  rw [guardAccess, if_pos (inWindow_offset s.cfg hoff), if_neg (accessIllegal_offset s.cfg h)]

/-- Settles O10: reads and writes pass the same guard. -/
theorem illegalAccessFaults : Obligations.IllegalAccessFaults := fun s _ _ _ hoff h =>
  ⟨guardAccess_illegal s (fun s => .next (hostRead _ s)) hoff h, guardAccess_illegal s (writeReg _ _) hoff h⟩

/-! ### Legal host writes (R75) -/

/-- A CMD word that decodes is run as its command (R131). -/
theorem writeCmd_ok {v : Word} {i : Instr} (h : decodeCmd v = .ok i) (s : State) : writeCmd v s = exec i s := by
  rw [writeCmd, h]

/-- A CMD word that does not decode completes with ILLEGAL_COMMAND, written while idle (R134). -/
theorem writeCmd_error {v : Word} {e : DecodeError} (h : decodeCmd v = .error e) {s : State} (hb : s.busy = false) :
    writeCmd v s = .next (complete .illegalCommand 0 (accepted v s)) := by
  rw [writeCmd, h]
  show Host.Outcome.next (illegalCommand v s) = _
  rw [illegalCommand, if_neg (by simp [hb])]
  rfl

/-- The bytes of BUF word k after the write of v to it: byte 4k is v[7:0] (R78). -/
theorem writeBufWord_read (k : Nat) (v : Word) (s : State) :
    (writeBufWord k v s).buf.read? (4 * k) = some (v.extractLsb' 0 8)
      ∧ (writeBufWord k v s).buf.read? (4 * k + 1) = some (v.extractLsb' 8 8)
      ∧ (writeBufWord k v s).buf.read? (4 * k + 2) = some (v.extractLsb' 16 8)
      ∧ (writeBufWord k v s).buf.read? (4 * k + 3) = some (v.extractLsb' 24 8) := by
  simp [Memory.read?_writeAll, le32]

/-- The write of BUF word k leaves every byte outside it. -/
theorem writeBufWord_read_other {k a : Nat} (v : Word) (s : State) (h : a < 4 * k ∨ 4 * k + 4 ≤ a) :
    (writeBufWord k v s).buf.read? a = s.buf.read? a := by
  have hout : ¬ (4 * k ≤ a ∧ a < 4 * k + (le32 v).length) := by
    simp only [le32, List.length_cons, List.length_nil]
    omega
  rw [writeBufWord_buf, Memory.read?_writeAll, if_neg hout]

/-- A legal write of BUF word k: ignored while a command runs (R132), else its four bytes together. -/
theorem perform_write_buf (s : State) (v : Word) {k : Nat} (hk : 4 * k < s.cfg.bufSize)
    (hsize : s.cfg.bufSize ≤ 3840) :
    perform (.write (s.cfg.base + (offBuf + 4 * k)) .w32 v) s
      = .next (if s.busy then ignoredWrite s else writeBufWord k v s) := by
  rw [perform_write_offset s v (by simp only [offBuf, windowSize]; omega) (by simp only [offBuf]; omega),
    windowReg_buf s.cfg hk]
  rfl

/-- Settles O9: the register at each offset, then what a write does to it. -/
theorem hostWriteEffects : Obligations.HostWriteEffects := by
  intro s v
  refine ⟨?_, ?_, ?_, ?_, ?_, ?_, ?_, ?_, ?_⟩
  · refine (perform_write_offset s v (off := offCmd) (by decide) rfl).trans ?_
    show writeCmd v s = _
    by_cases hb : s.busy = true
    · rw [if_pos hb, writeCmd_busy v hb]
      rfl
    · rw [if_neg hb]
      cases hd : decodeCmd v with
      | ok i => exact writeCmd_ok hd s
      | error e => exact writeCmd_error hd (by simpa using hb)
  · exact perform_write_offset s v (off := offArg0) (by decide) rfl
  · exact perform_write_offset s v (off := offArg1) (by decide) rfl
  · exact perform_write_offset s v (off := offStatus) (by decide) rfl
  · exact perform_write_offset s v (off := offResult) (by decide) rfl
  · exact perform_write_offset s v (off := offTmoCount) (by decide) rfl
  · intro k hk hsize hb
    exact (perform_write_buf s v hk hsize).trans (by rw [if_pos hb]; rfl)
  · intro k hk hsize hb
    obtain ⟨h0, h1, h2, h3⟩ := writeBufWord_read k v s
    exact ⟨_, (perform_write_buf s v hk hsize).trans (by rw [if_neg (by simp [hb])]; rfl), h0, h1, h2, h3,
      fun a ha => writeBufWord_read_other v s ha⟩
  · intro off hoff halign hlow hrange
    rw [perform_write_offset s v hoff halign, windowReg_unmapped s.cfg hlow hrange]
    rfl

/-! ### The device-side frames (R88, R160) -/

/-- A frame asked for while a transaction is in progress is refused. -/
theorem sendFrame_refused (t : Transaction) {s : State} (h : s.call ≠ none) :
    sendFrame t s = .refused .transactionInProgress := by
  unfold sendFrame
  split
  · rfl
  · exact absurd ‹s.call = none› h

theorem exec_dataChunk_ok {payload : List Byte} (h : chunkOk payload) (s : State) :
    exec (.dataChunk payload) s = sendFrame ⟨.data, payload⟩ s :=
  if_pos h

theorem exec_dataChunk_never {payload : List Byte} (h : ¬ chunkOk payload) (s : State) :
    exec (.dataChunk payload) s = .refused (.chunkNeverSent payload.length) :=
  if_neg h

/-- Settles O26: every frame is one `sendFrame`, behind the length check of a chunk. -/
theorem framesSent : Obligations.FramesSent := by
  intro s
  refine ⟨fun hc hq => ⟨fun r v => ?_, fun r => ?_, fun payload h1 h32 => ?_⟩, fun payload h => ?_,
    fun hc => ⟨fun r v => ?_, fun r => ?_, fun payload h1 h32 => ?_⟩⟩
  · exact sendFrame_quiet ⟨.ctrl, writeFrame s.cfg r v⟩ hc hq
  · exact sendFrame_quiet ⟨.ctrl, readFrame s.cfg r⟩ hc hq
  · rw [exec_dataChunk_ok ⟨h1, h32⟩, sendFrame_quiet _ hc hq]
  · exact exec_dataChunk_never (by simp only [chunkOk, chunkMax]; omega) s
  · exact sendFrame_refused _ hc
  · exact sendFrame_refused _ hc
  · rw [exec_dataChunk_ok ⟨h1, h32⟩, sendFrame_refused _ hc]

/-! ### The arguments of a command in progress (R91) -/

/-- CMD, ARG0, ARG1 and BUF are the same: all that a command takes its arguments from. -/
structure SameArguments (s t : State) : Prop where
  cmd : t.cmd = s.cmd
  arg0 : t.arg0 = s.arg0
  arg1 : t.arg1 = s.arg1
  buf : t.buf = s.buf

/-- While a command runs, a write to any register sets OVR, clears flags of STATUS, or does nothing (R75, R132). -/
theorem writeReg_busy {r : WindowReg} {v : Word} {s t : State} (hb : s.busy = true) (h : writeReg r v s = .next t) :
    t = ignoredWrite s ∨ t = clearFlags v s ∨ t = s := by
  cases r <;> simp only [writeReg, hb, if_true, Host.Outcome.next.injEq] at h
  case cmd => rw [writeCmd_busy v hb, Host.Outcome.next.injEq] at h; exact .inl h.symm
  case arg0 | arg1 | bufWord => exact .inl h.symm
  case status => exact .inr (.inl h.symm)
  all_goals exact .inr (.inr h.symm)

/-- No input but a controller reset changes the arguments of a command in progress. -/
theorem perform_busy_sameArguments {i : Input} {s t : State} (hb : s.busy = true) (hi : i ≠ .reset)
    (h : perform i s = .next t) : SameArguments s t := by
  cases i with
  | read addr width =>
    obtain ⟨-, -, h⟩ := guardAccess_next (act := fun s => .next (hostRead addr s)) h
    exact Host.Outcome.next.inj h ▸ ⟨by simp, by simp, by simp, by simp⟩
  | write addr width v =>
    obtain ⟨-, -, h⟩ := guardAccess_next (act := writeReg (windowReg s.cfg (addr - s.cfg.base)) v) h
    rcases writeReg_busy hb h with rfl | rfl | rfl <;> exact ⟨rfl, rfl, rfl, rfl⟩
  | waitIdle gaps => exact Host.Outcome.next.inj h ▸ ⟨by simp, by simp, by simp, by simp⟩
  | check addr mask val =>
    simp only [perform] at h
    obtain ⟨-, -, h⟩ := guardAccess_next h
    refine Host.Outcome.next.inj h ▸ ?_
    split <;> exact ⟨by simp, by simp, by simp, by simp⟩
  | reset => exact absurd rfl hi

/-- Settles O57: an advance leaves them, BUF but for READ_BLOCK's stores, and so does any input but a reset. -/
theorem argumentsFrozen : Obligations.ArgumentsFrozen := by
  intro s t c hinv hbody hc hreset hx
  have hb : s.busy = true := by rw [hinv.busy_iff, hc]; rfl
  rcases step_cases hx with ⟨hidle, -⟩ | ⟨-, -, rfl⟩ | ⟨w, i, rest, hin, hturn, hp⟩
  · simp [hc] at hidle
  · exact ⟨advance_cmd s, advance_arg0 s, advance_arg1 s, advance_buf s c hc hbody⟩
  · have hi : i ≠ .reset := by
      rintro rfl
      exact hreset ⟨⟨w, rest, hin⟩, hturn⟩
    obtain ⟨hcmd, harg0, harg1, hbuf⟩ := perform_busy_sameArguments (s := { s with inputs := rest }) hb hi hp
    exact ⟨hcmd, harg0, harg1, fun _ => hbuf⟩

end Sys2Proof.Machine
end

section
/-! SUPPORT and the proof of O52. What the controller sends (spec/30_encoding.md R105 to R108) and the ready wait before
it (spec/41_handshake_bus.md R160), over an action of a procedure, a statement of a Body and a step. -/

namespace Sys2Proof.Machine

/-- Whether a Body is legal is read off the parameters and the command in progress alone. -/
theorem BodyOk.of_same {s t : State} (h : BodyOk s) (hcfg : t.cfg = s.cfg) (hcur : t.cur = s.cur) : BodyOk t := by
  unfold BodyOk
  rw [hcfg, hcur]
  exact h

/-- The invariant reads the parameters, the command and the call in progress, and the trace alone. -/
theorem WireInv.of_same {s t : State} (h : WireInv s) (hcfg : t.cfg = s.cfg) (hcur : t.cur = s.cur)
    (hcall : t.call = s.call) (htrace : t.trace = s.trace) : WireInv t where
  legal := by rw [hcfg, htrace]; exact h.legal
  gated := by rw [htrace]; exact h.gated
  body_ok := h.body_ok.of_same hcfg hcur
  call_ok := by rw [hcall, hcfg]; exact h.call_ok
  call_waited := by rw [hcall, htrace]; exact h.call_waited

/-- Between two calls, with nothing sent, only the Body may differ. -/
theorem WireInv.of_no_call {s t : State} (h : WireInv s) (hcall : t.call = none) (hcfg : t.cfg = s.cfg)
    (htrace : t.trace = s.trace) (hbody : BodyOk t) : WireInv t where
  legal := by rw [hcfg, htrace]; exact h.legal
  gated := by rw [htrace]; exact h.gated
  body_ok := hbody
  call_ok c t hc := by simp [hcall] at hc
  call_waited c hc := by simp [hcall] at hc

/-- One event that sends nothing, in a call that has ended its wait only if the event ends it. -/
theorem WireInv.event {s t : State} {e : Event} (h : WireInv s) (he : e.isXfer = false) (hcfg : t.cfg = s.cfg)
    (htrace : t.trace = s.trace ++ [e]) (hbody : BodyOk t)
    (hok : ∀ c x, t.call = some c → c.transaction? = some x → frameLegal s.cfg x.ch x.bytes)
    (hwaited : ∀ c, t.call = some c → c.waited = true → e.endsWait = true) : WireInv t where
  legal := by
    rw [hcfg, htrace]
    exact traceLegal_append h.legal (by rintro ch tx r rfl; simp [Event.isXfer] at he)
  gated := by
    rw [htrace]
    exact traceGated_append h.gated (by simp [he])
  body_ok := hbody
  call_ok := by rw [hcfg]; exact hok
  call_waited c hc hw := ⟨s.trace, e, htrace, hwaited c hc hw⟩

/-- One event that sends nothing, between two calls. -/
theorem WireInv.event_no_call {s t : State} {e : Event} (h : WireInv s) (hcall : t.call = none) (he : e.isXfer = false)
    (hcfg : t.cfg = s.cfg) (htrace : t.trace = s.trace ++ [e]) (hbody : BodyOk t) : WireInv t :=
  h.event he hcfg htrace hbody (fun c x hc => by simp [hcall] at hc) (fun c hc => by simp [hcall] at hc)

/-- After a wait, what is still to be sent is what the wait gates. -/
theorem afterWait_transaction {w : Ret} {t : Option Transaction} {s : State} {c : Call}
    (h : (afterWait w t s).call = some c) : c.transaction? = t := by
  cases t with
  | none => simp [afterWait] at h
  | some t => simp [afterWait] at h; rw [← h]; rfl

/-- An action of a procedure leaves the transaction to be sent. -/
theorem callStep_transaction {k k' : Call} {s : State} (h : (callStep k s).call = some k') :
    k'.transaction? = k.transaction? := by
  cases k with
  | sample n t =>
    cases n with
    | zero => exact afterWait_transaction h
    | succ n =>
      simp only [callStep] at h
      split at h
      · exact afterWait_transaction h
      · simp at h; rw [← h]; rfl
  | pollDelay n t => simp [callStep] at h; rw [← h]; rfl
  | select t => simp [callStep] at h; rw [← h]; rfl
  | shift t => simp [callStep] at h

/-- An action of a procedure keeps the invariant: the wait ends with a ready sample or a timeout, and the Xfer comes
right after it. -/
theorem WireInv.callStep {s : State} {k : Call} (h : WireInv s) (hk : s.call = some k) :
    WireInv (callStep k s) := by
  have hbody : BodyOk (Machine.callStep k s) := h.body_ok.of_same (by simp) (by simp)
  have hok : ∀ c x, (Machine.callStep k s).call = some c → c.transaction? = some x → frameLegal s.cfg x.ch x.bytes :=
    fun c x hc hx => h.call_ok k x hk (callStep_transaction hc ▸ hx)
  cases k with
  | sample n t =>
    cases n with
    | zero =>
      exact h.event (e := .timeout) rfl (by simp) (by simp [Machine.callStep]) hbody hok (fun _ _ _ => rfl)
    | succ n =>
      refine h.event (e := .ready (sampleAnswer s)) rfl (by simp) ?_ hbody hok ?_
      · simp only [Machine.callStep]; split <;> simp
      · intro c hc hw
        simp only [Machine.callStep] at hc
        split at hc
        · assumption
        · simp at hc; subst hc; simp [Call.waited] at hw
  | pollDelay n t =>
    exact h.event (e := .delay s.cfg.pollIntervalTicks) rfl rfl rfl hbody hok (by rintro c ⟨⟩ hw; cases hw)
  | select t =>
    exact ⟨by simpa [Machine.callStep] using h.legal, by simpa [Machine.callStep] using h.gated, hbody,
      by simpa using hok, fun _ _ _ => by simpa [Machine.callStep] using h.call_waited _ hk rfl⟩
  | shift t =>
    refine ⟨?_, ?_, hbody, by simpa using hok, by rintro c hc; simp [Machine.callStep] at hc⟩
    · simp only [Machine.callStep, xfer_trace, xfer_cfg]
      exact traceLegal_append h.legal (by rintro ch tx r ⟨⟩; exact h.call_ok _ t hk rfl)
    · simp only [Machine.callStep, xfer_trace]
      exact traceGated_append h.gated fun _ => h.call_waited _ hk rfl

theorem WireInv.tick {s : State} (h : WireInv s) : WireInv (tick s) := h.of_same rfl rfl rfl rfl

theorem WireInv.finishCall {s : State} (h : WireInv s) : WireInv (finishCall s) :=
  finishCall_keeps (fun _ _ hs hk => (hs.callStep hk).tick) h

/-- A procedure called for a legal transaction, or for none, keeps the invariant. -/
theorem WireInv.transact {s : State} (h : WireInv s) {t : Option Transaction}
    (ht : ∀ x, t = some x → frameLegal s.cfg x.ch x.bytes) : WireInv (transact t s) := by
  have hbegin : WireInv (beginCall t s) :=
    ⟨h.legal, h.gated, h.body_ok, by rintro c x ⟨⟩ hx; exact ht x hx, by rintro c ⟨⟩ hw; cases hw⟩
  exact hbegin.finishCall

/-- A statement of a Body stands between two calls: it sends nothing, or calls a procedure for a frame that its Body may
send. -/
theorem WireInv.advanceStmt {s : State} (h : WireInv s) (hc : s.call = none) {op : Opcode} {st : Stmt}
    {rest : List Stmt} (hst : stmtOk s.cfg op st) (hbody : BodyOk (advanceStmt op st rest s)) :
    WireInv (advanceStmt op st rest s) := by
  cases st with
  | configure ch =>
    exact h.event_no_call (e := .configure ch (configAnswer s)) (by simp [Machine.advanceStmt, hc]) rfl
      (by simp [Machine.advanceStmt]) (by simp [Machine.advanceStmt]) hbody
  | resetN v => exact h.event_no_call (e := .resetN v) hc rfl rfl rfl hbody
  | delay n => exact h.event_no_call (e := .delay n) hc rfl rfl rfl hbody
  | wait =>
    simp only [Machine.advanceStmt] at hbody ⊢
    split at hbody
    · exact h.transact (by simp)
    · exact h.of_no_call hc rfl rfl hbody
  | frame j =>
    simp only [Machine.advanceStmt] at hbody ⊢
    split at hbody
    · exact (h.of_same (t := j.load s) (by simp) (by simp) (by simp) (by simp)).transact
        (by simpa using job_legal s op j hst)
    · refine h.of_no_call ?_ ?_ ?_ hbody <;> unfold takeAnswer <;> split <;> simp [hc]
  | finish code r =>
    exact h.of_no_call rfl (by simp [Machine.advanceStmt, finish]) (by simp [Machine.advanceStmt, finish])
      hbody

theorem WireInv.advance {s : State} {c : Cursor} (h : WireInv s) (hc : s.cur = some c) : WireInv (advance s) := by
  have hbody := advance_body s c h.body_ok hc
  revert hbody
  apply advance_cases (Q := fun t => BodyOk t → WireInv t) s c hc
  · exact fun _ _ _ => h.finishCall
  · exact fun _ _ hb => h.of_no_call rfl (by simp [finish]) (by simp [finish]) hb
  · exact fun hcall st rest hst => h.advanceStmt hcall (h.body_ok c hc st (by simp [hst]))

/-- Everything that a step can do keeps the invariant. -/
theorem wireInv_stepKeeps : StepKeeps WireInv where
  inputs _ _ h := h.of_same rfl rfl rfl rfl
  read _ _ h := h.of_same (by simp) (by simp) (by simp) (by simp)
  stopped _ h := h.of_same rfl rfl rfl rfl
  reset s _ := (wireInv_reset s.cfg).of_same rfl rfl rfl rfl
  ignored _ h _ := h.of_same rfl rfl rfl rfl
  arg0 _ _ h _ := h.of_same rfl rfl rfl rfl
  arg1 _ _ h _ := h.of_same rfl rfl rfl rfl
  status _ _ h := h.of_same rfl rfl rfl rfl
  buf _ _ _ h _ _ := h.of_same (by simp) (by simp) (by simp) (by simp)
  atLaunch _ _ _ h _ := h.of_no_call rfl rfl rfl (by rintro c ⟨⟩)
  start s i _ he h _ _ := h.of_no_call (start_call he s) (start_cfg he s) (start_trace he s) (start_body s i _ he)
  advance _ _ h hc := h.advance hc

/-- Settles O52: an Xfer is an action of its own, right after the one that ends its wait, of a frame that a legal Body
asked for. -/
theorem wireInvKept : Obligations.WireInvKept :=
  fun _ _ h hx => wireInv_stepKeeps.step hx h

end Sys2Proof.Machine
end

section
/-! SUPPORT and the proofs of O1, O3, O4, O5, O6 and O48. The decoder by opcode (spec/30_encoding.md R101 to R104), the
frames that decode (R105 to R108), and the two together with the encoder. -/

namespace Sys2Proof

/-! ### CMD words, by OP (R101, R102, R104) -/

/-- The command that a CMD word with this OP launches. -/
def Opcode.instr (op : Opcode) (w : Word) : Instr :=
  match op with
  | .init => .init (cmdIgnored w)
  | .regWrite => .regWrite (cmdReg w) (cmdValue w)
  | .regRead => .regRead (cmdReg w) (cmdValue w)
  | .bulkWrite => .bulkWrite (cmdIgnored w)
  | .startRecord => .startRecord (cmdIgnored w)
  | .readBlock => .readBlock (cmdIgnored w)
  | .startDecode => .startDecode (cmdIgnored w)
  | .emitHeader => .emitHeader (cmdIgnored w)
  | .writeBlock => .writeBlock (cmdIgnored w)
  | .stop => .stop (cmdIgnored w)

@[simp] theorem Opcode.instr_opcode (op : Opcode) (w : Word) : (op.instr w).opcode? = some op := by cases op <;> rfl

/-- A byte is one of the ten opcodes, or one of the 246 values that are none. -/
theorem Opcode.byte_or_illegal (b : Byte) : (∃ op : Opcode, b = op.byte) ∨ b.toNat = 0 ∨ 11 ≤ b.toNat := by
  match h : b.toNat with
  | 0 => exact .inr (.inl rfl)
  | 1 => exact .inl ⟨.init, BitVec.eq_of_toNat_eq h⟩
  | 2 => exact .inl ⟨.regWrite, BitVec.eq_of_toNat_eq h⟩
  | 3 => exact .inl ⟨.regRead, BitVec.eq_of_toNat_eq h⟩
  | 4 => exact .inl ⟨.bulkWrite, BitVec.eq_of_toNat_eq h⟩
  | 5 => exact .inl ⟨.startRecord, BitVec.eq_of_toNat_eq h⟩
  | 6 => exact .inl ⟨.readBlock, BitVec.eq_of_toNat_eq h⟩
  | 7 => exact .inl ⟨.startDecode, BitVec.eq_of_toNat_eq h⟩
  | 8 => exact .inl ⟨.emitHeader, BitVec.eq_of_toNat_eq h⟩
  | 9 => exact .inl ⟨.writeBlock, BitVec.eq_of_toNat_eq h⟩
  | 10 => exact .inl ⟨.stop, BitVec.eq_of_toNat_eq h⟩
  | n + 11 => exact .inr (.inr (by omega))

/-- A word with the OP of a command decodes to it. -/
theorem decodeCmd_opcode {w : Word} {op : Opcode} (h : cmdOp w = op.byte) : decodeCmd w = .ok (op.instr w) := by
  unfold decodeCmd
  rw [h]
  cases op <;> rfl

/-- A word whose OP is 0x00, or 0x0B or more, is illegal (R104). -/
theorem decodeCmd_illegal {w : Word} (h : (cmdOp w).toNat = 0 ∨ 11 ≤ (cmdOp w).toNat) :
    decodeCmd w = .error (.illegalOpcode (cmdOp w)) := by
  unfold decodeCmd
  split
  case h_11 => rfl
  all_goals omega

/-- What a CMD word decodes to has the word's opcode. -/
theorem decodeCmd_ok {w : Word} {i : Instr} (h : decodeCmd w = .ok i) :
    ∃ op : Opcode, cmdOp w = op.byte ∧ i = op.instr w := by
  rcases Opcode.byte_or_illegal (cmdOp w) with ⟨op, hop⟩ | hill
  · rw [decodeCmd_opcode hop, Except.ok.injEq] at h
    exact ⟨op, hop, h.symm⟩
  · rw [decodeCmd_illegal hill] at h
    cases h

/-- Settles O3: OP is one of the ten opcodes, and the word decodes to that command, or it is none, and the word is
illegal. -/
theorem commandsByOp : Obligations.CommandsByOp := by
  intro w
  refine ⟨fun op => ⟨?_, fun h => ⟨_, decodeCmd_opcode h, op.instr_opcode w⟩⟩, ?_, fun h => ⟨_, decodeCmd_illegal h⟩⟩
  · rintro ⟨i, hi, hop⟩
    obtain ⟨op', hop', rfl⟩ := decodeCmd_ok hi
    rw [Opcode.instr_opcode, Option.some.injEq] at hop
    exact hop ▸ hop'
  · rintro ⟨e, he⟩
    rcases Opcode.byte_or_illegal (cmdOp w) with ⟨op, hop⟩ | hill
    · rw [decodeCmd_opcode hop] at he
      cases he
    · exact hill

/-! ### The frames (R105 to R108) -/

/-- Four bytes with WRITE_OP first are a register write. -/
theorem decodeCtrl_write (p : Params) (r a b : Byte) :
    decodeCtrl p [p.writeOp, r, a, b] = .ok (.ctrlWrite r (catBytes a b)) := if_pos rfl

/-- A read frame is a register read, where WRITE_OP ≠ READ_OP. -/
theorem decodeCtrl_read {p : Params} (h : p.writeOp ≠ p.readOp) (r : Byte) :
    decodeCtrl p (readFrame p r) = .ok (.ctrlRead r) := by
  simp [decodeCtrl, readFrame, h.symm]

theorem decodeChunk_ok {bytes : List Byte} (h : chunkOk bytes) : decodeChunk bytes = .ok (.dataChunk bytes) := if_pos h

theorem decodeChunk_error {bytes : List Byte} (h : ¬ chunkOk bytes) :
    decodeChunk bytes = .error (.chunkLength bytes.length) := if_neg h

/-- A frame that decodes on the control channel is a write frame or a read frame. -/
theorem decodeCtrl_frame {p : Params} {bytes : List Byte} {i : Instr} (h : decodeCtrl p bytes = .ok i) :
    (∃ r v, bytes = writeFrame p r v) ∨ ∃ r, bytes = readFrame p r := by
  have henc := encode_decodeCtrl p h
  cases i <;> simp only [encode, Encoded.frame.injEq, reduceCtorEq, false_and] at henc
  case ctrlWrite r v => exact .inl ⟨r, v, henc.2.symm⟩
  case ctrlRead r => exact .inr ⟨r, henc.2.symm⟩

/-- Settles O6: a control frame that decodes is the encoding of a write or of a read, and each of these decodes; a data
chunk is told by its length. -/
theorem legalFramesDecode : Obligations.LegalFramesDecode := by
  intro p tx
  refine ⟨⟨?_, ?_⟩, ?_, fun h => ⟨_, decodeChunk_ok h⟩⟩
  · rintro ⟨i, hi⟩
    rcases decodeCtrl_frame hi with ⟨r, v, rfl⟩ | ⟨r, rfl⟩
    · exact .inl ⟨r, hiByte v, loByte v, rfl⟩
    · exact .inr ⟨r, rfl⟩
  · rintro (⟨r, a, b, rfl⟩ | ⟨r, rfl⟩)
    · exact ⟨_, decodeCtrl_write p r a b⟩
    · by_cases h : p.writeOp = p.readOp
      · exact ⟨_, h ▸ decodeCtrl_write p r 0x00 0x00⟩
      · exact ⟨_, decodeCtrl_read h r⟩
  · rintro ⟨i, hi⟩
    by_contra hlen
    cases (decodeChunk_error hlen).symm.trans hi

/-- Settles O5: a word of each OP, and a frame of each kind. -/
theorem specWordsDecode : Obligations.SpecWordsDecode :=
  ⟨decodeCmd_opcode (op := .init) rfl, decodeCmd_opcode (op := .regWrite) rfl, decodeCmd_opcode (op := .regRead) rfl,
    decodeCmd_opcode (op := .bulkWrite) rfl, decodeCmd_opcode (op := .startRecord) rfl,
    decodeCmd_opcode (op := .readBlock) rfl, decodeCmd_opcode (op := .startDecode) rfl,
    decodeCmd_opcode (op := .emitHeader) rfl, decodeCmd_opcode (op := .writeBlock) rfl,
    decodeCmd_opcode (op := .stop) rfl, decodeCtrl_write Params.p0 0x0B 0x20 0x20,
    decodeCtrl_read (p := Params.p0) (by decide) 0x09, decodeChunk_ok (by decide)⟩

/-! ### Decoding what the encoder writes -/

/-- The CMD word of a command's fields decodes to the command. -/
theorem decodeCmd_cmdWord (op : Opcode) (r : Byte) (v : Half) :
    decodeCmd (cmdWord op r v) = .ok (op.instr (cmdWord op r v)) := decodeCmd_opcode (cmdOp_cmdWord op r v)

theorem decodeCmd_cmdWordIgn (op : Opcode) (ign : BitVec 24) :
    decodeCmd (cmdWordIgn op ign) = .ok (op.instr (cmdWordIgn op ign)) := decodeCmd_opcode (cmdOp_cmdWordIgn op ign)

/-- Settles O1: a command's word has its OP and its fields; a control frame its first byte and the register's value in
two bytes; a chunk is its own encoding. -/
theorem decodeEncode : Obligations.DecodeEncode := by
  intro p i hp hwf
  cases i with
  | ctrlWrite r v =>
    refine (decodeCtrl_write p r (hiByte v) (loByte v)).trans ?_
    rw [catBytes_hi_lo]
  | ctrlRead r => exact decodeCtrl_read hp r
  | dataChunk payload => exact decodeChunk_ok (by simpa [Instr.wf] using hwf)
  | regWrite | regRead => simp [encode, decode, decodeCmd_cmdWord, Opcode.instr]
  | init | bulkWrite | startRecord | readBlock | startDecode | emitHeader | writeBlock | stop =>
    simp [encode, decode, decodeCmd_cmdWordIgn, Opcode.instr]

/-- What the encoder writes decodes only if the instruction is well-formed. -/
theorem wf_of_decode_encode {p : Params} {i j : Instr} (h : decode p (encode p i) = .ok j) : i.wf = true := by
  cases i
  case dataChunk payload =>
    simp only [Instr.wf, decide_eq_true_eq]
    by_contra hlen
    cases (decodeChunk_error hlen).symm.trans h
  all_goals rfl

end Sys2Proof

namespace Sys2Proof.Machine

/-! ### The unused fields of a CMD word (R102) -/

/-- A command's word is the word that it is decoded from. -/
theorem entry_word {w : Word} {i : Instr} {e : Entry} (h : decodeCmd w = .ok i) (he : entryOf i = some e) :
    e.word = w :=
  Encoded.cmd.inj ((entry_opcode he Params.p0).2.symm.trans (encode_decodeCmd Params.p0 h))

theorem emitHeaderEnter_setCmd (x : Word) (u : State) :
    emitHeaderEnter (setCmd x u) = setCmd x (emitHeaderEnter u) := by
  have hargs : headerArgsOk (setCmd x u) = headerArgsOk u := rfl
  unfold emitHeaderEnter
  rw [hargs]
  split
  · simp only [buildHeader, setCmd]
  · rfl

/-- What a command does before its first primitive, and its Body, do not read CMD. -/
theorem entry_setCmd {i : Instr} {e : Entry} (he : entryOf i = some e) (x : Word) (u : State) :
    e.enter (setCmd x u) = setCmd x (e.enter u) ∧ e.body (setCmd x u) = e.body u := by
  cases i <;> simp only [entryOf, Option.some.injEq, reduceCtorEq] at he <;> subst he
  case emitHeader => exact ⟨emitHeaderEnter_setCmd x u, rfl⟩
  all_goals exact ⟨rfl, rfl⟩

/-- The two words have the same OP, and the same REG and VALUE where the command of that OP uses them. -/
structure SameUsed (v w : Word) : Prop where
  op : cmdOp v = cmdOp w
  reg : cmdOp v = 0x02 ∨ cmdOp v = 0x03 → cmdReg v = cmdReg w
  value : cmdOp v = 0x02 → cmdValue v = cmdValue w

/-- Two words that agree in the used fields launch the same Body: only REG_WRITE's and REG_READ's depend on the word. -/
theorem SameUsed.entries {v w : Word} {op : Opcode} (h : SameUsed v w) (hop : cmdOp v = op.byte) :
    ∃ e f : Entry, entryOf (op.instr v) = some e ∧ entryOf (op.instr w) = some f
      ∧ f.op = e.op ∧ f.enter = e.enter ∧ f.body = e.body := by
  cases op
  case regWrite =>
    refine ⟨_, _, rfl, rfl, rfl, rfl, ?_⟩
    simp only [h.reg (.inl hop), h.value hop]
  case regRead =>
    refine ⟨_, _, rfl, rfl, rfl, rfl, ?_⟩
    simp only [h.reg (.inr hop)]
  all_goals exact ⟨_, _, rfl, rfl, rfl, rfl, rfl⟩

/-- The write of a command's word to CMD is its launch (R131). -/
theorem writeCmd_launch {w : Word} {i : Instr} {e : Entry} (h : decodeCmd w = .ok i) (he : entryOf i = some e)
    (s : State) : writeCmd w s = .next (launch e.op w e.enter e.body s) := by
  rw [writeCmd_ok h, exec_entry he, entry_word h he]

theorem writeCmd_illegal {w : Word} {e : DecodeError} (h : decodeCmd w = .error e) (s : State) :
    writeCmd w s = .next (illegalCommand w s) := by
  rw [writeCmd, h]

/-- Two illegal words do the same, but for the word in CMD (R134). -/
theorem illegalCommand_setCmd (v w : Word) (s : State) :
    illegalCommand w s = { illegalCommand v s with cmd := if s.busy then s.cmd else w } := by
  unfold illegalCommand
  split <;> rfl

/-- Settles O4: two words that agree in the used fields launch one Body, and no run of it reads CMD. -/
theorem unusedFieldsIgnored : Obligations.UnusedFieldsIgnored := by
  intro v w s hop hreg hvalue
  have hsame : SameUsed v w := ⟨hop, hreg, hvalue⟩
  rcases Opcode.byte_or_illegal (cmdOp v) with ⟨op, hv⟩ | hill
  · have hw : cmdOp w = op.byte := hsame.op ▸ hv
    obtain ⟨e, f, he, hf, hfop, henter, hbody⟩ := hsame.entries hv
    refine ⟨⟨_, writeCmd_launch (decodeCmd_opcode hv) he s, ?_⟩, .inl ⟨_, op, decodeCmd_opcode hv, op.instr_opcode v⟩⟩
    rw [writeCmd_launch (decodeCmd_opcode hw) hf, hfop, henter, hbody]
    exact congrArg _ (launch_setCmd e.op v w e.enter e.body s (fun x u => (entry_setCmd he x u).1)
      fun x u => (entry_setCmd he x u).2)
  · refine ⟨⟨_, writeCmd_illegal (decodeCmd_illegal hill) s, ?_⟩, .inr ⟨_, decodeCmd_illegal hill⟩⟩
    rw [writeCmd_illegal (decodeCmd_illegal (hsame.op ▸ hill)), illegalCommand_setCmd v w]

/-! ### The frame that a step runs -/

/-- A step whose Body sends a frame next, no input landing, runs the frame. -/
theorem step_frame {s : State} {op : Opcode} {j : Job} {rest : List Stmt} (hp : s.cfg.Wf)
    (hcur : s.cur = some ⟨op, .frame j :: rest⟩) (hcall : s.call = none) (hret : s.ret = none) (hdue : s.due = false) :
    step s = exec (j.instr s) (j.load s) := by
  unfold step
  rw [if_pos hp, if_neg (by simp [hcur, hdue]), stepBody, hcall, hret, hcur]

/-- Settles O48: the step runs the frame that the Body asks for, and its bytes decode to that frame and to no other. -/
theorem stepRunsFrame : Obligations.StepRunsFrame := by
  intro s op j rest ch tx i hp hne hcur hcall hret hdue henc hdec
  rw [← henc] at hdec
  have hself := decodeEncode s.cfg (j.instr s) hne (wf_of_decode_encode hdec)
  rw [step_frame hp hcur hcall hret hdue, Except.ok.inj (hself.symm.trans hdec)]

end Sys2Proof.Machine
end

section
/-! SUPPORT and the proof of O60. The poll loop of `wait_idle` (spec/30_encoding.md R117): what a poll does, what a step
between two polls leaves, and the end of the loop with the command (spec/40_host_interface.md R141). -/

namespace Sys2Proof.Machine

/-! ### Steps in a row -/

/-- Some number of steps leads from s to t. -/
def Reaches (s t : State) : Prop := ∃ n, stepN n s = .next t

theorem Reaches.refl (s : State) : Reaches s s := ⟨0, rfl⟩

theorem Reaches.head {s t u : State} (h : step s = .next t) (k : Reaches t u) : Reaches s u := by
  obtain ⟨n, hn⟩ := k
  exact ⟨n + 1, by rw [stepN, h]; exact hn⟩

theorem Reaches.trans {s t u : State} (h : Reaches s t) (k : Reaches t u) : Reaches s u := by
  obtain ⟨n, hn⟩ := h
  induction n generalizing s with
  | zero => exact Host.Outcome.next.inj hn ▸ k
  | succ n ih =>
    rw [stepN] at hn
    split at hn
    · exact .head ‹_› (ih hn)
    · rename_i hstuck
      exact absurd hn (hstuck t)

/-! ### A poll -/

/-- The step that takes a poll logs STATUS, and lists the next poll while BUSY = 1. -/
theorem step_poll {s : State} {w : Nat} {gaps : List Nat} {rest : List (Nat × Input)} (hp : s.cfg.Wf)
    (hin : s.inputs = (w, .waitIdle gaps) :: rest) (hturn : s.cur = none ∨ s.due = true) :
    step s = .next { s with
      inputs := if s.busy then (gaps.headD 0, .waitIdle gaps.tail) :: rest else rest
      hostLog := s.hostLog ++ [.read (s.cfg.base + offStatus) (statusWord s)] } := by
  unfold step
  rw [if_pos hp, if_pos (by simpa using hturn), hin]
  exact congrArg _ (pollStatus_eq gaps { s with inputs := rest })

/-- `wait_idle` with no entry of `gaps` left does not land before the command completes. -/
theorem waitIdle_nil_not_due {s : State} {w : Nat} {rest : List (Nat × Input)}
    (hin : s.inputs = (w, .waitIdle []) :: rest) : s.due = false := by
  rw [State.due, hin]
  rfl

/-! ### The advances between two polls -/

/-- An advance leaves the next input, but for its wait, and the inputs after it. -/
theorem advance_inputs {s : State} {w : Nat} {i : Input} {rest : List (Nat × Input)} (hin : s.inputs = (w, i) :: rest) :
    ∃ w', (advance s).inputs = (w', i) :: rest := by
  obtain ⟨_, w', _, _, hl, hk⟩ := advance_sameInputs (l := (w, i) :: rest) (u := s) ⟨w, w, i, rest, rfl, hin⟩
  simp only [List.cons.injEq, Prod.mk.injEq] at hl
  obtain ⟨⟨-, rfl⟩, rfl⟩ := hl
  exact ⟨w', hk⟩

/-- The most advances until the command completes, or an input is due: two for each step of its Body, one of them behind
it where a procedure has just returned. -/
def advancesLeft (s : State) : Nat :=
  match s.cur with
  | none => 0
  | some c => 2 * bodySteps c.body + if s.call = none ∧ s.ret.isSome = true then 0 else 1

theorem advancesLeft_le {s : State} {c : Cursor} (hc : s.cur = some c) : advancesLeft s ≤ 2 * bodySteps c.body + 1 := by
  simp only [advancesLeft, hc]
  split <;> omega

theorem le_advancesLeft {s : State} {c : Cursor} (hc : s.cur = some c) : 2 * bodySteps c.body ≤ advancesLeft s := by
  simp only [advancesLeft, hc]
  omega

/-- A procedure run from a call or from its beginning has returned, unless an input is due. -/
theorem finishCall_advancesLeft {s u : State} {c : Cursor} {k : Call} (hu : u.call = some k) (hcur : u.cur = some c)
    (hs : 2 * bodySteps c.body + 1 ≤ advancesLeft s) :
    (finishCall u).due = true ∨ advancesLeft (finishCall u) < advancesLeft s := by
  rcases finishCall_stops u with hcall | hdue
  · have hret : (finishCall u).call = none → (finishCall u).ret.isSome = true :=
      finishCall_keeps (P := fun t => t.call = none → t.ret.isSome = true) (fun s k _ _ => callStep_ret k s)
        (by simp [hu])
    refine .inr (Nat.lt_of_lt_of_le ?_ hs)
    simp [advancesLeft, hcur, hcall, hret hcall]
  · exact .inl hdue

theorem setBody_advancesLeft {s u : State} {c : Cursor} {op : Opcode} {body : List Stmt} (hc : s.cur = some c)
    (h : bodySteps body + 1 ≤ bodySteps c.body) : advancesLeft (setBody op body u) < advancesLeft s := by
  have hle : advancesLeft (setBody op body u) ≤ 2 * bodySteps body + 1 := advancesLeft_le (setBody_cur ..)
  have hge := le_advancesLeft hc
  omega

theorem finish_advancesLeft {s u : State} {c : Cursor} {op : Opcode} {code : ResultCode} {r : Word}
    (hc : s.cur = some c) : advancesLeft (finish op code r u) < advancesLeft s := by
  have hge := le_advancesLeft hc
  have hpos := bodySteps_pos c.body
  have hzero : advancesLeft (finish op code r u) = 0 := rfl
  omega

/-- What a Body does next once a procedure has returned takes fewer steps. -/
theorem takeAnswer_advancesLeft {s : State} {c : Cursor} {j : Job} {r : Ret} {rest : List Stmt} (hc : s.cur = some c)
    (hb : c.body = .frame j :: rest) : advancesLeft (takeAnswer c.op j r rest s) < advancesLeft s := by
  have hframe := bodySteps_frame j rest
  have hpos := bodySteps_pos rest
  unfold takeAnswer
  split <;> apply setBody_advancesLeft hc <;> rw [hb]
  · simp only [bodySteps]; omega
  · have := bodySteps_after s.cfg j ‹_› rest
    omega
  · omega
  · omega

/-- Every advance comes nearer to the completion of the command, unless it stops for an input. -/
theorem advance_progress {s : State} {c : Cursor} (hc : s.cur = some c) :
    (advance s).due = true ∨ advancesLeft (advance s) < advancesLeft s := by
  apply advance_cases (Q := fun t => t.due = true ∨ advancesLeft t < advancesLeft s) s c hc
  · intro k hk
    exact finishCall_advancesLeft hk hc (by simp [advancesLeft, hc, hk])
  · exact fun _ _ => .inr (finish_advancesLeft hc)
  · intro hcall st rest hb
    have hpos := bodySteps_pos rest
    cases st with
    | configure ch =>
      refine .inr (setBody_advancesLeft hc ?_)
      rw [hb]
      split <;> simp only [bodySteps] <;> omega
    | resetN v | delay n =>
      refine .inr (setBody_advancesLeft hc ?_)
      rw [hb]
      simp only [bodySteps]
      omega
    | wait =>
      simp only [advanceStmt]
      split
      · rename_i hret
        exact finishCall_advancesLeft (u := beginCall none s) rfl hc (by simp [advancesLeft, hc, hret])
      · refine .inr (setBody_advancesLeft hc ?_)
        rw [hb]
        simp only [bodySteps]
        omega
    | frame j =>
      simp only [advanceStmt]
      split
      · rename_i hret
        exact finishCall_advancesLeft (u := beginCall _ (j.load s)) rfl (by simpa using hc)
          (by simp [advancesLeft, hc, hret])
      · exact .inr (takeAnswer_advancesLeft hc hb)
    | finish code r => exact .inr (finish_advancesLeft hc)

/-! ### The loop -/

/-- The host waits in a `wait_idle` with the polls `gaps` to come, of a controller that is as every step leaves it. -/
structure Waiting (gaps : List Nat) (rest : List (Nat × Input)) (s : State) : Prop where
  wf : s.cfg.Wf
  control : ControlInv s
  body : BodyOk s
  next : ∃ w, s.inputs = (w, .waitIdle gaps) :: rest

section
variable {gaps : List Nat} {rest : List (Nat × Input)} {s : State}

theorem Waiting.advance {c : Cursor} (h : Waiting gaps rest s) (hc : s.cur = some c) :
    Waiting gaps rest (advance s) := by
  obtain ⟨w, hin⟩ := h.next
  exact ⟨by rw [advance_cfg]; exact h.wf, h.control.advance hc, advance_body s c h.body hc, advance_inputs hin⟩

/-- The wait comes to a state with a poll to take: the command has completed, or a poll is due. -/
theorem Waiting.reaches_poll (h : Waiting gaps rest s) :
    ∃ t, Reaches s t ∧ Waiting gaps rest t ∧ (t.cur = none ∨ t.due = true) := by
  induction hm : advancesLeft s using Nat.strong_induction_on generalizing s with
  | _ m ih =>
    subst hm
    by_cases hturn : s.cur = none ∨ s.due = true
    · exact ⟨s, .refl s, h, hturn⟩
    · obtain ⟨hcur, hdue⟩ := not_or.mp hturn
      obtain ⟨c, hc⟩ := Option.ne_none_iff_exists'.mp hcur
      have hstep := step_not_due h.wf hc (by simpa using hdue) h.body
      rcases advance_progress hc with hdue' | hless
      · exact ⟨_, .head hstep (.refl _), h.advance hc, .inr hdue'⟩
      · obtain ⟨t, hr, ht⟩ := ih _ hless (h.advance hc) rfl
        exact ⟨t, .head hstep hr, ht⟩

/-- A `wait_idle` on an idle controller ends with its poll. -/
theorem Waiting.ends_idle (h : Waiting gaps rest s) (hc : s.cur = none) :
    ∃ t, Reaches s t ∧ t.cur = none ∧ t.busy = false ∧ t.inputs = rest := by
  obtain ⟨w, hin⟩ := h.next
  have hb : s.busy = false := by simp [h.control.busy_iff, hc]
  exact ⟨_, .head (step_poll h.wf hin (.inl hc)) (.refl _), hc, hb, by simp [hb]⟩

/-- A poll that reads BUSY = 1 leaves the wait with one poll fewer. -/
theorem Waiting.poll_busy {c : Cursor} (h : Waiting gaps rest s) (hc : s.cur = some c) (hdue : s.due = true) :
    ∃ t, step s = .next t ∧ Waiting gaps.tail rest t := by
  obtain ⟨w, hin⟩ := h.next
  have hb : s.busy = true := by simp [h.control.busy_iff, hc]
  have hstep := step_poll h.wf hin (.inr hdue)
  exact ⟨_, hstep, h.wf, controlInv_stepKeeps.step hstep h.control, h.body.of_same rfl rfl, _, if_pos hb⟩

/-- The wait ends, with the command completed, or it comes past a poll, which uses up an entry of `gaps`. -/
theorem Waiting.ends_or_polls (h : Waiting gaps rest s) :
    (∃ t, Reaches s t ∧ t.cur = none ∧ t.busy = false ∧ t.inputs = rest)
      ∨ (gaps ≠ [] ∧ ∃ t, Reaches s t ∧ Waiting gaps.tail rest t) := by
  obtain ⟨t, hr, ht, hturn⟩ := h.reaches_poll
  cases hc : t.cur with
  | none =>
    obtain ⟨u, hu, hend⟩ := ht.ends_idle hc
    exact .inl ⟨u, hr.trans hu, hend⟩
  | some c =>
    have hdue : t.due = true := hturn.resolve_left (by simp [hc])
    obtain ⟨u, hstep, hu⟩ := ht.poll_busy hc hdue
    refine .inr ⟨?_, u, hr.trans (.head hstep (.refl u)), hu⟩
    rintro rfl
    obtain ⟨w, hin⟩ := ht.next
    simp [waitIdle_nil_not_due hin] at hdue

end

/-- The loop ends, with the command completed: with no entry of `gaps` left, the next poll comes after the
completion. -/
theorem Waiting.ends {gaps : List Nat} {rest : List (Nat × Input)} {s : State} (h : Waiting gaps rest s) :
    ∃ t, Reaches s t ∧ t.cur = none ∧ t.busy = false ∧ t.inputs = rest := by
  induction gaps generalizing s with
  | nil => exact h.ends_or_polls.resolve_right fun hpoll => hpoll.1 rfl
  | cons g gaps ih =>
    rcases h.ends_or_polls with hend | ⟨-, t, hr, ht⟩
    · exact hend
    · obtain ⟨u, hu, hend⟩ := ih ht
      exact ⟨u, hr.trans hu, hend⟩

/-- Settles O60: a poll by BUSY, a step between two polls as an advance, and the end by the polls and the advances
left. -/
theorem waitIdlePolls : Obligations.WaitIdlePolls := by
  intro s w gaps rest hp hinv hbody hin
  have hbusy := hinv.busy_iff
  have hwait : Waiting gaps rest s := ⟨hp, hinv, hbody, w, hin⟩
  refine ⟨fun hc => ?_, fun hc hdue => ?_, fun hc hdue => ?_, ?_⟩
  · have hb : s.busy = false := by simp [hbusy, hc]
    refine ⟨statusWord s, by rw [statusWord_busy, hb], (step_poll hp hin (.inl hc)).trans ?_⟩
    rw [if_neg (by simp [hb])]
  · have hb : s.busy = true := by simpa [hbusy, Option.isSome_iff_ne_none] using hc
    refine ⟨statusWord s, by rw [statusWord_busy, hb], (step_poll hp hin (.inr hdue)).trans ?_⟩
    rw [if_pos hb]
  · obtain ⟨c, hc⟩ := Option.ne_none_iff_exists'.mp hc
    obtain ⟨w', hin'⟩ := advance_inputs hin
    exact ⟨_, w', step_not_due hp hc hdue hbody, hin', advance_hostLog s⟩
  · obtain ⟨t, ⟨n, hn⟩, hend⟩ := hwait.ends
    exact ⟨n, t, hn, hend⟩

end Sys2Proof.Machine
end

section
/-! SUPPORT and the proofs of O11, O12, O13, O14, O15 and O47. Host writes while a command runs (R132 of
spec/40_host_interface.md), and the checks around a launch: the opcode (R134), the state (R135, R136) and the
preconditions of a Body (R137). -/

namespace Sys2Proof.Machine

/-! ### The input that a step takes (R131, R132, R138, R342) -/

/-- The controller takes its next input when it is idle or the input is due. -/
theorem step_input {s : State} {w : Nat} {i : Input} {rest : List (Nat × Input)} (hp : s.cfg.Wf)
    (hin : s.inputs = (w, i) :: rest) (hturn : s.cur = none ∨ s.due = true) :
    step s = perform i { s with inputs := rest } := by
  unfold step
  rw [if_pos hp, if_pos (by simpa using hturn), hin]

/-- An idle controller with no input does nothing. -/
theorem step_no_input {s : State} (hp : s.cfg.Wf) (hc : s.cur = none) (hin : s.inputs = []) : step s = .next s := by
  unfold step
  rw [if_pos hp, if_pos (by simp [hc]), hin]

/-- Settles O47: the next input is the write to CMD, and what its word decodes to is run. -/
theorem stepRunsCommand : Obligations.StepRunsCommand := fun _ hp hc =>
  ⟨fun _ _ _ _ hin hdec => (step_writeCmd hp hc hin).trans (writeCmd_ok hdec _), step_no_input hp hc⟩

/-- A host write with no action left to wait for is due. -/
theorem write_due {s : State} {addr : Nat} {width : Width} {v : Word} {rest : List (Nat × Input)}
    (hin : s.inputs = (0, .write addr width v) :: rest) : s.due = true := by
  rw [State.due, hin]
  rfl

/-- Settles O11: the write is due, and at each of the four kinds of offset it sets OVR alone (O9). -/
theorem busyWritesIgnored : Obligations.BusyWritesIgnored := by
  intro s c off v rest hp _ hbusy hin hoff
  obtain ⟨hcmd, harg0, harg1, -, -, -, hbuf, -⟩ := hostWriteEffects { s with inputs := rest } v
  have hsize : s.cfg.bufSize ≤ 3840 := by
    obtain ⟨-, -, -, -, -, -, hsize, -⟩ := hp
    exact hsize
  rw [step_input hp hin (.inr (write_due hin))]
  rcases hoff with rfl | rfl | rfl | ⟨k, rfl, hk⟩
  · exact hcmd.trans (if_pos hbusy)
  · exact harg0.trans (congrArg _ (if_pos hbusy))
  · exact harg1.trans (congrArg _ (if_pos hbusy))
  · exact hbuf k hk hsize hbusy

/-! ### Commands that complete in the launch (R133 to R136) -/

/-- Settles O12: the word does not decode. -/
theorem illegalCommand_completes : Obligations.IllegalCommand := fun _ _ hb hop =>
  writeCmd_error (decodeCmd_illegal hop) hb

/-- A command that its state check refuses completes with WRONG_STATE. -/
theorem exec_wrongState {i : Instr} {e : Entry} (he : entryOf i = some e) {s : State} (hb : s.busy = false)
    (ha : allowed e.op s.fsm s.hdr = false) : exec i s = .next (complete .wrongState 0 (accepted e.word s)) := by
  rw [exec_entry he, launch_eq, if_neg (by simp [hb]), if_neg (by simp [ha])]
  rfl

/-- Settles O13: the command's launch has its opcode and its word. -/
theorem wrongState : Obligations.WrongState := by
  intro s i op w hop henc hb ha
  obtain ⟨e, he, rfl⟩ := entry_of_opcode hop
  obtain rfl : e.word = w := Encoded.cmd.inj ((entry_opcode he s.cfg).2.symm.trans henc)
  exact exec_wrongState he hb ha

/-- STATE = RESET only while INIT runs. -/
theorem ControlInv.reset_runs_init {s : State} (h : ControlInv s) (hfsm : s.fsm = .reset) :
    s.busy = true ∧ ∃ body, s.cur = some ⟨.init, body⟩ := by
  obtain ⟨c, hc⟩ := Option.ne_none_iff_exists'.mp fun hnone => h.idle_not_reset hnone hfsm
  have hop : c.op = .init := by
    by_contra hne
    exact opRuns_ne_reset (h.runs c hc) hne hfsm
  exact ⟨by rw [h.busy_iff, hc]; rfl, c.body, by rw [hc, ← hop]⟩

/-- Settles O14: the table row by row, and its RESET column by the agreement of STATE with the command in progress. -/
theorem allowedTable : Obligations.AllowedTable := by
  refine ⟨fun fsm hdr => ⟨?_, ?_, ?_, ?_, ?_, ?_⟩, fun s h => h.reset_runs_init⟩
  · cases fsm <;> simp [allowed]
  · rintro op (rfl | rfl | rfl | rfl) <;> cases fsm <;> simp [allowed]
  · rintro op (rfl | rfl) <;> cases fsm <;> simp [allowed]
  · cases fsm <;> simp [allowed]
  · cases fsm <;> simp [allowed]
  · cases fsm <;> simp [allowed]

/-! ### Preconditions of a Body (R137) -/

/-- An accepted command whose Body is a completion, with nothing assigned before it, completes so. -/
theorem launch_completes {op : Opcode} {w : Word} {enter : State → State} {body : State → List Stmt} {s : State}
    {code : ResultCode} (ha : Accepts op s)
    (henter : enter ((accepted w s).at' s.cur none none) = (accepted w s).at' s.cur none none)
    (hbody : body ((accepted w s).at' s.cur none none) = [.finish code 0]) :
    launch op w enter body s = finish op code 0 (accepted w s) := by
  have hlaunched : ({ s with cmd := w, busy := true, call := none, ret := none } : State)
      = (accepted w s).at' s.cur none none := rfl
  rw [launch_eq, if_neg (by simp [ha.idle]), if_pos ha.allow, hlaunched, henter, hbody]
  exact runBody_finish 1 (u := accepted w s) ha.alone op code 0 []

theorem rateOk_false {sr : Word} (h : sr.toNat = 0 ∨ 65535 < sr.toNat) : rateOk sr = false := by
  simp only [rateOk, decide_eq_false_iff_not]
  omega

theorem channelsOk_false {ch : Byte} (h : ch ≠ 1 ∧ ch ≠ 2) : channelsOk ch = false := by
  simpa [channelsOk] using h

/-- EMIT_HEADER's arguments are out of range by the rate or by the channels (R285). -/
theorem headerArgsOk_false {s : State} (h : s.arg0.toNat = 0 ∨ 65535 < s.arg0.toNat
    ∨ (channelsByte s.arg1 ≠ 1 ∧ channelsByte s.arg1 ≠ 2)) : headerArgsOk s = false := by
  rw [headerArgsOk, Bool.and_eq_false_iff]
  rcases h with h | h | h
  exacts [.inl (rateOk_false (.inl h)), .inl (rateOk_false (.inr h)), .inr (channelsOk_false h)]

/-- Settles O15: each Body is its completion alone, which changes neither STATE nor HDR. -/
theorem preconditions : Obligations.Preconditions := by
  intro s ign
  refine ⟨fun ha hlen => ?_, fun ha hrate => ?_, fun ha hargs => ?_, fun ha hhdr => ?_⟩
  · exact congrArg _ (launch_completes ha rfl (if_pos hlen))
  · have hno : ¬ rateOk s.arg0 = true := by simpa using rateOk_false hrate
    exact congrArg _ (launch_completes ha rfl (if_neg hno))
  · have hno (u : State) (h0 : u.arg0 = s.arg0) (h1 : u.arg1 = s.arg1) : ¬ headerArgsOk u = true := by
      rw [← h0, ← h1] at hargs
      simpa using headerArgsOk_false hargs
    exact congrArg _ (launch_completes ha (if_neg (hno _ rfl rfl)) (if_neg (hno _ rfl rfl)))
  · have hno : ¬ s.hdr = true := by simpa using hhdr
    exact congrArg _ (launch_completes ha rfl (if_neg hno))

end Sys2Proof.Machine
end

section
/-! SUPPORT and the proof of O59. The steps that a command in progress has left, with no host access landing: every step
takes one of them (spec/40_host_interface.md R141). -/

namespace Sys2Proof.Machine

/-! ### No host access comes to land -/

theorem tick_quiet {s : State} (hq : s.quiet = true) : (tick s).quiet = true := by rwa [tick_of_quiet hq]

theorem setBody_quiet (op : Opcode) (body : List Stmt) (s : State) : (setBody op body s).quiet = s.quiet := rfl

theorem takeAnswer_quiet (op : Opcode) (j : Job) (r : Ret) (rest : List Stmt) {s : State} (hq : s.quiet = true) :
    (takeAnswer op j r rest s).quiet = true := by
  unfold takeAnswer
  split <;> rw [setBody_quiet]
  case h_2 rx =>
    cases j with
    | word k => exact tick_quiet hq
    | _ => exact hq
  all_goals exact hq

/-- An advance with no host access to land leaves none to land. -/
theorem advance_quiet {s : State} {c : Cursor} (hc : s.cur = some c) (hq : s.quiet = true) :
    (advance s).quiet = true := by
  apply advance_cases (Q := fun t => t.quiet = true) s c hc
  · exact fun k hk => (finishCall_returns hk hq).quiet
  · exact fun _ _ => by simpa [State.quiet, finish] using hq
  · intro _ st rest _
    cases st with
    | configure ch =>
      have hconf : (configure ch s).quiet = true := by simpa [State.quiet] using hq
      exact tick_quiet hconf
    | resetN v => exact tick_quiet (setResetN_quiet v hq)
    | delay t => exact tick_quiet (delayFor_quiet t hq)
    | wait =>
      simp only [advanceStmt]
      split
      exacts [(transact_returns none hq).quiet, hq]
    | frame j =>
      have hload : (j.load s).quiet = true := by simpa [State.quiet] using hq
      simp only [advanceStmt]
      split
      exacts [(transact_returns _ hload).quiet, takeAnswer_quiet _ _ _ _ hq]
    | finish code r => simpa [State.quiet, advanceStmt, finish] using hq

/-! ### The steps left -/

/-- The steps a Body takes at most once the procedure that its first statement calls, if it calls one, has returned. -/
def answeredSteps : List Stmt → Nat
  | .wait :: rest => bodySteps (.wait :: rest) - 1
  | .frame j :: rest => bodySteps (.frame j :: rest) - 1
  | body => bodySteps body

theorem answeredSteps_pos (body : List Stmt) : 1 ≤ answeredSteps body := by
  unfold answeredSteps
  split
  · simp only [bodySteps]; omega
  · have := bodySteps_frame ‹_› ‹_›
    omega
  · exact bodySteps_pos _

theorem answeredSteps_le (body : List Stmt) : answeredSteps body ≤ bodySteps body := by
  unfold answeredSteps
  split <;> omega

/-- The most steps until the command completes: a procedure in progress takes one. -/
def stepsLeft (s : State) : Nat :=
  match s.cur, s.call, s.ret with
  | none, _, _ => 0
  | some c, some _, _ => 1 + answeredSteps c.body
  | some c, none, some _ => answeredSteps c.body
  | some c, none, none => bodySteps c.body

theorem stepsLeft_calling {s : State} {c : Cursor} {k : Call} (hc : s.cur = some c) (hk : s.call = some k) :
    stepsLeft s = 1 + answeredSteps c.body := by
  rw [stepsLeft, hc, hk]

theorem stepsLeft_answered {s : State} {c : Cursor} {r : Ret} (hc : s.cur = some c) (hk : s.call = none)
    (hr : s.ret = some r) : stepsLeft s = answeredSteps c.body := by
  rw [stepsLeft, hc, hk, hr]

theorem stepsLeft_next {s : State} {c : Cursor} (hc : s.cur = some c) (hk : s.call = none) (hr : s.ret = none) :
    stepsLeft s = bodySteps c.body := by
  rw [stepsLeft, hc, hk, hr]

theorem Returned.stepsLeft {u t : State} {c : Cursor} (h : Returned u t) (hc : u.cur = some c) :
    stepsLeft t = answeredSteps c.body := by
  obtain ⟨r, hr⟩ := Option.isSome_iff_exists.mp h.ret
  exact stepsLeft_answered (h.cur.trans hc) h.call hr

section
variable {s : State} {c : Cursor} (hc : s.cur = some c)
include hc

theorem answeredSteps_le_stepsLeft : answeredSteps c.body ≤ stepsLeft s := by
  have hle := answeredSteps_le c.body
  cases hk : s.call with
  | some k => rw [stepsLeft_calling hc hk]; omega
  | none =>
    cases hr : s.ret with
    | some r => rw [stepsLeft_answered hc hk hr]
    | none => rwa [stepsLeft_next hc hk hr]

theorem stepsLeft_le : stepsLeft s ≤ bodySteps c.body + 1 := by
  have hle := answeredSteps_le c.body
  cases hk : s.call with
  | some k => rw [stepsLeft_calling hc hk]; omega
  | none =>
    cases hr : s.ret with
    | some r => rw [stepsLeft_answered hc hk hr]; omega
    | none => rw [stepsLeft_next hc hk hr]; omega

/-- A completion leaves no step. -/
theorem finish_stepsLeft (op : Opcode) (code : ResultCode) (r : Word) (u : State) :
    stepsLeft (finish op code r u) < stepsLeft s :=
  Nat.lt_of_lt_of_le (answeredSteps_pos c.body) (answeredSteps_le_stepsLeft hc)

/-- The Body goes on with fewer steps than its statement allowed for. -/
theorem setBody_stepsLeft {u : State} (op : Opcode) {body : List Stmt} (hk : u.call = none)
    (h : bodySteps body < answeredSteps c.body) : stepsLeft (setBody op body u) < stepsLeft s := by
  rw [stepsLeft_next (setBody_cur ..) ((setBody_call ..).trans hk) rfl]
  exact Nat.lt_of_lt_of_le h (answeredSteps_le_stepsLeft hc)

/-- A procedure that has been called has returned after one step. -/
theorem transact_stepsLeft {u : State} (t : Option Transaction) (hcur : u.cur = s.cur) (hq : u.quiet = true)
    (hk : s.call = none) (hr : s.ret = none) (h : answeredSteps c.body < bodySteps c.body) :
    stepsLeft (transact t u) < stepsLeft s := by
  rw [(transact_returns t hq).stepsLeft (hcur.trans hc), stepsLeft_next hc hk hr]
  exact h

/-- What a Body does once its frame has an answer takes fewer steps. -/
theorem takeAnswer_stepsLeft {j : Job} {rest : List Stmt} (hb : c.body = .frame j :: rest) (hk : s.call = none)
    (r : Ret) : stepsLeft (takeAnswer c.op j r rest s) < stepsLeft s := by
  have hframe := bodySteps_frame j rest
  have hpos := bodySteps_pos rest
  have hans : answeredSteps c.body = bodySteps (.frame j :: rest) - 1 := by rw [hb]; rfl
  unfold takeAnswer
  split
  · exact setBody_stepsLeft hc _ hk (by rw [hans]; simp only [bodySteps]; omega)
  · rename_i rx
    have hafter := bodySteps_after s.cfg j rx rest
    exact setBody_stepsLeft hc _ (by simpa using hk) (by omega)
  · exact setBody_stepsLeft hc _ hk (by omega)
  · exact setBody_stepsLeft hc _ hk (by omega)

/-- Every advance, no host access landing, takes one of the steps left. -/
theorem advance_stepsLeft (hq : s.quiet = true) : stepsLeft (advance s) < stepsLeft s := by
  apply advance_cases (Q := fun t => stepsLeft t < stepsLeft s) s c hc
  · intro k hk
    rw [(finishCall_returns hk hq).stepsLeft hc, stepsLeft_calling hc hk]
    omega
  · exact fun _ _ => finish_stepsLeft hc ..
  · intro hk st rest hb
    have hpos := bodySteps_pos rest
    cases st with
    | configure ch =>
      refine setBody_stepsLeft hc _ (by simpa using hk) ?_
      rw [hb]
      split <;> simp only [answeredSteps, bodySteps] <;> omega
    | resetN v | delay n =>
      refine setBody_stepsLeft hc _ (by simpa using hk) ?_
      rw [hb]
      simp only [answeredSteps, bodySteps]
      omega
    | wait =>
      simp only [advanceStmt]
      split
      · refine transact_stepsLeft hc none rfl hq hk ‹_› ?_
        rw [hb]
        simp only [answeredSteps, bodySteps]
        omega
      · refine setBody_stepsLeft hc _ hk ?_
        rw [hb]
        simp only [answeredSteps, bodySteps]
        omega
    | frame j =>
      simp only [advanceStmt]
      split
      · refine transact_stepsLeft hc _ (by simp) (by simpa [State.quiet] using hq) hk ‹_› ?_
        have hframe := bodySteps_frame j rest
        rw [hb, answeredSteps]
        omega
      · exact takeAnswer_stepsLeft hc hb hk _
    | finish code r => exact finish_stepsLeft hc ..

end

/-! ### The completion -/

/-- A command completes within n steps of s. -/
def CompletesIn (n : Nat) (s : State) : Prop :=
  ∃ m t, m ≤ n ∧ stepN m s = .next t ∧ t.busy = false ∧ t.cur = none

theorem CompletesIn.head {n : Nat} {s t : State} (hstep : step s = .next t) (h : CompletesIn n t) :
    CompletesIn (n + 1) s := by
  obtain ⟨m, u, hm, hrun, hend⟩ := h
  exact ⟨m + 1, u, by omega, by rw [stepN, hstep]; exact hrun, hend⟩

/-- A controller as every step leaves it, on which no host access lands before the command completes. -/
structure Undisturbed (s : State) : Prop where
  wf : s.cfg.Wf
  control : ControlInv s
  body : BodyOk s
  quiet : s.quiet = true

theorem Undisturbed.advance {s : State} {c : Cursor} (h : Undisturbed s) (hc : s.cur = some c) :
    Undisturbed (advance s) :=
  ⟨by rw [advance_cfg]; exact h.wf, h.control.advance hc, advance_body s c h.body hc, advance_quiet hc h.quiet⟩

/-- An undisturbed command completes within the steps left. -/
theorem Undisturbed.completes {n : Nat} {s : State} (h : Undisturbed s) (hn : stepsLeft s ≤ n) : CompletesIn n s := by
  induction n generalizing s with
  | zero =>
    cases hc : s.cur with
    | none => exact ⟨0, s, le_rfl, rfl, by simp [h.control.busy_iff, hc], hc⟩
    | some c =>
      have hless := advance_stepsLeft hc h.quiet
      omega
  | succ n ih =>
    cases hc : s.cur with
    | none => exact ⟨0, s, Nat.zero_le _, rfl, by simp [h.control.busy_iff, hc], hc⟩
    | some c =>
      have hless := advance_stepsLeft hc h.quiet
      exact .head (step_advance h.wf hc h.quiet h.body) (ih (h.advance hc) (by omega))

/-- Settles O59: the steps left are at most one more than the Body's cost. -/
theorem commandsComplete : Obligations.CommandsComplete := by
  intro s c hp hinv hbody hc hq
  have hleft := stepsLeft_le hc
  have hcost := bodySteps_cost c.body
  exact Undisturbed.completes ⟨hp, hinv, hbody, hq⟩ (by omega)

end Sys2Proof.Machine
end

section
/-! SUPPORT and the proofs of O27 and O29. A device-side frame, whichever of the three it is (spec/41_handshake_bus.md
R160 to R170): the one transaction that it asks for, its run on a device that answers Ok, and what it leaves. -/

namespace Sys2Proof.Machine

/-! ### The transaction of a frame (R160) -/

/-- A well-formed frame is sent as the one transaction that its encoding names. -/
theorem exec_frame {s : State} {i : Instr} {ch : Channel} {tx : List Byte} (hwf : i.wf = true)
    (henc : encode s.cfg i = .frame ch tx) : exec i s = sendFrame ⟨ch, tx⟩ s := by
  cases i <;> simp only [encode, Encoded.frame.injEq, reduceCtorEq] at henc <;> obtain ⟨rfl, rfl⟩ := henc
  case dataChunk payload => exact exec_dataChunk_ok (by simpa [Instr.wf] using hwf) s
  all_goals rfl

/-- A frame that goes on is well-formed, and has an encoding on one of the channels. -/
theorem frame_of_exec {s t : State} {i : Instr} (hop : i.opcode? = none) (hx : exec i s = .next t) :
    i.wf = true ∧ ∃ ch tx, encode s.cfg i = .frame ch tx := by
  cases i <;> simp only [Instr.opcode?, reduceCtorEq] at hop
  case ctrlWrite | ctrlRead => exact ⟨rfl, _, _, rfl⟩
  case dataChunk payload =>
    refine ⟨?_, _, _, rfl⟩
    by_contra hlen
    have hno : ¬ chunkOk payload := by simpa [Instr.wf] using hlen
    rw [exec_dataChunk_never hno] at hx
    cases hx

/-- A frame that is not refused is one run of WaitReady and its Xfer, up to its return or to the next input that lands. -/
theorem sendFrame_next {x : Transaction} {s t : State} (h : sendFrame x s = .next t) : t = transact (some x) s := by
  unfold sendFrame at h
  split at h
  · cases h
  · exact (Host.Outcome.next.inj h).symm

/-! ### A frame that is answered Ok (R161 to R163) -/

/-- What an Xfer answered Ok does to the state w that the wait before it has left. -/
def sentOk (ch : Channel) (tx rx : List Byte) (xs : List Reply) (w : State) : State :=
  { setSelect ch false w with
    dev := { w.dev with xfers := xs }
    trace := w.trace ++ [.xfer ch tx (.ok rx)]
    ret := some (.reply (.ok rx)) }

/-- A frame whose Xfer is answered Ok, no host access landing: the wait, whatever DREQ does, and then the Xfer. -/
theorem exec_frame_ok {s : State} {i : Instr} {ch : Channel} {tx rx : List Byte} {xs : List Reply}
    (hwf : i.wf = true) (henc : encode s.cfg i = .frame ch tx) (hc : s.call = none) (hq : s.quiet = true)
    (hlen : rx.length = tx.length) (hx : s.dev.xfers = .ok rx :: xs) :
    exec i s = .next (sentOk ch tx rx xs (waitReadyRef s.cfg.readyPolls s)) := by
  have hw : (waitReadyRef s.cfg.readyPolls s).dev.xfers = .ok rx :: xs := by rw [waitReadyRef_xfers, hx]
  have hanswer : frameAnswerRef ⟨ch, tx⟩ s = .ok rx := frameAnswerRef_ok hx hlen
  rw [exec_frame hwf henc, sendFrame_quiet _ hc hq, hanswer, frameRef, xfer_ok _ hw hlen]
  cases ch <;> rfl

/-- Settles O27: the wait takes the k + 1 samples from the tape, and the frame is sent. -/
theorem readyOnSampleK : Obligations.ReadyOnSampleK := by
  intro s i ch tx k d rx xs cs hwf henc hc hq hk hlen hdev
  rw [exec_frame_ok hwf henc hc hq hlen (xs := xs) (by rw [hdev]),
    waitReadyRef_ready k s.cfg.readyPolls d hk (by rw [hdev])]
  cases ch <;> simp [sentOk, setSelect, hdev]

/-! ### What a frame leaves (R49, R160) -/

/-- The chip select of the other channel. -/
def State.otherSelect (s : State) : Channel → Bool
  | .ctrl => s.csData
  | .data => s.csCtrl

theorem setSelect_otherSelect (ch : Channel) (v : Bool) (s : State) :
    (setSelect ch v s).otherSelect ch = s.otherSelect ch := by
  cases ch <;> rfl

/-- An action of a procedure moves no chip select but that of the transaction it will send. -/
theorem callStep_otherSelect {ch : Channel} {k : Call} (hk : ∀ x, k.transaction? = some x → x.ch = ch) (s : State) :
    (callStep k s).otherSelect ch = s.otherSelect ch := by
  have hwait (w : Ret) (x : Option Transaction) (u : State) : (afterWait w x u).otherSelect ch = u.otherSelect ch := by
    cases ch <;> simp [State.otherSelect]
  have hready : (sampleReady s).otherSelect ch = s.otherSelect ch := by
    cases ch <;> simp [State.otherSelect]
  cases k with
  | sample n x =>
    cases n with
    | zero => exact hwait _ _ _
    | succ n =>
      simp only [callStep]
      split
      exacts [(hwait _ _ _).trans hready, hready]
  | pollDelay n x => rfl
  | select x => exact hk x rfl ▸ setSelect_otherSelect x.ch true s
  | shift x => exact hk x rfl ▸ setSelect_otherSelect x.ch false _

/-- A transaction moves no chip select but its own (R49). -/
theorem transact_otherSelect (x : Transaction) (s : State) :
    (transact (some x) s).otherSelect x.ch = s.otherSelect x.ch :=
  (transact_keeps
    (P := fun u => u.otherSelect x.ch = s.otherSelect x.ch ∧ ∀ k, u.call = some k → k.transaction? = some x)
    (fun u k ⟨hsel, hcall⟩ hk =>
      have htrans := hcall k hk
      ⟨(callStep_otherSelect (fun y hy => by rw [Option.some.inj (hy.symm.trans htrans)]) u).trans hsel,
        fun _ hk' => (callStep_transaction hk').trans htrans⟩)
    ⟨rfl, by rintro k ⟨⟩; rfl⟩).1

/-- Settles O29: a frame is one transaction, which writes the trace, the flags, its own chip select and the position in
the command alone. -/
theorem framesLeave : Obligations.FramesLeave := by
  intro s t i hop hx
  obtain ⟨hwf, ch, tx, henc⟩ := frame_of_exec hop hx
  obtain rfl := sendFrame_next ((exec_frame hwf henc).symm.trans hx)
  refine ⟨transact_cfg .., transact_cmd .., transact_arg0 .., transact_arg1 .., transact_fsm .., transact_busy ..,
    transact_ovr .., transact_hdr .., transact_initFlag .., transact_code .., transact_result .., transact_resetN ..,
    transact_cur .., transact_hostLog .., fun a => by rw [transact_buf], fun a => by rw [transact_hdrbuf], ?_⟩
  intro ch' tx' henc'
  obtain ⟨rfl, rfl⟩ := Encoded.frame.inj (henc.symm.trans henc')
  have hsel := transact_otherSelect ⟨ch, tx⟩ s
  exact ⟨by rintro rfl; exact hsel, by rintro rfl; exact hsel⟩

end Sys2Proof.Machine
end

section
/-! SUPPORT and the proof of O28. With no host access to land a command's run completes, and it ends with BUS_ERROR only
after a failed answer (spec/41_handshake_bus.md R161, R163, R167; spec/60_exceptions.md R312). -/

namespace Sys2Proof.Machine

/-! ### A command's run completes (R141) -/

/-- A run of a Body for at least the steps it has left completes, no host access landing. -/
theorem runBody_completes {n : Nat} {s : State} (hq : s.quiet = true) (hn : stepsLeft s ≤ n) :
    (runBody n s).cur = none := by
  induction n generalizing s with
  | zero =>
    cases hc : s.cur with
    | none => exact hc
    | some c =>
      have hless := advance_stepsLeft hc hq
      omega
  | succ n ih =>
    cases hc : s.cur with
    | none => rwa [runBody_done _ hc]
    | some c =>
      have hless := advance_stepsLeft hc hq
      rw [runBody_advance hc hq]
      exact ih (advance_quiet hc hq) (by omega)

section
variable {i : Instr} {e : Entry} (he : entryOf i = some e) (s : State)
include he

theorem start_ret : (e.start s).ret = none :=
  enter_field State.ret he (fun _ => rfl) (fun _ => rfl) emitHeaderEnter_ret _
theorem start_inputs : (e.start s).inputs = s.inputs :=
  enter_field State.inputs he (fun _ => rfl) (fun _ => rfl) emitHeaderEnter_inputs _

end

/-- An accepted command is the run of its Body from its start (R133). -/
theorem exec_accepted {i : Instr} {e : Entry} (he : entryOf i = some e) {s : State} (ha : Accepts e.op s) :
    ∃ body, (e.start s).cur = some ⟨e.op, body⟩ ∧ exec i s = .next (runBody (bodyCost body) (e.start s)) := by
  refine ⟨_, rfl, ?_⟩
  rw [exec_entry he, launch_eq, if_neg (by simp [ha.idle]), if_pos ha.allow]
  rfl

/-- An accepted command completes in its launch. -/
theorem exec_completes {i : Instr} {e : Entry} (he : entryOf i = some e) {s t : State} (ha : Accepts e.op s)
    (hx : exec i s = .next t) : t.cur = none := by
  obtain ⟨body, hcur, hrun⟩ := exec_accepted he ha
  obtain rfl := Host.Outcome.next.inj (hrun.symm.trans hx)
  have hq : (e.start s).quiet = true := by
    rw [State.quiet, start_inputs he]
    exact ha.alone
  refine runBody_completes hq ?_
  rw [stepsLeft_next hcur (start_call he s) (start_ret he s)]
  exact bodySteps_cost body

/-! ### Where BUS_ERROR comes from (R167, R312) -/

/-- No statement ends a Body with BUS_ERROR. -/
def noBusErrorIn (body : List Stmt) : Prop := ∀ r, .finish .busError r ∉ body

/-- The command has not failed: no failed answer waits to be taken, its Body does not end with BUS_ERROR, and once
completed it has not. -/
structure NotFailed (s : State) : Prop where
  ret : s.ret ≠ some (.reply .busErr)
  body : ∀ c, s.cur = some c → noBusErrorIn c.body
  code : s.cur = none → s.code ≠ .busError

/-- The events ev have been added from s to t, and the command fails in them only if one of them is a failed answer. -/
structure FailsBy (ev : List Event) (s t : State) : Prop where
  trace : t.trace = s.trace ++ ev
  kept : NotFailed s → ev.any Event.failed = false → NotFailed t

theorem FailsBy.trans {a b : List Event} {s t u : State} (h : FailsBy a s t) (k : FailsBy b t u) :
    FailsBy (a ++ b) s u where
  trace := by rw [k.trace, h.trace, List.append_assoc]
  kept hs hab := by
    rw [List.any_append, Bool.or_eq_false_iff] at hab
    exact k.kept (h.kept hs hab.1) hab.2

/-- The command stays at its statement, with an answer that is no failed one, or that a failed event has brought. -/
theorem FailsBy.of_ret {ev : List Event} {s t : State} (htrace : t.trace = s.trace ++ ev) (hcur : t.cur = s.cur)
    (hcode : t.code = s.code)
    (hret : s.ret ≠ some (.reply .busErr) → ev.any Event.failed = false → t.ret ≠ some (.reply .busErr)) :
    FailsBy ev s t where
  trace := htrace
  kept hs hev := ⟨hret hs.ret hev, fun c hc => hs.body c (hcur ▸ hc), fun hc => hcode ▸ hs.code (hcur ▸ hc)⟩

/-- The Body goes on with other statements. -/
theorem FailsBy.of_setBody {ev : List Event} {s u : State} {op : Opcode} {body : List Stmt}
    (htrace : u.trace = s.trace ++ ev) (hbody : NotFailed s → ev.any Event.failed = false → noBusErrorIn body) :
    FailsBy ev s (setBody op body u) where
  trace := htrace
  kept hs hev := ⟨by rintro ⟨⟩, by rintro c ⟨⟩; exact hbody hs hev, by rintro ⟨⟩⟩

theorem FailsBy.of_finish {s : State} {op : Opcode} {code : ResultCode} (r : Word)
    (hcode : NotFailed s → code ≠ .busError) : FailsBy [] s (finish op code r s) where
  trace := by simp [finish]
  kept hs _ := ⟨by rintro ⟨⟩, by rintro c ⟨⟩, fun _ => hcode hs⟩

/-- An action of a procedure brings a failed answer only as the event of its Xfer. -/
theorem callStep_failsBy (k : Call) (s : State) : ∃ ev, FailsBy ev s (tick (callStep k s)) := by
  obtain ⟨ev, hev⟩ := callStep_flagsFollow k s
  cases k with
  | sample n x =>
    have hwait (w : Ret) (u : State) (hw : w ≠ .reply .busErr) (hu : u.ret = s.ret)
        (hs : s.ret ≠ some (.reply .busErr)) : (afterWait w x u).ret ≠ some (.reply .busErr) := by
      cases x with
      | none => simpa [afterWait] using hw
      | some x => simpa [afterWait, hu] using hs
    refine ⟨ev, .of_ret hev.trace (callStep_cur ..) (callStep_code ..) fun hs _ => ?_⟩
    cases n with
    | zero => exact hwait .timeout _ (by simp) (by simp) hs
    | succ n =>
      simp only [tick_ret, callStep]
      split
      · exact hwait .ready _ (by simp) (by simp) hs
      · simpa using hs
  | pollDelay n x => exact ⟨ev, .of_ret hev.trace (callStep_cur ..) (callStep_code ..) fun hs _ => hs⟩
  | select x =>
    exact ⟨ev, .of_ret hev.trace (callStep_cur ..) (callStep_code ..) fun hs _ => by simpa [callStep] using hs⟩
  | shift x =>
    refine ⟨[.xfer x.ch x.bytes (xferAnswer x.bytes.length s)], .of_ret ?_ (callStep_cur ..) (callStep_code ..) ?_⟩
    · simp [callStep]
    · intro _ hev
      simpa [Event.failed, callStep] using hev

theorem finishCall_failsBy (s : State) : ∃ ev, FailsBy ev s (finishCall s) :=
  finishCall_keeps (P := fun u => ∃ ev, FailsBy ev s u)
    (fun u k ⟨_, hu⟩ _ =>
      have ⟨_, hk⟩ := callStep_failsBy k u
      ⟨_, hu.trans hk⟩)
    ⟨[], .of_ret (by simp) rfl rfl fun hs _ => hs⟩

theorem transact_failsBy (x : Option Transaction) (s : State) : ∃ ev, FailsBy ev s (transact x s) :=
  have hbegin : FailsBy [] s (beginCall x s) := .of_ret (by simp) rfl rfl fun _ _ => by rintro ⟨⟩
  have ⟨_, h⟩ := finishCall_failsBy (beginCall x s)
  ⟨_, hbegin.trans h⟩

/-- After an Ok answer a Body ends with BUS_ERROR only where it would have anyway. -/
theorem bodyAfter_noBusError (p : Params) (j : Job) (rx : List Byte) {rest : List Stmt} (h : noBusErrorIn rest) :
    noBusErrorIn (bodyAfter p j rx rest) := by
  intro r
  cases j with
  | verify =>
    simp only [bodyAfter]
    split
    exacts [h r, by simp]
  | read a => simp [bodyAfter]
  | words cap =>
    simp only [bodyAfter, drainBody]
    split <;> simp
  | write a v | word k | chunk src off n => exact h r

/-- A statement ends the command with BUS_ERROR only by a failed answer, its own or the one that it takes. -/
theorem advanceStmt_failsBy {op : Opcode} {st : Stmt} {rest : List Stmt} {s : State}
    (hcur : s.cur = some ⟨op, st :: rest⟩) : ∃ ev, FailsBy ev s (advanceStmt op st rest s) := by
  have hrest (hs : NotFailed s) : noBusErrorIn rest := fun r hmem => hs.body _ hcur r (List.mem_cons_of_mem _ hmem)
  cases st with
  | configure ch =>
    refine ⟨[.configure ch (configAnswer s)], .of_setBody (by simp) fun hs hev => ?_⟩
    have hok : configAnswer s = true := by simpa [Event.failed] using hev
    rw [if_pos hok]
    exact hrest hs
  | resetN v => exact ⟨[.resetN v], .of_setBody (by simp) fun hs _ => hrest hs⟩
  | delay n => exact ⟨[.delay n], .of_setBody (by simp) fun hs _ => hrest hs⟩
  | wait =>
    simp only [advanceStmt]
    split
    · exact transact_failsBy none s
    · exact ⟨[], .of_setBody (by simp) fun hs _ => hrest hs⟩
  | frame j =>
    simp only [advanceStmt]
    split
    · have hload : FailsBy [] s (j.load s) := .of_ret (by simp) (by simp) (by simp) fun hs _ => by simpa using hs
      have ⟨_, h⟩ := transact_failsBy (frameOf s.cfg (j.instr s)) (j.load s)
      exact ⟨_, hload.trans h⟩
    · refine ⟨[], ?_⟩
      rename_i hret
      unfold takeAnswer
      split
      · exact .of_setBody (by simp) fun hs _ => absurd hret hs.ret
      · exact .of_setBody (by simp) fun hs _ => bodyAfter_noBusError _ _ _ (hrest hs)
      · exact .of_setBody (by simp) fun hs _ => hrest hs
      · exact .of_setBody (by simp) fun hs _ => hrest hs
  | finish code r =>
    refine ⟨[], .of_finish r fun hs => ?_⟩
    rintro rfl
    exact hs.body _ hcur r (List.mem_cons_self ..)

theorem advance_failsBy {s : State} {c : Cursor} (hc : s.cur = some c) : ∃ ev, FailsBy ev s (advance s) :=
  advance_cases (Q := fun t => ∃ ev, FailsBy ev s t) s c hc (fun _ _ => finishCall_failsBy s)
    (fun _ _ => ⟨[], .of_finish 0 fun _ => by simp⟩)
    (fun _ _ _ hb => advanceStmt_failsBy (by rw [hc, ← hb]))

theorem sendData_noBusError (src : Source) (len : Nat) : noBusErrorIn (sendData src len) := by
  simp [noBusErrorIn, sendData]

/-- No Body holds a BUS_ERROR from its start. -/
theorem entry_noBusError {i : Instr} {e : Entry} (he : entryOf i = some e) (u : State) : noBusErrorIn (e.body u) := by
  cases i <;> simp only [entryOf, Option.some.injEq, reduceCtorEq] at he <;> subst he
  case init =>
    intro r
    simp only [initBody, verifyStmts]
    split <;> simp
  case bulkWrite =>
    simp only [bulkWriteBody]
    split
    exacts [by simp [noBusErrorIn], sendData_noBusError _ _]
  case startRecord =>
    simp only [startRecordBody]
    split <;> simp [noBusErrorIn]
  case emitHeader =>
    simp only [emitHeaderBody]
    split
    exacts [sendData_noBusError _ _, by simp [noBusErrorIn]]
  case writeBlock =>
    simp only [writeBlockBody]
    split
    exacts [sendData_noBusError _ _, by simp [noBusErrorIn]]
  all_goals intro r; simp [regWriteBody, regReadBody, readBlockBody, startDecodeBody, stopBody]

theorem start_notFailed {i : Instr} {e : Entry} (he : entryOf i = some e) (s : State) : NotFailed (e.start s) where
  ret := by simp [start_ret he s]
  body := by rintro c ⟨⟩; exact entry_noBusError he _
  code := by rintro ⟨⟩

/-- An accepted command has failed only if an answer has. -/
theorem exec_notFailed {i : Instr} {e : Entry} (he : entryOf i = some e) {s t : State} (ha : Accepts e.op s)
    (hx : exec i s = .next t) {ev : List Event} (htrace : t.trace = s.trace ++ ev)
    (hev : ev.any Event.failed = false) : NotFailed t := by
  obtain ⟨ev', h⟩ := exec_keeps (P := fun u => ∃ ev, FailsBy ev (e.start s) u) he hx
    (fun hb => by simp [ha.idle] at hb) (fun _ hno => by simp [ha.allow] at hno)
    (fun _ _ => ⟨[], .of_ret (by simp) rfl rfl fun hs _ => hs⟩)
    (fun u c ⟨_, hu⟩ hc =>
      have ⟨_, hadv⟩ := advance_failsBy hc
      ⟨_, hu.trans hadv⟩)
  have hsame : ev' = ev := List.append_cancel_left ((start_trace he s ▸ h.trace).symm.trans htrace)
  exact h.kept (start_notFailed he s) (hsame ▸ hev)

/-! ### A timeout is no error (R163) -/

/-- Settles O28: the wait takes its samples, sets the flags and goes on; and a completed command's BUS_ERROR needs a
failed answer. -/
theorem timeoutGoesOn : Obligations.TimeoutGoesOn := by
  refine ⟨?_, ?_⟩
  · intro s i ch tx d rx xs cs hwf henc hc hq hlen hdev
    rw [exec_frame_ok hwf henc hc hq hlen (xs := xs) (by rw [hdev]),
      waitReadyRef_timeout s.cfg.readyPolls d (by rw [hdev])]
    have hcount : satSucc s.tmoCount = if s.tmoCount = 0xFFFFFFFF then 0xFFFFFFFF else s.tmoCount + 1 := by
      unfold satSucc
      split
      exacts [‹_›, rfl]
    rw [hcount]
    cases ch <;> simp [sentOk, setSelect, hdev]
  · intro s t i op ev hop ha hx htrace hev
    obtain ⟨e, he, rfl⟩ := entry_of_opcode hop
    exact (exec_notFailed he ha hx htrace hev).code (exec_completes he ha hx)

end Sys2Proof.Machine
end

section
/-! SUPPORT and the proof of O37. The chunks that a SendData has sent, counted and measured (spec/41_handshake_bus.md R170,
R171). -/

namespace Sys2Proof.Machine

/-! ### The chunks of a SendData that has ended (R171) -/

/-- A SendData has ended after the first n chunks of the transfer: all of them, or those up to the failed one. -/
structure SendEnd (bs : List Byte) (n : Nat) (s t : State) (ev : List Event) : Prop where
  trace : t.trace = s.trace ++ ev
  sent : dataChunks ev = (chunksOf bs).take n
  le : n ≤ (chunksOf bs).length
  code : (t.code = .ok ∧ n = (chunksOf bs).length) ∨ (t.code = .busError ∧ failsLast ev ∧ 1 ≤ n)

theorem SendRun.sendEnd {op : Opcode} {src : Source} {len m c : Nat} {u t : State} {bs : List Byte} {ev : List Event}
    (r : SendRun src len m c (finish op .busError 0) (finish op .ok 0) u t bs ev) : ∃ n, SendEnd bs n u t ev := by
  rcases r.ends with ⟨v, rfl, hv, -, hall⟩ | ⟨v, rfl, hv, ⟨k, ch, pre, hk, rfl, hfail, hpre⟩, -⟩
  · exact ⟨_, by simpa [finish] using hv, by rw [hall, List.take_length], le_rfl, .inl ⟨rfl, rfl⟩⟩
  · have hlt : k < (chunksOf bs).length := (List.getElem?_eq_some_iff.1 hk).1
    have hsent : dataChunks (pre ++ [.xfer .data ch .busErr]) = (chunksOf bs).take (k + 1) := by
      rw [dataChunks_append, hpre, List.take_add_one, hk]
      rfl
    exact ⟨k + 1, by simpa [finish] using hv, hsent, hlt, .inr ⟨rfl, ⟨pre, _, rfl, hfail, rfl⟩, by omega⟩⟩

/-- A chunk sent is a chunk of the transfer. -/
theorem SendEnd.chunk {bs : List Byte} {n c : Nat} {s t : State} {ev : List Event} {chunk : List Byte}
    (h : SendEnd bs n s t ev) (hc : (dataChunks ev)[c]? = some chunk) :
    c < (bs.length + 31) / 32 ∧ chunk.length = min 32 (bs.length - 32 * c) := by
  rw [h.sent, List.getElem?_take] at hc
  split at hc
  exacts [chunksOf_chunk bs hc, by cases hc]

/-- The number and the lengths of the chunks sent. -/
theorem SendEnd.chunksSent {bs : List Byte} {n : Nat} {s t : State} {ev : List Event} (h : SendEnd bs n s t ev)
    (hnone : bs.length = 0 → ev = []) : ChunksSent bs.length s t ev := by
  have hle := h.le
  rw [chunksOf_length] at hle
  have hsent : (dataChunks ev).length = n := by
    rw [h.sent, List.length_take, chunksOf_length]
    omega
  have hcode := h.code
  rw [chunksOf_length] at hcode
  exact {
    trace := h.trace
    ended := hcode.imp And.left And.left
    all := fun hok => by
      rcases hcode with ⟨-, hn⟩ | ⟨herr, -⟩
      exacts [hsent.trans hn, by simp [hok] at herr]
    full := fun c chunk hc _ => by have := h.chunk hc; omega
    last := fun c chunk hc _ => by have := h.chunk hc; omega
    none := hnone
    failed := fun herr => by
      rcases hcode with ⟨hok, -⟩ | ⟨-, hlast, hpos⟩
      exacts [by simp [herr] at hok, ⟨hlast, n - 1, by omega, by omega⟩] }

/-! ### The three commands that send data (R200, R285, R290) -/

/-- A Body's start, from the state u that the assignments before its first primitive lead to. -/
theorem Entry.start_running (e : Entry) {s u : State}
    (henter : e.enter ((accepted e.word s).at' s.cur none none) = u.at' s.cur none none) :
    e.start s = u.running e.op (e.body (u.at' s.cur none none)) := by
  have hstart : e.start s = { e.enter ((accepted e.word s).at' s.cur none none) with
      cur := some ⟨e.op, e.body (e.enter ((accepted e.word s).at' s.cur none none))⟩ } := rfl
  rw [hstart, henter]
  rfl

/-- An accepted command whose Body is a SendData of len bytes sends the chunks of len bytes. -/
theorem exec_chunksSent {i : Instr} {e : Entry} (he : entryOf i = some e) {s u : State} (ha : Accepts e.op s)
    {src : Source} {len : Nat} (henter : e.enter ((accepted e.word s).at' s.cur none none) = u.at' s.cur none none)
    (hbody : e.body (u.at' s.cur none none) = sendData src len) (hin : u.inputs = s.inputs)
    (htrace : u.trace = s.trace) : ∃ t ev, exec i s = .next t ∧ ChunksSent len s t ev := by
  have hq : u.quiet = true := by
    rw [State.quiet, hin]
    exact ha.alone
  obtain ⟨body, hcur, hrun⟩ := exec_accepted he ha
  rw [e.start_running henter, hbody] at hcur hrun
  cases hcur
  rw [run_sendData e.op src len hq] at hrun
  obtain ⟨bs, ev, r⟩ := sendDataRef_run src len (finish e.op .busError 0) (finish e.op .ok 0) (chunkCount len) 0 u rfl
  obtain rfl : bs.length = len := r.length
  obtain ⟨n, hend⟩ := r.sendEnd
  have hends : SendEnd bs n s _ ev := { hend with trace := htrace ▸ hend.trace }
  exact ⟨_, ev, hrun, hends.chunksSent fun h0 => r.none (by rw [h0]; rfl)⟩

theorem headerArgsOk_true {s : State} (hlow : 1 ≤ s.arg0.toNat) (hhigh : s.arg0.toNat ≤ 65535)
    (hch : channelsByte s.arg1 = 1 ∨ channelsByte s.arg1 = 2) : headerArgsOk s = true := by
  simpa [headerArgsOk, rateOk, channelsOk, hlow, hhigh] using hch

/-- Settles O37: each of the three Bodies is one SendData. -/
theorem chunkArithmetic : Obligations.ChunkArithmetic := by
  intro s ign
  refine ⟨fun ha hlen => ?_, fun ha hhdr => ?_, fun ha hlow hhigh hch => ?_⟩
  · exact exec_chunksSent rfl ha (u := accepted (cmdWordIgn .bulkWrite ign) s) rfl (if_neg (Nat.not_lt.2 hlen)) rfl rfl
  · exact exec_chunksSent rfl ha (u := accepted (cmdWordIgn .writeBlock ign) s) rfl (if_pos hhdr) rfl rfl
  · have hargs : headerArgsOk (emitHeaderEnter (accepted (cmdWordIgn .emitHeader ign) s)) = true :=
      (headerArgsOk_enter _).trans (headerArgsOk_true hlow hhigh hch)
    exact exec_chunksSent rfl ha (u := emitHeaderEnter (accepted (cmdWordIgn .emitHeader ign) s))
      (emitHeaderEnter_at' _ _ _ _) (if_pos hargs) (emitHeaderEnter_inputs _) (emitHeaderEnter_trace _)

end Sys2Proof.Machine
end

section
/-! SUPPORT and the proofs of O17, O18, O19, O30, O31 and O36. REG_WRITE, REG_READ and BULK_WRITE against their
pseudocode (spec/42_register_block_io.md R190, R195, R200), the first two on a device that answers, and what BULK_WRITE
and WRITE_BLOCK send. -/

namespace Sys2Proof.Machine

/-! ### An accepted command with no host access to land (R133, R138) -/

/-- An accepted command is the run of its Body, from the state u that the assignments before its first primitive lead
to. -/
theorem exec_runs {i : Instr} {e : Entry} (he : entryOf i = some e) {s u : State} (ha : Accepts e.op s)
    {body : List Stmt} (henter : e.enter ((accepted e.word s).at' s.cur none none) = u.at' s.cur none none)
    (hbody : e.body (u.at' s.cur none none) = body) :
    exec i s = .next (runBody (bodyCost body) (u.running e.op body)) := by
  obtain ⟨body', hcur, hrun⟩ := exec_accepted he ha
  rw [e.start_running henter, hbody] at hcur hrun
  cases hcur
  exact hrun

theorem accepted_quiet {op : Opcode} {s : State} (w : Word) (ha : Accepts op s) : (accepted w s).quiet = true :=
  ha.alone

/-! ### A Body against its pseudocode -/

/-- A Body of one register write (R190). -/
theorem run_regWrite (r : Byte) (v : Half) {u : State} (hq : u.quiet = true) :
    runBody (bodyCost [.frame (.write r v)]) (u.running .regWrite [.frame (.write r v)]) = regWriteRef r v u :=
  (run_write 0 hq .regWrite r v []).trans
    (regWrRef_congr hq (fun _ _ _ _ _ => rfl) fun _ ht _ _ _ => runBody_end 0 ht .regWrite)

/-- A Body of one register read, its answer the RESULT (R195). -/
theorem run_regRead (r : Byte) {u : State} (hq : u.quiet = true) :
    runBody (bodyCost [.frame (.read r)]) (u.running .regRead [.frame (.read r)]) = regReadRef r u := by
  refine (run_read 0 hq .regRead (.read r) r [] rfl rfl).trans ?_
  unfold regReadRef regRdRef
  cases frameAnswerRef { ch := .ctrl, bytes := readFrame u.cfg r } u with
  | busErr => rfl
  | ok rx => exact runBody_finish 0 (frameRef_quiet _ hq) .regRead .ok (zext32 (readValue rx)) []

/-- Body(BULK_WRITE): BAD_ARGUMENT for a length beyond BUF, and otherwise one SendData (R200). -/
theorem run_bulkWrite {u : State} (hq : u.quiet = true) :
    runBody (bodyCost (bulkWriteBody u)) (u.running .bulkWrite (bulkWriteBody u)) = bulkWriteRef u := by
  unfold bulkWriteBody bulkWriteRef
  split
  · exact runBody_finish 1 hq .bulkWrite .badArgument 0 []
  · exact run_sendData .bulkWrite .buf u.arg0.toNat hq

/-- Settles O17: the Body is one register write. -/
theorem regWriteRunsItsBody : Obligations.RegWriteRunsItsBody := fun r v s ha =>
  (exec_runs rfl ha (u := accepted (cmdWord .regWrite r v) s) rfl rfl).trans
    (congrArg _ (run_regWrite r v (accepted_quiet _ ha)))

/-- Settles O18: the Body is one register read. -/
theorem regReadRunsItsBody : Obligations.RegReadRunsItsBody := fun r ign s ha =>
  (exec_runs rfl ha (u := accepted (cmdWord .regRead r ign) s) rfl rfl).trans
    (congrArg _ (run_regRead r (accepted_quiet _ ha)))

/-- Settles O19: the Body is its length check, then one SendData. -/
theorem bulkWriteRunsItsBody : Obligations.BulkWriteRunsItsBody := fun ign s ha =>
  (exec_runs rfl ha (u := accepted (cmdWordIgn .bulkWrite ign) s) rfl rfl).trans
    (congrArg _ (run_bulkWrite (accepted_quiet _ ha)))

/-! ### On a device that is ready and answers Ok (R165, R166) -/

section
variable {d : List Bool} {rx : List Byte} {xs : List Reply} {cs : List Bool} {u : State}

/-- A register write that is answered Ok goes on (R165). -/
theorem regWrRef_ready (r : Byte) (v : Half) (fail rest : State → State) (hpolls : 1 ≤ u.cfg.readyPolls)
    (hlen : rx.length = 4) (hdev : u.dev = ⟨true :: d, .ok rx :: xs, cs⟩) :
    regWrRef r v fail rest u = rest { u with
      csCtrl := false, dev := ⟨d, xs, cs⟩
      trace := u.trace ++ [.ready true, .xfer .ctrl (writeFrame u.cfg r v) (.ok rx)] } := by
  obtain ⟨hanswer, hframe⟩ := frameRef_ready { ch := .ctrl, bytes := writeFrame u.cfg r v } hpolls hlen hdev
  simp only [regWrRef, hanswer, hframe, setSelect]

/-- A register read that is answered Ok goes on with the value read (R166). -/
theorem regRdRef_ready (r : Byte) (fail : State → State) (rest : Half → State → State)
    (hpolls : 1 ≤ u.cfg.readyPolls) (hlen : rx.length = 4) (hdev : u.dev = ⟨true :: d, .ok rx :: xs, cs⟩) :
    regRdRef r fail rest u = rest (readValue rx) { u with
      csCtrl := false, dev := ⟨d, xs, cs⟩
      trace := u.trace ++ [.ready true, .xfer .ctrl (readFrame u.cfg r) (.ok rx)] } := by
  obtain ⟨hanswer, hframe⟩ := frameRef_ready { ch := .ctrl, bytes := readFrame u.cfg r } hpolls hlen hdev
  simp only [regRdRef, hanswer, hframe, setSelect]

end

/-- RESULT of a REG_READ: the last two bytes received, zero-extended (R79, R195). -/
theorem zext32_readValue (x0 x1 x2 x3 : Byte) :
    zext32 (readValue [x0, x1, x2, x3]) = (0 : Half) ++ x2 ++ x3 := by
  have hvalue : (readValue [x0, x1, x2, x3]).toNat = x2.toNat <<< 8 ||| x3.toNat := BitVec.toNat_append x2 x3
  have hword : ((0 : Half) ++ x2 ++ x3 : Word).toNat = ((0 : Half) ++ x2).toNat <<< 8 ||| x3.toNat :=
    BitVec.toNat_append ((0 : Half) ++ x2) x3
  apply BitVec.eq_of_toNat_eq
  rw [zext32, BitVec.zeroExtend, BitVec.toNat_setWidth_of_le (by decide), hvalue, hword, BitVec.toNat_append]
  simp

/-- Settles O30: the pseudocode's one frame is answered Ok. -/
theorem regWriteOk : Obligations.RegWriteOk := fun s r v _ _ _ _ ha hpolls hlen hdev =>
  (regWriteRunsItsBody r v s ha).trans (congrArg _ (regWrRef_ready r v _ _ hpolls hlen hdev))

/-- Settles O31: the pseudocode's one frame is answered Ok with the value. -/
theorem regReadOk : Obligations.RegReadOk := by
  intro s r ign d x0 x1 x2 x3 xs cs ha hpolls hdev
  rw [← zext32_readValue x0 x1 x2 x3]
  exact (regReadRunsItsBody r ign s ha).trans (congrArg _ (regRdRef_ready r _ _ hpolls rfl hdev))

/-! ### What BULK_WRITE and WRITE_BLOCK send (R170, R171) -/

/-- A SendData of the whole transfer that has ended, as a command's run, has sent its bytes. -/
theorem SendRun.blockSent {op : Opcode} {src : Source} {len : Nat} {u t : State} {bs : List Byte} {ev : List Event}
    (r : SendRun src len (chunkCount len) 0 (finish op .busError 0) (finish op .ok 0) u t bs ev) :
    BlockSent bs u t := by
  have hlen : bs.length = len := r.length
  rcases r.ends with ⟨v, rfl, hv, hfail, hall⟩ | ⟨v, rfl, hv, hlast, hok⟩
  · have hstream : dataStream ev = bs := by rw [dataStream, hall, chunksOf_flatten]
    exact ⟨⟨rfl, rfl⟩, ⟨ev, by simpa [finish] using hv, r.noFrames, .inl ⟨rfl, hfail, hall, hstream⟩⟩,
      fun _ _ _ _ => rfl⟩
  · have hcount : (chunksOf bs).length = chunkCount len := by rw [chunksOf_length, hlen]; rfl
    exact ⟨⟨rfl, rfl⟩, ⟨ev, by simpa [finish] using hv, r.noFrames, .inr ⟨rfl, hlast⟩⟩,
      fun rs xs hx hl => absurd (hl.trans hcount) (hok rs xs hx)⟩

/-- An accepted command whose Body is a SendData of len bytes of BUF sends len bytes that BUF may give. -/
theorem exec_blockSent {i : Instr} {e : Entry} (he : entryOf i = some e) {s : State} (ha : Accepts e.op s) {len : Nat}
    (henter : e.enter ((accepted e.word s).at' s.cur none none) = (accepted e.word s).at' s.cur none none)
    (hbody : e.body ((accepted e.word s).at' s.cur none none) = sendData .buf len) :
    ∃ t bs, exec i s = .next t ∧ bs.length = len ∧ bufGives s bs ∧ BlockSent bs s t := by
  obtain ⟨bs, ev, r⟩ := sendDataRef_run .buf len (finish e.op .busError 0) (finish e.op .ok 0) (chunkCount len) 0
    (accepted e.word s) rfl
  have hgives : bufGives s bs := fun i v hi hv => r.gives i v hi ((Nat.zero_add i).symm ▸ hv)
  obtain ⟨hdone, hsent, hok⟩ := r.blockSent
  refine ⟨_, bs, (exec_runs he ha henter hbody).trans ?_, r.length, hgives, hdone, hsent, hok⟩
  rw [run_sendData e.op .buf len (accepted_quiet _ ha)]

/-- Settles O36: each of the two Bodies is one SendData of BUF. -/
theorem blockDataSent : Obligations.BlockDataSent := fun _ _ =>
  ⟨fun ha hlen => exec_blockSent rfl ha rfl (if_neg (Nat.not_lt.2 hlen)),
    fun ha hhdr => exec_blockSent rfl ha rfl (if_pos hhdr)⟩

end Sys2Proof.Machine
end

section
/-! SUPPORT and the proofs of O16, O25, O32, O33 and O58. INIT and STOP against their pseudocode (spec/43_lifecycle.md
R220, R230), both and START_DECODE on a device that answers, and what STATUS reads while INIT runs (R221). -/

namespace Sys2Proof.Machine

/-! ### A statement, then the rest of the Body -/

theorem bodyCost_cons (st : Stmt) (rest : List Stmt) : bodyCost (st :: rest) = bodyCost rest + st.cost := by
  rw [bodyCost, List.map_cons, List.sum_cons, Nat.add_assoc, Nat.add_comm]
  rfl

section
variable {op : Opcode} {rest : List Stmt} {next : State → State} {u : State} (hq : u.quiet = true)
include hq

/-- A register write, where the rest of the Body runs as `next` (R165). -/
theorem run_write_then (r : Byte) (v : Half)
    (hrest : ∀ t : State, t.quiet = true → t.cfg = u.cfg → runBody (bodyCost rest) (t.running op rest) = next t) :
    runBody (bodyCost (.frame (.write r v) :: rest)) (u.running op (.frame (.write r v) :: rest))
      = regWrRef r v (finish op .busError 0) next u := by
  rw [bodyCost_cons]
  exact (run_write _ hq op r v rest).trans
    (regWrRef_congr hq (fun _ _ _ _ _ => rfl) fun t ht hcfg _ _ => hrest t ht hcfg)

/-- A Configure, where the rest of the Body runs as `next` (R175). -/
theorem run_configure_then (ch : Channel)
    (hrest : ∀ t : State, t.quiet = true → t.cfg = u.cfg → runBody (bodyCost rest) (t.running op rest) = next t) :
    runBody (bodyCost (.configure ch :: rest)) (u.running op (.configure ch :: rest))
      = configureRef ch (finish op .busError 0) next u := by
  have ht : (configure ch u).quiet = true := by rwa [State.quiet, configure_inputs]
  rw [bodyCost_cons]
  refine (runBody_configure (bodyCost rest) hq op ch rest).trans ?_
  unfold configureRef
  split
  · exact hrest _ ht (configure_cfg u ch)
  · exact runBody_finish _ ht op .busError 0 []

/-- The reset pulse, and then the rest of the Body (R220). -/
theorem run_pulse_then {body : List Stmt} (hbody : body = .resetN false :: .delay u.cfg.resetAssertTicks
      :: .resetN true :: .delay u.cfg.resetRecoverTicks :: rest) :
    runBody (bodyCost body) (u.running op body) = runBody (bodyCost rest) ((resetPulseRef u).running op rest) := by
  rw [hbody, bodyCost_cons, bodyCost_cons, bodyCost_cons, bodyCost_cons]
  exact run_pulse _ hq op _ _ rest

end

/-- A Body that is one register write, as STOP's and START_DECODE's are (R230, R280). -/
theorem run_writeAlone (op : Opcode) (r : Byte) (v : Half) {u : State} (hq : u.quiet = true) :
    runBody (bodyCost [.frame (.write r v)]) (u.running op [.frame (.write r v)])
      = regWrRef r v (finish op .busError 0) (finish op .ok 0) u :=
  run_write_then hq r v fun _ ht _ => runBody_end 0 ht op

/-! ### INIT against its pseudocode (R220) -/

/-- The register writes of Body(INIT) and its readback. -/
def initWriteStmts (p : Params) : List Stmt :=
  .frame (.write p.regMode (modeSoftReset p)) :: .frame (.write p.regClock p.clockDefault)
    :: .frame (.write p.regVolume p.volDefault) :: verifyStmts p

/-- Body(INIT): the channels, the reset pulse, the writes. -/
theorem initBody_eq (s : State) : initBody s
    = .configure .ctrl :: .configure .data :: .resetN false :: .delay s.cfg.resetAssertTicks :: .resetN true
      :: .delay s.cfg.resetRecoverTicks :: initWriteStmts s.cfg := rfl

theorem initBody_at' (u : State) (c : Option Cursor) (k : Option Call) (r : Option Ret) :
    initBody (u.at' c k r) = initBody u := by
  rw [initBody_eq, initBody_eq, at'_cfg]

/-- INIT's readback: only the default that was written is accepted. -/
theorem run_verify {u : State} (hq : u.quiet = true) :
    runBody (bodyCost [.frame .verify]) (u.running .init [.frame .verify])
      = regRdRef u.cfg.regClock (faultRef .busError)
          (fun x t => if x = t.cfg.clockDefault then initDoneRef t else faultRef .hwNotResponding t) u := by
  refine (run_read 0 hq .init .verify u.cfg.regClock [] rfl rfl).trans ?_
  unfold regRdRef
  have ht := frameRef_quiet { ch := .ctrl, bytes := readFrame u.cfg u.cfg.regClock } hq
  cases frameAnswerRef { ch := .ctrl, bytes := readFrame u.cfg u.cfg.regClock } u with
  | busErr => rfl
  | ok rx =>
    simp only [storeAnswer, bodyAfter, frameRef_cfg]
    split
    · exact runBody_end 0 ht .init
    · exact runBody_finish 0 ht .init .hwNotResponding 0 []

/-- The end of Body(INIT), with or without the readback (D18). -/
theorem run_initVerify {u : State} (hq : u.quiet = true) :
    runBody (bodyCost (verifyStmts u.cfg)) (u.running .init (verifyStmts u.cfg)) = initVerifyRef u := by
  unfold verifyStmts initVerifyRef
  split
  · exact run_verify hq
  · exact runBody_end 0 hq .init

theorem run_initWrites {p : Params} {u : State} (hq : u.quiet = true) (hp : u.cfg = p) :
    runBody (bodyCost (initWriteStmts p)) (u.running .init (initWriteStmts p)) = initWritesRef u := by
  subst hp
  refine run_write_then hq _ _ fun t ht hcfg => ?_
  rw [← hcfg]
  refine run_write_then ht _ _ fun v hv hcfg => ?_
  rw [← hcfg]
  refine run_write_then hv _ _ fun w hw hcfg => ?_
  rw [← hcfg]
  exact run_initVerify hw

theorem resetPulseRef_cfg (u : State) : (resetPulseRef u).cfg = u.cfg := by
  rw [resetPulseRef, delayFor_cfg, setResetN_cfg, delayFor_cfg, setResetN_cfg]

theorem resetPulseRef_quiet {u : State} (hq : u.quiet = true) : (resetPulseRef u).quiet = true :=
  delayFor_quiet _ (setResetN_quiet true (delayFor_quiet _ (setResetN_quiet false hq)))

/-- Body(INIT) from its first primitive. -/
theorem run_initPrimitives {u : State} (hq : u.quiet = true) :
    runBody (bodyCost (initBody u)) (u.running .init (initBody u))
      = configureRef .ctrl (faultRef .busError)
          (configureRef .data (faultRef .busError) fun t => initWritesRef (resetPulseRef t)) u := by
  rw [initBody_eq]
  refine run_configure_then hq .ctrl fun t ht hcfg => ?_
  rw [← hcfg]
  refine run_configure_then ht .data fun v hv hcfg => ?_
  rw [← hcfg]
  exact (run_pulse_then hv rfl).trans (run_initWrites (resetPulseRef_quiet hv) (resetPulseRef_cfg v))

theorem initEnter_quiet {u : State} (hq : u.quiet = true) : (initEnter u).quiet = true := hq

/-- Body(INIT) is its first assignments and then its primitives. -/
theorem run_init {u : State} (hq : u.quiet = true) :
    runBody (bodyCost (initBody (initEnter u))) ((initEnter u).running .init (initBody (initEnter u))) = initRef u :=
  run_initPrimitives (initEnter_quiet hq)

/-- Settles O16: the Body's statements are the pseudocode's, one by one. -/
theorem initRunsItsBody : Obligations.InitRunsItsBody := by
  intro ign s ha
  refine (exec_runs rfl ha (u := initEnter (accepted (cmdWordIgn .init ign) s)) rfl (initBody_at' _ _ _ _)).trans ?_
  exact congrArg _ (run_init (accepted_quiet _ ha))

/-! ### STOP and START_DECODE against their pseudocode (R230, R280) -/

theorem stopEnter_quiet {u : State} (hq : u.quiet = true) : (stopEnter u).quiet = true := hq

/-- Body(STOP) is HDR <- 0 and then one register write. -/
theorem run_stop {u : State} (hq : u.quiet = true) :
    runBody (bodyCost (stopBody (stopEnter u))) ((stopEnter u).running .stop (stopBody (stopEnter u))) = stopRef u :=
  run_writeAlone .stop _ _ (stopEnter_quiet hq)

/-- Settles O25: the Body is one register write, after HDR <- 0. -/
theorem stopRunsItsBody : Obligations.StopRunsItsBody := fun ign s ha =>
  (exec_runs rfl ha (u := stopEnter (accepted (cmdWordIgn .stop ign) s)) rfl rfl).trans
    (congrArg _ (run_stop (accepted_quiet _ ha)))

/-- An accepted START_DECODE goes where its pseudocode goes: the Body is one register write. -/
theorem exec_startDecode_ref (ign : BitVec 24) {s : State} (ha : Accepts .startDecode s) :
    exec (.startDecode ign) s = .next (startDecodeRef (accepted (cmdWordIgn .startDecode ign) s)) :=
  (exec_runs rfl ha (u := accepted (cmdWordIgn .startDecode ign) s) rfl rfl).trans
    (congrArg _ (run_writeAlone .startDecode _ _ (accepted_quiet _ ha)))

/-! ### On a device that is ready and answers Ok (R165, R166, R175) -/

/-- A Configure that is answered Ok goes on (R175). -/
theorem configureRef_ok (ch : Channel) (fail rest : State → State) {d : List Bool} {xs : List Reply} {cs : List Bool}
    {u : State} (hdev : u.dev = ⟨d, xs, true :: cs⟩) :
    configureRef ch fail rest u
      = rest { u with dev := ⟨d, xs, cs⟩, trace := u.trace ++ [.configure ch true] } := by
  simp [configureRef, configAnswer, configure, hdev]

/-- The value that a response's last two bytes carry (R79). -/
theorem readValue_bytesOf (x0 x1 : Byte) (v : Half) :
    readValue [x0, x1, v.extractLsb' 8 8, v.extractLsb' 0 8] = v := catBytes_hi_lo v

/-- Settles O33: the pseudocode's one frame is answered Ok. -/
theorem modeCommandsOk : Obligations.ModeCommandsOk := by
  intro s ign d rx xs cs hpolls hlen hdev
  refine ⟨fun ha => ?_, fun ha => ?_, fun b => ?_⟩
  · exact (stopRunsItsBody ign s ha).trans (congrArg _ (regWrRef_ready _ _ _ _ hpolls hlen hdev))
  · exact (exec_startDecode_ref ign ha).trans (congrArg _ (regWrRef_ready _ _ _ _ hpolls hlen hdev))
  · obtain ⟨-, hdecode, hreset⟩ := modeWord_bits s.cfg b
    exact ⟨hreset, hdecode⟩

section
variable {d : List Bool} {xs : List Reply} {cs : List Bool} {u : State}

/-- The readback of INIT finds the default (R220). -/
theorem initVerifyRef_ok {x0 x1 : Byte} (hpolls : 1 ≤ u.cfg.readyPolls) (hverify : u.cfg.verifyOnInit = true)
    (hdev : u.dev = ⟨true :: d,
      .ok [x0, x1, u.cfg.clockDefault.extractLsb' 8 8, u.cfg.clockDefault.extractLsb' 0 8] :: xs, cs⟩) :
    initVerifyRef u = initDoneRef { u with
      csCtrl := false, dev := ⟨d, xs, cs⟩
      trace := u.trace ++ [.ready true, .xfer .ctrl (readFrame u.cfg u.cfg.regClock)
        (.ok [x0, x1, u.cfg.clockDefault.extractLsb' 8 8, u.cfg.clockDefault.extractLsb' 0 8])] } := by
  rw [initVerifyRef, if_pos hverify, regRdRef_ready _ _ _ hpolls rfl hdev, readValue_bytesOf, if_pos rfl]

/-- The three default writes of INIT are answered Ok (R220). -/
theorem initWritesRef_ready {a b c : List Byte} (hpolls : 1 ≤ u.cfg.readyPolls) (hla : a.length = 4)
    (hlb : b.length = 4) (hlc : c.length = 4)
    (hdev : u.dev = ⟨true :: true :: true :: d, .ok a :: .ok b :: .ok c :: xs, cs⟩) :
    initWritesRef u = initVerifyRef { u with
      csCtrl := false, dev := ⟨d, xs, cs⟩
      trace := u.trace ++
        [ .ready true, .xfer .ctrl (writeFrame u.cfg u.cfg.regMode (modeSoftReset u.cfg)) (.ok a),
          .ready true, .xfer .ctrl (writeFrame u.cfg u.cfg.regClock u.cfg.clockDefault) (.ok b),
          .ready true, .xfer .ctrl (writeFrame u.cfg u.cfg.regVolume u.cfg.volDefault) (.ok c) ] } := by
  refine Eq.trans (regWrRef_ready _ _ _ _ hpolls hla hdev) ?_
  refine Eq.trans (regWrRef_ready _ _ _ _ hpolls hlb rfl) ?_
  refine Eq.trans (regWrRef_ready _ _ _ _ hpolls hlc rfl) ?_
  simp only [List.append_assoc, List.cons_append, List.nil_append]

end

/-- Settles O32: every primitive of the pseudocode is answered Ok, and the readback with the default. -/
theorem initOk : Obligations.InitOk := by
  intro s ign d a b c x0 x1 xs cs ha hpolls hverify hla hlb hlc hdev
  have hmode (b : Fin 16) :
      (modeSoftReset s.cfg).getLsbD b = decide (b = s.cfg.bitNewmode ∨ b = s.cfg.bitSoftReset) :=
    have ⟨_, _, hreset⟩ := modeWord_bits s.cfg b
    hreset
  refine ⟨(initRunsItsBody ign s ha).trans (congrArg _ ?_), hmode⟩
  refine Eq.trans (configureRef_ok .ctrl _ _ hdev) ?_
  refine Eq.trans (configureRef_ok .data _ _ rfl) ?_
  refine Eq.trans (initWritesRef_ready hpolls hla hlb hlc rfl) ?_
  refine Eq.trans (initVerifyRef_ok hpolls hverify rfl) ?_
  simp only [initDoneRef, complete, resetPulseRef, delayFor, setResetN, State.emit, accepted, List.append_assoc,
    List.cons_append, List.nil_append]
  rfl

/-! ### STATUS while INIT runs (R221) -/

/-- STATUS[3:0] is BUSY above STATE: the last two fields of the concatenation (R37). -/
theorem statusWord_busy_state (s : State) :
    (statusWord s).extractLsb' 0 4 = (flagBit s.busy ++ s.fsm.bits : BitVec 4) := by
  apply BitVec.eq_of_getLsbD_eq
  intro b hb
  simp only [statusWord, BitVec.getLsbD_extractLsb', BitVec.getLsbD_append, Nat.zero_add, hb, decide_true,
    Bool.true_and]
  split
  · rfl
  · rw [if_pos (by omega)]

/-- Settles O58: BUSY and STATE agree with the command in progress, and a read of STATUS logs its word alone. -/
theorem initReadsReset : Obligations.InitReadsReset := by
  intro s c h hc hop
  have hbusy : s.busy = true := by rw [h.busy_iff, hc]; rfl
  have hfsm : s.fsm = .reset := by simpa [hop, opRuns] using h.runs c hc
  refine ⟨statusWord s, perform_read_offset s (off := offStatus) (by decide) rfl, ?_⟩
  rw [statusWord_busy_state, hbusy, hfsm]
  rfl

end Sys2Proof.Machine
end

section
/-! SUPPORT and the proofs of O20, O21, O34 and O38. START_RECORD and READ_BLOCK against their pseudocode
(spec/44_adpcm_record.md R250, R260), and both on a device that answers. -/

namespace Sys2Proof.Machine

/-! ### START_RECORD against its pseudocode (R250) -/

section
variable {op : Opcode} {rest : List Stmt} {next : State → State} {u : State} (hq : u.quiet = true)
include hq

/-- A register write, where the rest of the Body, which may read ARG0 and ARG1, runs as `next` (R165). -/
theorem run_write_then_args (r : Byte) (v : Half)
    (hrest : ∀ t : State, t.quiet = true → t.cfg = u.cfg → t.arg0 = u.arg0 → t.arg1 = u.arg1 →
      runBody (bodyCost rest) (t.running op rest) = next t) :
    runBody (bodyCost (.frame (.write r v) :: rest)) (u.running op (.frame (.write r v) :: rest))
      = regWrRef r v (finish op .busError 0) next u := by
  rw [bodyCost_cons]
  exact (run_write _ hq op r v rest).trans (regWrRef_congr hq (fun _ _ _ _ _ => rfl) hrest)

/-- A WaitReady of its own, and then the rest of the Body (R250). -/
theorem run_wait_then :
    runBody (bodyCost (.wait :: rest)) (u.running op (.wait :: rest))
      = runBody (bodyCost rest) ((waitReadyRef u.cfg.readyPolls u).running op rest) := by
  rw [bodyCost_cons]
  exact runBody_wait _ hq op rest

end

/-- The writes of the four record-control registers, for the parameters, ARG0 and ARG1 (R250). -/
def recordRegStmts (p : Params) (arg0 arg1 : Word) : List Stmt :=
  [ .frame (.write p.regRecProfile p.recProfileValue), .frame (.write p.regRecRate (rateHalf arg0)),
    .frame (.write p.regRecReserved 0x0000), .frame (.write p.regRecStereo (stereoHalf arg1)) ]

/-- Body(START_RECORD) for a rate in range: the mode word, the wait, the four registers. -/
theorem startRecordBody_rate {s : State} (h : rateOk s.arg0 = true) : startRecordBody s
    = .frame (.write s.cfg.regMode (modeRecord s.cfg)) :: .wait :: recordRegStmts s.cfg s.arg0 s.arg1 := if_pos h

theorem rateOk_iff (sr : Word) : rateOk sr = true ↔ ¬ (sr.toNat < 1 ∨ sr.toNat > 65535) := by
  rw [rateOk, decide_eq_true_iff]
  omega

/-- The writes of the four record-control registers, against their pseudocode. -/
theorem run_recordRegs {u : State} (hq : u.quiet = true) :
    runBody (bodyCost (recordRegStmts u.cfg u.arg0 u.arg1))
        (u.running .startRecord (recordRegStmts u.cfg u.arg0 u.arg1)) = startRecordRegsRef u := by
  refine run_write_then_args hq _ _ fun t ht hcfg harg0 harg1 => ?_
  rw [← hcfg, ← harg0, ← harg1]
  refine run_write_then_args ht _ _ fun v hv hcfg harg0 harg1 => ?_
  rw [← hcfg, ← harg1]
  refine run_write_then_args hv _ _ fun w hw hcfg harg0 harg1 => ?_
  rw [← hcfg, ← harg1]
  exact run_writeAlone .startRecord _ _ hw

/-- Body(START_RECORD): BAD_ARGUMENT for a rate out of range, and otherwise its six statements. -/
theorem run_startRecord {u : State} (hq : u.quiet = true) :
    runBody (bodyCost (startRecordBody u)) (u.running .startRecord (startRecordBody u)) = startRecordRef u := by
  by_cases hrate : u.arg0.toNat < 1 ∨ u.arg0.toNat > 65535
  · rw [startRecordRef, if_pos hrate, startRecordBody, if_neg fun h => (rateOk_iff _).1 h hrate]
    exact runBody_finish 1 hq .startRecord .badArgument 0 []
  · rw [startRecordRef, if_neg hrate, startRecordBody_rate ((rateOk_iff _).2 hrate)]
    refine run_write_then_args hq _ _ fun t ht hcfg harg0 harg1 => ?_
    have hw : (waitReadyRef t.cfg.readyPolls t).quiet = true := by simpa [State.quiet] using ht
    refine (run_wait_then ht).trans ?_
    simpa [hcfg, harg0, harg1] using run_recordRegs hw

/-- Settles O20: the Body's statements are the pseudocode's, one by one. -/
theorem startRecordRunsItsBody : Obligations.StartRecordRunsItsBody := fun ign s ha =>
  (exec_runs rfl ha (u := accepted (cmdWordIgn .startRecord ign) s) rfl rfl).trans
    (congrArg _ (run_startRecord (accepted_quiet _ ha)))

/-! ### READ_BLOCK against its pseudocode (R260) -/

/-- What follows the status read: the drain, which ends at once where no word is available. -/
theorem run_drainBody (avail : Half) (cap : Nat) {u : State} (hq : u.quiet = true) :
    runBody (2 * (cap / 2) + 2) (u.running .readBlock (drainBody avail cap))
      = drainRef (wordCount avail cap) (wordCount avail cap) 0 u := by
  unfold drainBody
  split
  · have hnone : wordCount avail cap = 0 := by simp [wordCount, ‹avail = 0›]
    rw [hnone]
    exact runBody_finish _ hq .readBlock .ok 0 []
  · obtain ⟨f, hf⟩ : ∃ f, 2 * (cap / 2) + 2 = f + 2 * wordCount avail cap + 1 :=
      ⟨2 * (cap / 2) + 1 - 2 * wordCount avail cap, by unfold wordCount; omega⟩
    rw [hf, List.range_eq_range']
    exact run_drain _ _ 0 f hq

/-- The pseudocode of READ_BLOCK without its test for no word available: the loop of R260 then ends at once. -/
theorem readBlockRef_eq (u : State) : readBlockRef u
    = regRdRef u.cfg.regRecWords raiseBusError (fun a t =>
        drainRef (wordCount a (capacity u.cfg u.arg0)) (wordCount a (capacity u.cfg u.arg0)) 0 t) u := by
  unfold readBlockRef
  congr
  funext a t
  split
  · simp [wordCount, ‹a = 0›, drainRef]
  · rfl

/-- Body(READ_BLOCK): the status read, and the drain that its answer asks for. -/
theorem run_readBlock {u : State} (hq : u.quiet = true) :
    runBody (bodyCost (readBlockBody u)) (u.running .readBlock (readBlockBody u)) = readBlockRef u := by
  rw [readBlockRef_eq]
  refine (run_read (2 * (capacity u.cfg u.arg0 / 2) + 1) hq .readBlock (.words (capacity u.cfg u.arg0))
    u.cfg.regRecWords [] rfl rfl).trans ?_
  unfold regRdRef
  cases frameAnswerRef { ch := .ctrl, bytes := readFrame u.cfg u.cfg.regRecWords } u with
  | busErr => rfl
  | ok rx => exact run_drainBody _ _ (frameRef_quiet _ hq)

/-- Settles O21: the Body is the status read, and the drain's statements follow from its answer. -/
theorem readBlockRunsItsBody : Obligations.ReadBlockRunsItsBody := fun ign s ha =>
  (exec_runs rfl ha (u := accepted (cmdWordIgn .readBlock ign) s) rfl rfl).trans
    (congrArg _ (run_readBlock (accepted_quiet _ ha)))

/-! ### START_RECORD on a device that is ready and answers Ok (R250) -/

/-- A wait whose first sample is ready (R161). -/
theorem waitReadyRef_first {d : List Bool} {xs : List Reply} {cs : List Bool} {u : State}
    (hpolls : 1 ≤ u.cfg.readyPolls) (hdev : u.dev = ⟨true :: d, xs, cs⟩) :
    waitReadyRef u.cfg.readyPolls u = { u with dev := ⟨d, xs, cs⟩, trace := u.trace ++ [.ready true] } := by
  rw [waitReadyRef_ready 0 u.cfg.readyPolls d (by omega) (by rw [hdev]; rfl), hdev]
  simp

/-- The four record-control registers are answered Ok (R250). -/
theorem startRecordRegsRef_ready {d : List Bool} {b c e f : List Byte} {xs : List Reply} {cs : List Bool} {u : State}
    (hpolls : 1 ≤ u.cfg.readyPolls) (hlb : b.length = 4) (hlc : c.length = 4) (hle : e.length = 4)
    (hlf : f.length = 4)
    (hdev : u.dev = ⟨true :: true :: true :: true :: d, .ok b :: .ok c :: .ok e :: .ok f :: xs, cs⟩) :
    startRecordRegsRef u = complete .ok 0 { u with
      fsm := .recording, csCtrl := false, dev := ⟨d, xs, cs⟩
      trace := u.trace ++
        [ .ready true, .xfer .ctrl (writeFrame u.cfg u.cfg.regRecProfile u.cfg.recProfileValue) (.ok b),
          .ready true, .xfer .ctrl (writeFrame u.cfg u.cfg.regRecRate (rateHalf u.arg0)) (.ok c),
          .ready true, .xfer .ctrl (writeFrame u.cfg u.cfg.regRecReserved 0x0000) (.ok e),
          .ready true, .xfer .ctrl (writeFrame u.cfg u.cfg.regRecStereo (stereoHalf u.arg1)) (.ok f) ] } := by
  refine Eq.trans (regWrRef_ready _ _ _ _ hpolls hlb hdev) ?_
  refine Eq.trans (regWrRef_ready _ _ _ _ hpolls hlc rfl) ?_
  refine Eq.trans (regWrRef_ready _ _ _ _ hpolls hle rfl) ?_
  refine Eq.trans (regWrRef_ready _ _ _ _ hpolls hlf rfl) ?_
  simp only [List.append_assoc, List.cons_append, List.nil_append]

/-- A byte of the rate's low half is that byte of the rate. -/
theorem rateHalf_byte (sr : Word) {off : Nat} (h : off + 8 ≤ 16) :
    (rateHalf sr).extractLsb' off 8 = sr.extractLsb' off 8 := by
  apply BitVec.eq_of_getLsbD_eq
  intro i hi
  have hin : off + i < 16 := by omega
  simp [rateHalf, hi, hin]

/-- The bytes of the rate register are those of ARG0's low half (R250). -/
theorem writeFrame_rate (p : Params) (r : Byte) (sr : Word) :
    writeFrame p r (rateHalf sr) = [p.writeOp, r, sr.extractLsb' 8 8, sr.extractLsb' 0 8] := by
  rw [writeFrame, hiByte, loByte, rateHalf_byte sr (by decide), rateHalf_byte sr (by decide)]

/-- The bytes of the stereo register: 0x0001 where ARG1[0] is set, and 0x0000 else (R250). -/
theorem writeFrame_stereo (p : Params) (r : Byte) (arg1 : Word) :
    writeFrame p r (stereoHalf arg1) = [p.writeOp, r, 0x00, if arg1.getLsbD 0 then 0x01 else 0x00] := by
  have hbit : arg1.extractLsb' 0 1 = if arg1.getLsbD 0 then 1 else 0 := by
    apply BitVec.eq_of_getLsbD_eq
    intro i hi
    obtain rfl : i = 0 := by omega
    rw [BitVec.getLsbD_extractLsb', Nat.add_zero]
    cases arg1.getLsbD 0 <;> rfl
  rw [writeFrame, stereoHalf, hbit]
  split <;> rfl

/-- Settles O34: every primitive of the pseudocode is answered Ok. -/
theorem startRecordOk : Obligations.StartRecordOk := by
  intro s ign d a b c e f xs cs ha hpolls hlow hhigh hla hlb hlc hle hlf hdev
  have hrate : ¬ (s.arg0.toNat < 1 ∨ s.arg0.toNat > 65535) := by omega
  refine ⟨(startRecordRunsItsBody ign s ha).trans (congrArg _ ?_), fun b => (modeWord_bits s.cfg b).1⟩
  refine Eq.trans (if_neg hrate) ?_
  refine Eq.trans (regWrRef_ready _ _ _ _ hpolls hla hdev) ?_
  refine Eq.trans (congrArg startRecordRegsRef (waitReadyRef_first hpolls rfl)) ?_
  refine Eq.trans (startRecordRegsRef_ready hpolls hlb hlc hle hlf rfl) ?_
  simp only [writeFrame_rate, writeFrame_stereo, complete, accepted, List.append_assoc, List.cons_append,
    List.nil_append]
  rfl

/-! ### READ_BLOCK where every answer is Ok (R260, R80) -/

/-- A register read that is answered Ok goes on with the value read, whatever DREQ does (R166). -/
theorem regRdRef_answered (r : Byte) (fail : State → State) (rest : Half → State → State) {rx : List Byte}
    {xs : List Reply} {u : State} (hlen : rx.length = 4) (hxfers : u.dev.xfers = .ok rx :: xs) :
    regRdRef r fail rest u = rest (readValue rx) (frameRef ⟨.ctrl, readFrame u.cfg r⟩ u) := by
  have hanswer : frameAnswerRef ⟨.ctrl, readFrame u.cfg r⟩ u = .ok rx := frameAnswerRef_ok hxfers hlen
  rw [regRdRef, hanswer]

/-- A drain has read the words ws, each answered Ok: it ends OK, and the answers left are xs. -/
structure DrainAnswered (ws : List (List Byte)) (xs : List Reply) (u t : State) : Prop where
  code : t.code = .ok
  left : t.dev.xfers = xs
  trace : ∃ ev, t.trace = u.trace ++ ev ∧ okAnswers ev = ws

theorem drainRef_answered (n k : Nat) {ws : List (List Byte)} {xs : List Reply} {u : State}
    (hlen : ∀ w ∈ ws, w.length = 4) (hxfers : u.dev.xfers = ws.map .ok ++ xs) :
    DrainAnswered ws xs u (drainRef n ws.length k u) := by
  induction ws generalizing k u with
  | nil => exact ⟨rfl, hxfers, [], (List.append_nil _).symm, rfl⟩
  | cons w ws ih =>
    obtain ⟨hw, hws⟩ := List.forall_mem_cons.1 hlen
    rw [List.map_cons, List.cons_append] at hxfers
    obtain ⟨wait, htrace, hwait⟩ := frameRef_events ⟨.ctrl, readFrame u.cfg u.cfg.regRecData⟩ u
    rw [frameAnswerRef_ok (t := ⟨.ctrl, readFrame u.cfg u.cfg.regRecData⟩) hxfers hw] at htrace
    have hleft : (frameRef ⟨.ctrl, readFrame u.cfg u.cfg.regRecData⟩ u).dev.xfers = ws.map .ok ++ xs := by
      rw [frameRef_xfers, hxfers, List.tail_cons]
    rw [List.length_cons, drainRef, regRdRef_answered _ _ _ hw hxfers]
    obtain ⟨hcode, hxs, ev, hev, hanswers⟩ :=
      ih (k + 1) (u := storeWord k (readValue w) (frameRef ⟨.ctrl, readFrame u.cfg u.cfg.regRecData⟩ u)) hws hleft
    refine ⟨hcode, hxs, _, by rw [hev, storeWord_trace, htrace, List.append_assoc], ?_⟩
    obtain ⟨-, -, hnone⟩ := waits_sends hwait
    rw [okAnswers_append, okAnswers_append, hnone, hanswers]
    rfl

/-- The words that a drain of answered reads has stored are those of the answers. -/
theorem DrainAnswered.run {ws : List (List Byte)} {xs : List Reply} {n m k : Nat} {u : State}
    (h : DrainAnswered ws xs u (drainRef n m k u)) : ∃ ev, DrainRun n m k u (drainRef n m k u) ws ev := by
  obtain ⟨ev, htrace, hanswers⟩ := h.trace
  obtain ⟨ws', ev', hrun⟩ := drainRef_run n m k u
  obtain rfl : ev' = ev := List.append_cancel_left (hrun.trace.symm.trans htrace)
  obtain rfl : ws' = ws := hrun.answers.symm.trans hanswers
  exact ⟨ev', hrun⟩

/-- READ_BLOCK with the count and every word answered Ok: from a state v that differs from u in nothing that a drain
writes, it drains the words ws. -/
theorem readBlockRef_answered {rx : List Byte} {ws : List (List Byte)} {xs : List Reply} {u : State}
    (hrx : rx.length = 4) (hlen : ∀ w ∈ ws, w.length = 4) (hxfers : u.dev.xfers = .ok rx :: (ws.map .ok ++ xs))
    (hcount : ws.length = wordCount (readValue rx) (capacity u.cfg u.arg0)) :
    ∃ v ev, Kept u v ∧ v.buf = u.buf ∧ DrainAnswered ws xs v (readBlockRef u)
      ∧ DrainRun ws.length ws.length 0 v (readBlockRef u) ws ev := by
  rw [readBlockRef_eq, regRdRef_answered _ _ _ hrx hxfers, ← hcount]
  have hanswered := drainRef_answered ws.length 0 (u := frameRef ⟨.ctrl, readFrame u.cfg u.cfg.regRecWords⟩ u) hlen
    ((frameRef_xfers _ u).trans (congrArg List.tail hxfers))
  obtain ⟨ev, hrun⟩ := hanswered.run
  exact ⟨_, ev, frameRef_kept _ u, by simp [frameRef], hanswered, hrun⟩

/-- Settles O38: the status read is answered with the count, and then the drain reads and stores the n words. -/
theorem readBlockStores : Obligations.ReadBlockStores := by
  intro s ign x0 x1 a1 a0 ws xs n ha hn hsize hws hlen hxfers
  subst hws
  obtain ⟨v, ev, hkept, hbuf, hanswered, hrun⟩ := readBlockRef_answered (rx := [x0, x1, a1, a0])
    (u := accepted (ign ++ (0x06 : Byte)) s) rfl hlen hxfers hn
  obtain ⟨-, -, -, hallowed, -⟩ := allowedTable.1 s.fsm s.hdr
  have hfsm : v.fsm = .recording := hkept.fsm.trans (hallowed.1 ha.allow)
  refine ⟨_, readBlockRunsItsBody ign s ha, hanswered.code, ?_, hrun.busy, hrun.kept.fsm.trans hfsm, hanswered.left,
    fun k w hk => ?_, fun j hj => ?_⟩
  · rcases hrun.ends with ⟨-, hresult, -⟩ | ⟨herr, -⟩
    · rw [hresult, BitVec.toNat_ofNat]
      omega
    · cases hanswered.code.symm.trans herr
  · obtain ⟨-, hhi, hlo⟩ := hrun.stored k w hk
    rw [Nat.zero_add] at hhi hlo
    exact ⟨hhi, hlo⟩
  · rw [hrun.rest j (.inr (by omega)), hbuf]
    rfl

end Sys2Proof.Machine
end

section
/-! SUPPORT and the proof of O39. The statements of a Body in progress, and that a READ_BLOCK stays within its capacity
whatever lands meanwhile (spec/44_adpcm_record.md R261). -/

namespace Sys2Proof.Machine

/-! ### The statements of a Body in progress -/

/-- Every statement of the command in progress, if there is one, has the property. -/
def BodyAll (Q : Stmt → Prop) (s : State) : Prop := ∀ c, s.cur = some c → ∀ st ∈ c.body, Q st

theorem bodyAll_of_cur {Q : Stmt → Prop} {s : State} {c : Cursor} (hc : s.cur = some c) (h : ∀ st ∈ c.body, Q st) :
    BodyAll Q s := by
  intro d hd
  obtain rfl : c = d := Option.some.inj (hc.symm.trans hd)
  exact h

section
variable {Q : Stmt → Prop} (hfinish : ∀ code r, Q (.finish code r))
  (hwords : ∀ avail cap, Q (.frame (.words cap)) → ∀ st ∈ drainBody avail cap, Q st)
include hfinish

theorem forall_mem_finish (code : ResultCode) (r : Word) : ∀ st ∈ [Stmt.finish code r], Q st :=
  List.forall_mem_singleton.2 (hfinish code r)

include hwords

theorem bodyAfter_forall {j : Job} {rest : List Stmt} (p : Params) (rx : List Byte) (hj : Q (.frame j))
    (hrest : ∀ st ∈ rest, Q st) : ∀ st ∈ bodyAfter p j rx rest, Q st := by
  cases j with
  | words cap => exact hwords _ cap hj
  | verify =>
    simp only [bodyAfter]
    split
    exacts [hrest, forall_mem_finish hfinish _ _]
  | read r => exact forall_mem_finish hfinish _ _
  | write r v | word k | chunk src off n => exact hrest

theorem takeAnswer_bodyAll {op : Opcode} {j : Job} {r : Ret} {rest : List Stmt} {s : State} (hj : Q (.frame j))
    (hrest : ∀ st ∈ rest, Q st) : BodyAll Q (takeAnswer op j r rest s) := by
  cases r with
  | reply a =>
    cases a with
    | busErr => exact bodyAll_of_cur rfl (forall_mem_finish hfinish _ _)
    | ok rx => exact bodyAll_of_cur rfl (bodyAfter_forall hfinish hwords _ _ hj hrest)
  | ready | timeout => exact bodyAll_of_cur rfl hrest

/-- A property of statements that every completion has, and that a drain's statements take from its status read, is
kept by every advance: the other statements that a Body goes on with are its own. -/
theorem BodyAll.advance {s : State} {c : Cursor} (h : BodyAll Q s) (hc : s.cur = some c) : BodyAll Q (advance s) := by
  apply advance_cases (Q := BodyAll Q) s c hc
  · exact fun _ _ => bodyAll_of_cur ((finishCall_cur s).trans hc) (h c hc)
  · exact fun _ _ => by rintro d ⟨⟩
  · intro _ st rest hb
    obtain ⟨hst, hrest⟩ := List.forall_mem_cons.1 (hb ▸ h c hc)
    cases st with
    | configure ch =>
      refine bodyAll_of_cur (setBody_cur ..) ?_
      split
      exacts [hrest, forall_mem_finish hfinish _ _]
    | resetN v | delay n => exact bodyAll_of_cur (setBody_cur ..) hrest
    | wait =>
      simp only [advanceStmt]
      split
      · exact bodyAll_of_cur ((transact_cur ..).trans hc) (h c hc)
      · exact bodyAll_of_cur (setBody_cur ..) hrest
    | frame j =>
      simp only [advanceStmt]
      split
      · exact bodyAll_of_cur (((transact_cur ..).trans (Job.load_cur ..)).trans hc) (h c hc)
      · exact takeAnswer_bodyAll hfinish hwords hst hrest
    | finish code r => rintro d ⟨⟩

end

/-! ### A drain stays within its capacity, whatever lands meanwhile (R261) -/

/-- A statement of a READ_BLOCK whose capacity is cap: its status read carries cap, and each word lies within it. -/
def stmtWithin (cap : Nat) : Stmt → Prop
  | .frame (.words n) => n = cap
  | .frame (.word k) => 2 * k + 1 < 2 * (cap / 2)
  | _ => True

theorem drainBody_within (avail : Half) (cap : Nat) : ∀ st ∈ drainBody avail cap, stmtWithin cap st := by
  unfold drainBody
  split
  · exact List.forall_mem_singleton.2 trivial
  · refine List.forall_mem_append.2 ⟨List.forall_mem_map.2 fun k hk => ?_, List.forall_mem_singleton.2 trivial⟩
    rw [List.mem_range, wordCount] at hk
    show 2 * k + 1 < 2 * (cap / 2)
    omega

/-- A READ_BLOCK that had come to s has come to t, within its capacity: the parameters and ARG0 are the same, a command
still in progress is READ_BLOCK with nothing left to do beyond the capacity, and BUF from there on is as in s (R261). -/
structure DrainKept (s t : State) : Prop where
  cfg : t.cfg = s.cfg
  arg0 : t.arg0 = s.arg0
  op : ∀ c, t.cur = some c → c.op = .readBlock
  body : BodyAll (stmtWithin (capacity s.cfg s.arg0)) t
  buf : ∀ j, 2 * (capacity s.cfg s.arg0 / 2) ≤ j → t.buf.read? j = s.buf.read? j

/-- The bound reads the parameters, ARG0, the command in progress and BUF alone. -/
theorem DrainKept.of_same {s t u : State} (h : DrainKept s t) (hcfg : u.cfg = t.cfg) (harg0 : u.arg0 = t.arg0)
    (hcur : u.cur = t.cur) (hbuf : u.buf = t.buf) : DrainKept s u where
  cfg := hcfg.trans h.cfg
  arg0 := harg0.trans h.arg0
  op c hc := h.op c (hcur ▸ hc)
  body c hc := h.body c (hcur ▸ hc)
  buf := hbuf ▸ h.buf

/-- An advance stores within the capacity. -/
theorem DrainKept.advance {s t : State} {c : Cursor} (h : DrainKept s t) (hc : t.cur = some c) :
    DrainKept s (advance t) where
  cfg := (advance_cfg t).trans h.cfg
  arg0 := (advance_arg0 t).trans h.arg0
  op d hd := (advance_op t c hc d hd).trans (h.op c hc)
  body := h.body.advance (fun _ _ => trivial) (fun avail cap hcap => hcap ▸ drainBody_within avail cap) hc
  buf j hj := by
    rw [← h.buf j hj]
    rcases advance_buf_or_store hc with hbuf | ⟨k, w, hk, hbuf⟩
    · rw [hbuf]
    · have hin : 2 * k + 1 < 2 * (capacity s.cfg s.arg0 / 2) := h.body c hc _ hk
      rw [hbuf, storeWord_buf, Memory.read?_write_other _ _ (by omega), Memory.read?_write_other _ _ (by omega)]

theorem DrainKept.drainBounded {s t : State} (h : DrainKept s t) : DrainBounded t := by
  intro c hc _
  rw [h.cfg, h.arg0]
  exact ⟨fun cap hcap => h.body c hc _ hcap, fun k hk => h.body c hc _ hk⟩

theorem DrainBounded.drainKept {s : State} {c : Cursor} (h : DrainBounded s) (hc : s.cur = some c)
    (hop : c.op = .readBlock) : DrainKept s s := by
  obtain ⟨hwords, hword⟩ := h c hc hop
  refine ⟨rfl, rfl, fun d hd => ?_, bodyAll_of_cur hc fun st hst => ?_, fun _ _ => rfl⟩
  · obtain rfl : c = d := Option.some.inj (hc.symm.trans hd)
    exact hop
  · unfold stmtWithin
    split
    exacts [hwords _ hst, hword _ hst, trivial]

/-- A launched READ_BLOCK stays within its capacity up to where its run stops. -/
theorem exec_readBlock_drainKept {s t : State} {ign : BitVec 24} (hb : s.busy = false)
    (hx : exec (.readBlock ign) s = .next t) : DrainKept s t := by
  refine exec_keeps (P := DrainKept s) rfl hx (fun h => by simp [hb] at h) (fun _ _ => ?_) (fun _ _ => ?_)
    fun _ _ h hc => h.advance hc
  · exact ⟨rfl, rfl, by rintro c ⟨⟩, by rintro c ⟨⟩, fun _ _ => rfl⟩
  · exact ⟨rfl, rfl, by rintro c ⟨⟩; rfl, bodyAll_of_cur rfl (List.forall_mem_singleton.2 rfl), fun _ _ => rfl⟩

/-- While a command runs, an input other than a controller reset keeps a property that a read, the host program
stopped, an ignored write and a write to STATUS keep. -/
theorem perform_busy_keeps {P : State → Prop} (hinputs : ∀ u l, P u → P { u with inputs := l })
    (hread : ∀ u addr, P u → P (hostRead addr u)) (hstopped : ∀ u, P u → P (stopProgram u))
    (hignored : ∀ u, P u → P (ignoredWrite u)) (hstatus : ∀ u v, P u → P (clearFlags v u)) {i : Input} {s t : State}
    (hb : s.busy = true) (hi : i ≠ .reset) (hx : perform i s = .next t) (hs : P s) : P t := by
  cases i with
  | read addr width =>
    obtain ⟨-, -, hx⟩ := guardAccess_next (act := fun s => .next (hostRead addr s)) hx
    exact Host.Outcome.next.inj hx ▸ hread s addr hs
  | write addr width v =>
    obtain ⟨-, -, hx⟩ := guardAccess_next (act := writeReg (windowReg s.cfg (addr - s.cfg.base)) v) hx
    rcases writeReg_busy hb hx with rfl | rfl | rfl
    exacts [hignored s hs, hstatus s v hs, hs]
  | waitIdle gaps =>
    refine Host.Outcome.next.inj hx ▸ ?_
    unfold pollStatus
    split
    exacts [hinputs _ _ (hread s _ hs), hread s _ hs]
  | check addr mask val =>
    simp only [perform] at hx
    obtain ⟨-, -, hx⟩ := guardAccess_next hx
    refine Host.Outcome.next.inj hx ▸ ?_
    split
    exacts [hread s addr hs, hstopped _ (hread s addr hs)]
  | reset => exact absurd rfl hi

/-- A step of a READ_BLOCK in progress stays within its capacity: it advances, or takes an input that leaves it. -/
theorem step_drainKept {s t : State} {c : Cursor} (hinv : ControlInv s) (h : DrainKept s s) (hc : s.cur = some c)
    (hreset : ¬ resetLands s) (hx : step s = .next t) : DrainKept s t := by
  have hb : s.busy = true := by rw [hinv.busy_iff, hc]; rfl
  rcases step_cases hx with ⟨-, rfl⟩ | ⟨d, hd, rfl⟩ | ⟨w, i, rest, hin, hturn, hp⟩
  · exact h
  · exact h.advance hd
  · have hi : i ≠ .reset := by
      rintro rfl
      exact hreset ⟨⟨w, rest, hin⟩, hturn⟩
    exact perform_busy_keeps (fun _ _ h => h.of_same rfl rfl rfl rfl)
      (fun _ _ h => h.of_same (by simp) (by simp) (by simp) (by simp)) (fun _ h => h.of_same rfl rfl rfl rfl)
      (fun _ h => h.of_same rfl rfl rfl rfl) (fun _ _ h => h.of_same rfl rfl rfl rfl)
      (s := { s with inputs := rest }) hb hi hp (h.of_same rfl rfl rfl rfl)

/-- Settles O39: a drain's statements lie within the capacity from the launch on, and only they write BUF. -/
theorem readBlockWithinCapacity : Obligations.ReadBlockWithinCapacity := by
  refine ⟨fun s t ign hb hx => ?_, fun s t c hinv hdrain hc hop hreset hx => ?_⟩
  · have h := exec_readBlock_drainKept hb hx
    exact ⟨h.drainBounded, h.buf⟩
  · have h := step_drainKept hinv (hdrain.drainKept hc hop) hc hreset hx
    exact ⟨h.drainBounded, h.buf⟩

end Sys2Proof.Machine
end

section
/-! SUPPORT and the proofs of O22, O23, O24, O35 and O45. START_DECODE, EMIT_HEADER and WRITE_BLOCK against their
pseudocode (spec/45_adpcm_decode.md R280, R285, R290), EMIT_HEADER on a device that answers, and the fields of the
bootstrap header (R284, R286). -/

namespace Sys2Proof.Machine

/-! ### START_DECODE, EMIT_HEADER and WRITE_BLOCK against their pseudocode -/

/-- Settles O22: the Body is one register write. -/
theorem startDecodeRunsItsBody : Obligations.StartDecodeRunsItsBody := fun ign _ ha => exec_startDecode_ref ign ha

/-- EMIT_HEADER's arguments are in range where its pseudocode does not raise BAD_ARGUMENT (R285). -/
theorem headerArgsOk_iff (s : State) : headerArgsOk s = true ↔
    ¬ (s.arg0.toNat < 1 ∨ s.arg0.toNat > 65535 ∨ ¬ (channelsByte s.arg1 = 1 ∨ channelsByte s.arg1 = 2)) := by
  rw [headerArgsOk, Bool.and_eq_true, rateOk_iff, channelsOk, decide_eq_true_iff]
  tauto

theorem emitHeaderBody_at' (u : State) (c : Option Cursor) (k : Option Call) (r : Option Ret) :
    emitHeaderBody (u.at' c k r) = emitHeaderBody u := rfl

theorem emitHeaderEnter_quiet {u : State} (hq : u.quiet = true) : (emitHeaderEnter u).quiet = true := by
  rwa [State.quiet, emitHeaderEnter_inputs]

/-- Body(EMIT_HEADER): BAD_ARGUMENT for a rate or a channel count out of range, and otherwise BuildHeader and one
SendData of HDRBUF (R285). -/
theorem run_emitHeader {u : State} (hq : u.quiet = true) :
    runBody (bodyCost (emitHeaderBody (emitHeaderEnter u)))
        ((emitHeaderEnter u).running .emitHeader (emitHeaderBody (emitHeaderEnter u))) = emitHeaderRef u := by
  have henter := emitHeaderEnter_quiet hq
  unfold emitHeaderBody
  rw [headerArgsOk_enter]
  by_cases hargs : headerArgsOk u = true
  · rw [if_pos hargs, run_sendData _ _ _ henter, emitHeaderRef, if_neg ((headerArgsOk_iff u).1 hargs), emitHeaderEnter,
      if_pos hargs]
    rfl
  · rw [if_neg hargs, emitHeaderRef, if_pos (not_not.1 fun h => hargs ((headerArgsOk_iff u).2 h)), emitHeaderEnter,
      if_neg hargs]
    exact runBody_finish 1 hq .emitHeader .badArgument 0 []

/-- Settles O23: the Body is BuildHeader and one SendData of HDRBUF, after its argument check. -/
theorem emitHeaderRunsItsBody : Obligations.EmitHeaderRunsItsBody := fun ign s ha =>
  (exec_runs rfl ha (u := emitHeaderEnter (accepted (cmdWordIgn .emitHeader ign) s)) (emitHeaderEnter_at' _ _ _ _)
    (emitHeaderBody_at' _ _ _ _)).trans (congrArg _ (run_emitHeader (accepted_quiet _ ha)))

/-- Body(WRITE_BLOCK): HEADER_REQUIRED where HDR = 0, and otherwise one SendData of BUF (R290). -/
theorem run_writeBlock {u : State} (hq : u.quiet = true) :
    runBody (bodyCost (writeBlockBody u)) (u.running .writeBlock (writeBlockBody u)) = writeBlockRef u := by
  unfold writeBlockBody writeBlockRef
  cases u.hdr with
  | false => exact runBody_finish 1 hq .writeBlock .headerRequired 0 []
  | true => exact run_sendData .writeBlock .buf u.cfg.blockSize hq

/-- Settles O24: the Body is one SendData of BUF, after its check of HDR. -/
theorem writeBlockRunsItsBody : Obligations.WriteBlockRunsItsBody := fun ign s ha =>
  (exec_runs rfl ha (u := accepted (cmdWordIgn .writeBlock ign) s) rfl rfl).trans
    (congrArg _ (run_writeBlock (accepted_quiet _ ha)))

/-! ### EMIT_HEADER on a device that is ready and answers Ok (R170, R285) -/

/-- A part of a run of bytes just written is read back. -/
theorem Memory.readAll_writeAll_part (m : Memory) {a n : Nat} (d : Nat) {vs : List Byte} (h : a + n ≤ vs.length) :
    (m.writeAll 0 vs).readAll a d n = ((vs.drop a).take n, d) := by
  have hlen : ((vs.drop a).take n).length = n := by
    rw [List.length_take, List.length_drop]
    omega
  have hread := Memory.readAll_written (m := m.writeAll 0 vs) (a := a) (vs := (vs.drop a).take n) d fun i hi => by
    rw [Memory.read?_writeAll, if_pos (by omega), List.getElem?_take_of_lt (by omega), List.getElem?_drop, Nat.sub_zero]
  rwa [hlen] at hread

/-- A chunk whose bytes are all written and that is answered Ok: SendData goes on with the next one (R170). -/
theorem sendDataRef_ready {src : Source} {len m c : Nat} {bytes rx : List Byte} (fail rest : State → State)
    {d : List Bool} {xs : List Reply} {cs : List Bool} {u : State} (hpolls : 1 ≤ u.cfg.readyPolls)
    (hread : (u.source src).readAll (chunkMax * c) u.draws (min chunkMax (len - chunkMax * c)) = (bytes, u.draws))
    (hlen : rx.length = bytes.length) (hdev : u.dev = ⟨true :: d, .ok rx :: xs, cs⟩) :
    sendDataRef src len fail rest (m + 1) c u = sendDataRef src len fail rest m (c + 1) { u with
      csData := false, dev := ⟨d, xs, cs⟩, trace := u.trace ++ [.ready true, .xfer .data bytes (.ok rx)] } := by
  have hload : (Job.chunk src (chunkMax * c) (min chunkMax (len - chunkMax * c))).load u = u := by
    rw [Job.load, hread]
  obtain ⟨hanswer, hframe⟩ := frameRef_ready ⟨.data, bytes⟩ hpolls hlen hdev
  simp only [sendDataRef, chunkTransaction, chunkBytes, hload, hread, hanswer, hframe, setSelect]

/-- EMIT_HEADER's two chunks are answered Ok (R171, R285). -/
theorem sendHeader_ready {h a b : List Byte} (fail rest : State → State) {d : List Bool} {xs : List Reply}
    {cs : List Bool} {u : State} {m : Memory} (hpolls : 1 ≤ u.cfg.readyPolls) (hbuf : u.hdrbuf = m.writeAll 0 h)
    (hlen : h.length = 48) (hla : a.length = 32) (hlb : b.length = 16)
    (hdev : u.dev = ⟨true :: true :: d, .ok a :: .ok b :: xs, cs⟩) :
    sendDataRef .hdrbuf hdrLen fail rest (chunkCount hdrLen) 0 u = rest { u with
      csData := false, dev := ⟨d, xs, cs⟩
      trace := u.trace ++ [.ready true, .xfer .data (h.take 32) (.ok a), .ready true, .xfer .data (h.drop 32) (.ok b)] }
    := by
  have hfirst : u.hdrbuf.readAll 0 u.draws 32 = (h.take 32, u.draws) :=
    hbuf ▸ Memory.readAll_writeAll_part m u.draws (by omega)
  have hlast : u.hdrbuf.readAll 32 u.draws 16 = (h.drop 32, u.draws) := by
    rw [hbuf, Memory.readAll_writeAll_part m u.draws (by omega), List.take_of_length_le]
    rw [List.length_drop]
    omega
  refine Eq.trans (sendDataRef_ready _ _ hpolls hfirst ?_ hdev) ?_
  · rw [hla, List.length_take]
    omega
  refine Eq.trans (sendDataRef_ready _ _ hpolls hlast ?_ rfl) ?_
  · rw [hlb, List.length_drop]
    omega
  simp only [sendDataRef, List.append_assoc, List.cons_append, List.nil_append]

/-- BuildHeader fills HDRBUF[0..47] with the header (R284). -/
theorem buildHeader_read? (sr : Word) (ch : Byte) (s : State) {j : Nat} (hj : j < 48) :
    (buildHeader sr ch s).hdrbuf.read? j = (headerBytes s.cfg sr ch)[j]? := by
  rw [buildHeader_hdrbuf, Memory.read?_writeAll, if_pos ⟨Nat.zero_le j, by rwa [headerBytes_length, Nat.zero_add]⟩,
    Nat.sub_zero]

/-- EMIT_HEADER with its arguments in range and its two chunks answered Ok (R285). -/
theorem emitHeaderRef_ready {a b : List Byte} {d : List Bool} {xs : List Reply} {cs : List Bool} {u : State}
    (hargs : headerArgsOk u = true) (hpolls : 1 ≤ u.cfg.readyPolls) (hla : a.length = 32) (hlb : b.length = 16)
    (hdev : u.dev = ⟨true :: true :: d, .ok a :: .ok b :: xs, cs⟩) :
    emitHeaderRef u = complete .ok 0 { u with
      hdr := true, csData := false, dev := ⟨d, xs, cs⟩
      hdrbuf := u.hdrbuf.writeAll 0 (headerBytes u.cfg u.arg0 (channelsByte u.arg1))
      trace := u.trace ++
        [ .ready true, .xfer .data ((headerBytes u.cfg u.arg0 (channelsByte u.arg1)).take 32) (.ok a),
          .ready true, .xfer .data ((headerBytes u.cfg u.arg0 (channelsByte u.arg1)).drop 32) (.ok b) ] } := by
  rw [emitHeaderRef, if_neg ((headerArgsOk_iff u).1 hargs), buildHeader]
  -- HDRBUF as a variable: unification must not write the 48 bytes out.
  generalize hbuf : u.hdrbuf.writeAll 0 (headerBytes u.cfg u.arg0 (channelsByte u.arg1)) = m
  exact sendHeader_ready (u := { u with hdrbuf := m }) _ _ hpolls hbuf.symm (headerBytes_length ..) hla hlb hdev

/-- Settles O35: HDRBUF is filled before the first chunk, and both chunks are answered Ok. -/
theorem emitHeaderOk : Obligations.EmitHeaderOk := by
  intro s ign d a b xs cs ha hpolls hlow hhigh hch hla hlb hdev
  refine ⟨_, fun j hj => buildHeader_read? _ _ s hj, (emitHeaderRunsItsBody ign s ha).trans (congrArg _ ?_)⟩
  exact emitHeaderRef_ready (headerArgsOk_true hlow hhigh hch) hpolls hla hlb hdev

/-! ### The fields of the header (R284, R286) -/

/-- A 32-bit field is read back from the bytes that its place holds (R81). -/
theorem wordOfBytes_le32 (v : Word) (bs : List Byte) : wordOfBytes (le32 v ++ bs) = v := by
  show v.extractLsb' 24 8 ++ v.extractLsb' 16 8 ++ v.extractLsb' 8 8 ++ v.extractLsb' 0 8 = v
  rw [BitVec.extractLsb'_append_extractLsb'_eq_extractLsb' (start₂ := 24) (start₁ := 16) rfl,
    BitVec.extractLsb'_append_extractLsb'_eq_extractLsb' (start₂ := 16) (start₁ := 8) rfl,
    BitVec.extractLsb'_append_extractLsb'_eq_extractLsb' (start₂ := 8) (start₁ := 0) rfl]
  exact BitVec.extractLsb'_eq_self

section
variable (p : Params) (sr : Word) (ch : Byte)

/-- The fixed bytes of the header (R284). -/
theorem headerBytes_fixed :
    (headerBytes p sr ch).take 4 = [0x52, 0x49, 0x46, 0x46]
      ∧ ((headerBytes p sr ch).drop 8).take 12
        = [0x57, 0x41, 0x56, 0x45, 0x66, 0x6D, 0x74, 0x20, 0x14, 0x00, 0x00, 0x00]
      ∧ ((headerBytes p sr ch).drop 40).take 4 = [0x64, 0x61, 0x74, 0x61]
      ∧ ((headerBytes p sr ch).drop 36).take 2 = [0x02, 0x00] := by
  simp only [headerBytes, le32, le16, List.cons_append, List.nil_append, List.drop_succ_cons, List.drop_zero,
    List.take_succ_cons, List.take_zero, true_and]
  exact ⟨rfl, rfl⟩

/-- The 32-bit fields of the header (R284). -/
theorem headerBytes_words :
    wordOfBytes ((headerBytes p sr ch).drop 4) = p.lenMarker
      ∧ wordOfBytes ((headerBytes p sr ch).drop 44) = p.lenMarker
      ∧ wordOfBytes ((headerBytes p sr ch).drop 24) = sr
      ∧ wordOfBytes ((headerBytes p sr ch).drop 28) = BitVec.ofNat 32 (byteRate p sr ch) := by
  simp only [headerBytes, le32, le16, List.cons_append, List.nil_append, List.drop_succ_cons, List.drop_zero]
  exact ⟨wordOfBytes_le32 _ _, wordOfBytes_le32 _ [], wordOfBytes_le32 _ _, wordOfBytes_le32 _ _⟩

/-- The 16-bit fields of the header (R284). -/
theorem headerBytes_halves :
    ((headerBytes p sr ch).getD 21 0 ++ (headerBytes p sr ch).getD 20 0 : Half) = p.formatTag
      ∧ ((headerBytes p sr ch).getD 23 0 ++ (headerBytes p sr ch).getD 22 0 : Half) = ch.zeroExtend 16
      ∧ ((headerBytes p sr ch).getD 33 0 ++ (headerBytes p sr ch).getD 32 0 : Half) = BitVec.ofNat 16 p.blockSize
      ∧ ((headerBytes p sr ch).getD 35 0 ++ (headerBytes p sr ch).getD 34 0 : Half) = p.bitsPerSample
      ∧ ((headerBytes p sr ch).getD 39 0 ++ (headerBytes p sr ch).getD 38 0 : Half) = p.samplesPerBlock := by
  simp only [headerBytes, le32, le16, List.cons_append, List.nil_append, List.getD_cons_succ, List.getD_cons_zero]
  exact ⟨catBytes_hi_lo _, catBytes_hi_lo _, catBytes_hi_lo _, catBytes_hi_lo _, catBytes_hi_lo _⟩

end

/-- The byte rate of a valid rate and channel count fits its field (R286). -/
theorem byteRate_lt {p : Params} {sr : Word} {ch : Byte} (hsr : sr.toNat ≤ 65535) (hch : ch = 1 ∨ ch = 2)
    (hbits : p.bitsPerSample.toNat ≤ 16) : byteRate p sr ch < 2 ^ 32 := by
  have hchan : ch.toNat ≤ 2 := by rcases hch with rfl | rfl <;> decide
  calc byteRate p sr ch ≤ 65535 * 2 * 16 / 8 :=
        Nat.div_le_div_right (Nat.mul_le_mul (Nat.mul_le_mul hsr hchan) hbits)
    _ < 2 ^ 32 := by decide

/-- Settles O45: HDRBUF holds the header's bytes, and the values of its fields fit them. -/
theorem headerFields : Obligations.HeaderFields := by
  intro s sr ch hwf _ hsr hch
  obtain ⟨-, -, -, -, -, -, hbuf, -, hblock, -, hbits, -⟩ := hwf
  obtain ⟨hriff, hwave, hdata, htwo⟩ := headerBytes_fixed s.cfg sr ch
  obtain ⟨hlen, hlen', hrate, hbytes⟩ := headerBytes_words s.cfg sr ch
  obtain ⟨htag, hchannels, hsize, hwidth, hsamples⟩ := headerBytes_halves s.cfg sr ch
  refine ⟨headerBytes s.cfg sr ch, headerBytes_length .., fun j hj => buildHeader_read? sr ch s hj, hriff, hwave, hdata,
    htwo, hlen, hlen', htag, ?_, hrate, ?_, ?_, hwidth, hsamples⟩
  · rw [hchannels]
    exact BitVec.toNat_setWidth_of_le (by decide)
  · rw [hbytes, BitVec.toNat_ofNat]
    exact Nat.mod_eq_of_lt (byteRate_lt hsr hch hbits)
  · rw [hsize, BitVec.toNat_ofNat]
    exact Nat.mod_eq_of_lt (by omega)

end Sys2Proof.Machine
end

section
/-! SUPPORT and the proofs of O40 and O41. The ways in which an accepted command can end, read off its pseudocode:
without an error of the device, with BUS_ERROR (spec/60_exceptions.md R312), or with HW_NOT_RESPONDING (R313). -/

namespace Sys2Proof.Machine

/-! ### How a command ends -/

/-- What a command that has ended with BUS_ERROR leaves, ev its events (R312; the words of READ_BLOCK: R260). -/
structure BusErrorLeft (op : Opcode) (s t : State) (ev : List Event) : Prop where
  fsm : t.fsm = if op = .init ∨ op = .stop then .faulted else s.fsm
  berr : t.berr = true
  idle : t.busy = false
  result : op ≠ .readBlock → t.result = 0
  trace : t.trace = s.trace ++ ev
  last : failsLast ev
  words : op = .readBlock → WordsStored (okAnswers ev).tail s t

/-- What an INIT that has read back another clock value leaves (R313). -/
structure ReadbackDiffered (s t : State) : Prop where
  verify : s.cfg.verifyOnInit = true
  fsm : t.fsm = .faulted
  initFlag : t.initFlag = false
  readback : ∃ pre x0 x1 x2 x3,
    t.trace = pre ++ [.xfer .ctrl [s.cfg.readOp, s.cfg.regClock, 0x00, 0x00] (.ok [x0, x1, x2, x3])]
      ∧ x2 ++ x3 ≠ s.cfg.clockDefault

/-- The ways in which a command op accepted in s can have ended in t, by the result code (R310, R312, R313). -/
inductive CommandEnd (op : Opcode) (s t : State) : Prop where
  | noDeviceError (hbus : t.code ≠ .busError) (hhw : t.code ≠ .hwNotResponding)
  | busError (ev : List Event) (hcode : t.code = .busError) (h : BusErrorLeft op s t ev)
  | verifyFailed (hop : op = .init) (hcode : t.code = .hwNotResponding) (h : ReadbackDiffered s t)

section
variable {op : Opcode} {s u v : State} {code : ResultCode} {r : Word}

theorem CommandEnd.of_complete (hbus : code ≠ .busError) (hhw : code ≠ .hwNotResponding) :
    CommandEnd op s (complete code r v) := .noDeviceError hbus hhw

theorem CommandEnd.of_ok : CommandEnd op s (complete .ok r v) := .of_complete (by decide) (by decide)

theorem CommandEnd.of_badArgument : CommandEnd op s (complete .badArgument r v) :=
  .of_complete (by decide) (by decide)

/-- A command that is neither INIT nor STOP, and no drain, raises BUS_ERROR after a failed answer (R14, R312). -/
theorem Failed.raises (h : Failed s v) (hop : op ≠ .init ∧ op ≠ .stop ∧ op ≠ .readBlock) :
    CommandEnd op s (raiseBusError v) := by
  obtain ⟨hinit, hstop, hread⟩ := hop
  obtain ⟨ev, htrace, hlast⟩ := h.trace
  exact .busError ev rfl {
    fsm := by rw [if_neg (not_or.2 ⟨hinit, hstop⟩)]; exact h.fsm
    berr := h.berr
    idle := rfl
    result := fun _ => rfl
    trace := htrace
    last := hlast
    words := fun hop => absurd hop hread }

/-- INIT and STOP go to FAULTED after a failed answer (R312), from the state u that their assignments lead to. -/
theorem Failed.faults (h : Failed u v) (htrace : u.trace = s.trace) (hop : op = .init ∨ op = .stop) :
    CommandEnd op s (faultRef .busError v) := by
  obtain ⟨ev, hev, hlast⟩ := h.trace
  exact .busError ev rfl {
    fsm := (if_pos hop).symm
    berr := h.berr
    idle := rfl
    result := fun _ => rfl
    trace := hev.trans (by rw [htrace])
    last := hlast
    words := by rcases hop with rfl | rfl <;> simp }

/-- A register write that raises BUS_ERROR where it fails (R165). -/
theorem After.write_commandEnd {a : Byte} {x : Half} {rest : State → State} (h : After s u)
    (hop : op ≠ .init ∧ op ≠ .stop ∧ op ≠ .readBlock) (hrest : ∀ v, After s v → CommandEnd op s (rest v)) :
    CommandEnd op s (regWrRef a x raiseBusError rest u) :=
  regWrRef_ind (fun _ hfail => (h.failed hfail).raises hop) fun _ hok => hrest _ (h.trans hok)

/-- A SendData that raises BUS_ERROR where it fails, and otherwise completes OK (R170). -/
theorem After.send_commandEnd {src : Source} {len n c : Nat} {f : State → State} (h : After s u)
    (hop : op ≠ .init ∧ op ≠ .stop ∧ op ≠ .readBlock) :
    CommandEnd op s (sendDataRef src len raiseBusError (fun v => complete .ok 0 (f v)) n c u) :=
  sendDataRef_ind n c (fun _ hfail => (h.failed hfail).raises hop) fun _ _ => .of_ok

end

theorem accepted_after (w : Word) (s : State) : After s (accepted w s) :=
  ⟨⟨rfl, rfl, rfl⟩, [], by simp [accepted], rfl⟩

/-! ### The commands of files 42 and 45, and START_RECORD -/

section
variable (w : Word) (s : State)

theorem regWriteRef_commandEnd (a : Byte) (x : Half) : CommandEnd .regWrite s (regWriteRef a x (accepted w s)) :=
  (accepted_after w s).write_commandEnd (by decide) fun _ _ => .of_ok

theorem regReadRef_commandEnd (a : Byte) : CommandEnd .regRead s (regReadRef a (accepted w s)) :=
  regRdRef_ind (fun _ hfail => ((accepted_after w s).failed hfail).raises (by decide)) fun _ _ _ _ => .of_ok

theorem bulkWriteRef_commandEnd : CommandEnd .bulkWrite s (bulkWriteRef (accepted w s)) := by
  unfold bulkWriteRef
  split
  · exact .of_badArgument
  · exact (accepted_after w s).send_commandEnd (f := id) (by decide)

theorem startRecordRef_commandEnd : CommandEnd .startRecord s (startRecordRef (accepted w s)) := by
  unfold startRecordRef
  split
  · exact .of_badArgument
  · refine (accepted_after w s).write_commandEnd (by decide) fun u hmode => ?_
    have hwait : After s (waitReadyRef u.cfg.readyPolls u) := hmode.trans (waitReadyRef_after _ _)
    exact hwait.write_commandEnd (by decide) fun _ hprofile =>
      hprofile.write_commandEnd (by decide) fun _ hrate =>
        hrate.write_commandEnd (by decide) fun _ hreserved =>
          hreserved.write_commandEnd (by decide) fun _ _ => .of_ok

theorem startDecodeRef_commandEnd : CommandEnd .startDecode s (startDecodeRef (accepted w s)) :=
  (accepted_after w s).write_commandEnd (by decide) fun _ _ => .of_ok

theorem emitHeaderRef_commandEnd : CommandEnd .emitHeader s (emitHeaderRef (accepted w s)) := by
  unfold emitHeaderRef
  split
  · exact .of_badArgument
  · have hheader : After (accepted w s)
        (buildHeader (accepted w s).arg0 (channelsByte (accepted w s).arg1) (accepted w s)) :=
      ⟨⟨buildHeader_fsm .., buildHeader_cfg .., buildHeader_initFlag ..⟩, [], by simp, rfl⟩
    exact ((accepted_after w s).trans hheader).send_commandEnd (by decide)

theorem writeBlockRef_commandEnd : CommandEnd .writeBlock s (writeBlockRef (accepted w s)) := by
  unfold writeBlockRef
  split
  · exact .of_complete (by decide) (by decide)
  · exact (accepted_after w s).send_commandEnd (f := id) (by decide)

end

/-! ### READ_BLOCK (R260) -/

theorem wordsStored_nil {s t : State} (hresult : t.result = 0) (hbuf : t.buf = s.buf) : WordsStored [] s t where
  result := by simp [hresult]
  stored := by simp
  rest j _ := by rw [hbuf]

/-- A drain that has failed has stored the words it read, its RESULT their bytes: there are too few to wrap. -/
theorem DrainRun.wordsStored {n m : Nat} {s u t : State} {ws : List (List Byte)} {ev : List Event}
    (d : DrainRun n m 0 u t ws ev) (hbuf : u.buf = s.buf) (hresult : t.result = BitVec.ofNat 32 (2 * (0 + ws.length)))
    (hlen : ws.length < m) (hm : m ≤ 65535) : WordsStored ws s t where
  result := by rw [hresult, BitVec.toNat_ofNat, Nat.mod_eq_of_lt (by omega), Nat.zero_add]
  stored k w hw := by simpa using d.stored k w hw
  rest j hj := by rw [d.rest j (.inr (by simpa using hj)), hbuf]

/-- The drain of READ_BLOCK from v, where its status read has been answered rx: the words stored are those of the answers
after that one. -/
theorem drainRef_commandEnd {s v : State} {pre : List Event} {tx rx : List Byte} {n : Nat} (hn : n ≤ 65535)
    (hfsm : v.fsm = s.fsm) (hbuf : v.buf = s.buf) (htrace : v.trace = s.trace ++ (pre ++ [.xfer .ctrl tx (.ok rx)]))
    (hpre : waits pre) : CommandEnd .readBlock s (drainRef n n 0 v) := by
  obtain ⟨ws, ev, d⟩ := drainRef_run n n 0 v
  rcases d.ends with ⟨hok, -⟩ | ⟨herr, hresult, hlen, hlast, hberr⟩
  · exact .noDeviceError (by simp [hok]) (by simp [hok])
  · have hanswers : okAnswers (pre ++ [.xfer .ctrl tx (.ok rx)] ++ ev) = rx :: ws := by
      rw [okAnswers_append, okAnswers_append, (waits_sends hpre).2.2, d.answers]
      rfl
    exact .busError (pre ++ [.xfer .ctrl tx (.ok rx)] ++ ev) herr {
      fsm := d.kept.fsm.trans hfsm
      berr := hberr
      idle := d.busy
      result := fun hop => absurd rfl hop
      trace := by rw [d.trace, htrace, List.append_assoc]
      last := failsLast_append (by simp [waits_failed hpre, Event.failed]) hlast
      words := fun _ => by
        rw [hanswers]
        exact d.wordsStored hbuf hresult hlen hn }

theorem readBlockRef_commandEnd (w : Word) (s : State) : CommandEnd .readBlock s (readBlockRef (accepted w s)) := by
  unfold readBlockRef regRdRef
  generalize hx : (⟨.ctrl, readFrame (accepted w s).cfg (accepted w s).cfg.regRecWords⟩ : Transaction) = x
  have hctrl : x.ch = .ctrl := hx ▸ rfl
  obtain ⟨pre, htrace, hpre⟩ := frameRef_events x (accepted w s)
  have hkept := frameRef_kept x (accepted w s)
  have hbuf : (frameRef x (accepted w s)).buf = s.buf := frameRef_source x (accepted w s) .buf
  rw [hctrl] at htrace
  cases hanswer : frameAnswerRef x (accepted w s) with
  | busErr =>
    rw [hanswer] at htrace
    have hnone : okAnswers (pre ++ [.xfer .ctrl x.bytes .busErr]) = [] := by
      rw [okAnswers_append, (waits_sends hpre).2.2]
      rfl
    show CommandEnd .readBlock s (raiseBusError (frameRef x (accepted w s)))
    exact .busError _ rfl {
      fsm := hkept.fsm
      berr := frameRef_berr x _ hanswer
      idle := rfl
      result := fun hop => absurd rfl hop
      trace := htrace
      last := ⟨pre, _, rfl, waits_failed hpre, rfl⟩
      words := fun _ => by
        rw [hnone]
        exact wordsStored_nil rfl hbuf }
  | ok rx =>
    rw [hanswer] at htrace
    simp only
    split
    · exact .of_ok
    · exact drainRef_commandEnd (by have := (readValue rx).isLt; omega) hkept.fsm hbuf htrace hpre

/-! ### INIT and STOP (R220, R230) -/

theorem stopRef_commandEnd (w : Word) (s : State) : CommandEnd .stop s (stopRef (accepted w s)) :=
  have hclear : After s { accepted w s with hdr := false } := ⟨⟨rfl, rfl, rfl⟩, [], by simp [accepted], rfl⟩
  regWrRef_ind (fun _ hfail => (hclear.failed hfail).faults rfl (.inr rfl)) fun _ _ => .of_ok

/-- A Configure goes on or fails; what holds of both holds of it (R175). -/
theorem configureRef_ind {Q : State → Prop} {ch : Channel} {f g : State → State} {u : State}
    (hf : ∀ v, Failed u v → Q (f v)) (hg : ∀ v, After u v → Q (g v)) : Q (configureRef ch f g u) := by
  have hkept : Kept u (configure ch u) := ⟨by simp, by simp, by simp⟩
  unfold configureRef
  split
  · rename_i hok
    exact hg _ ⟨hkept, [.configure ch (configAnswer u)], configure_trace .., by simp [hok, Event.failed]⟩
  · rename_i herr
    exact hf _ ⟨hkept, by simp [herr], [.configure ch (configAnswer u)], configure_trace .., [], _, rfl, rfl,
      by simp [herr, Event.failed]⟩

theorem resetPulseRef_after (u : State) : After u (resetPulseRef u) :=
  ⟨⟨by simp [resetPulseRef], by simp [resetPulseRef], by simp [resetPulseRef]⟩,
    [.resetN false, .delay u.cfg.resetAssertTicks, .resetN true, .delay u.cfg.resetRecoverTicks],
    by simp [resetPulseRef], rfl⟩

section
variable {s u : State}

/-- A failed answer in INIT, at any point after its first assignments. -/
theorem Failed.init_commandEnd (h : Failed (initEnter s) u) : CommandEnd .init s (faultRef .busError u) :=
  h.faults rfl (.inl rfl)

/-- INIT's readback: HW_NOT_RESPONDING where its value is not CLOCK_DEFAULT (R313). -/
theorem initVerifyRef_commandEnd (h : After (initEnter s) u) : CommandEnd .init s (initVerifyRef u) := by
  have hcfg : u.cfg = s.cfg := h.cfg
  unfold initVerifyRef
  split
  · rename_i hverify
    refine regRdRef_ind (fun _ hfail => (h.failed hfail).init_commandEnd) ?_
    rintro rx v rfl hanswer
    split
    · exact .of_ok
    · rename_i hdiffers
      obtain ⟨pre, htrace, -⟩ := frameRef_events ⟨.ctrl, readFrame u.cfg u.cfg.regClock⟩ u
      have hkept := frameRef_kept ⟨.ctrl, readFrame u.cfg u.cfg.regClock⟩ u
      rw [hanswer, ← List.append_assoc] at htrace
      obtain ⟨x0, x1, x2, x3, rfl⟩ : ∃ x0 x1 x2 x3, rx = [x0, x1, x2, x3] :=
        List.length_eq_four.1 (frameAnswerRef_length hanswer)
      exact .verifyFailed rfl rfl {
        verify := hcfg ▸ hverify
        fsm := rfl
        initFlag := hkept.init.trans h.init
        readback := ⟨u.trace ++ pre, x0, x1, x2, x3, htrace.trans (by rw [hcfg]; rfl),
          by rwa [hkept.cfg, hcfg] at hdiffers⟩ }
  · exact .of_ok

/-- A register write of INIT. -/
theorem After.init_write_commandEnd {a : Byte} {x : Half} {rest : State → State} (h : After (initEnter s) u)
    (hrest : ∀ v, After (initEnter s) v → CommandEnd .init s (rest v)) :
    CommandEnd .init s (regWrRef a x (faultRef .busError) rest u) :=
  regWrRef_ind (fun _ hfail => (h.failed hfail).init_commandEnd) fun _ hok => hrest _ (h.trans hok)

theorem initWritesRef_commandEnd (h : After (initEnter s) u) : CommandEnd .init s (initWritesRef u) :=
  h.init_write_commandEnd fun _ hmode => hmode.init_write_commandEnd fun _ hclock =>
    hclock.init_write_commandEnd fun _ hvolume => initVerifyRef_commandEnd hvolume

end

theorem initRef_commandEnd (w : Word) (s : State) : CommandEnd .init s (initRef (accepted w s)) := by
  have henter : After (initEnter s) (initEnter (accepted w s)) :=
    ⟨⟨rfl, rfl, rfl⟩, [], by simp [initEnter, accepted], rfl⟩
  refine configureRef_ind (fun _ hfail => (henter.failed hfail).init_commandEnd) fun _ hctrl => ?_
  refine configureRef_ind (fun _ hfail => ((henter.trans hctrl).failed hfail).init_commandEnd) fun v hdata => ?_
  exact initWritesRef_commandEnd (((henter.trans hctrl).trans hdata).trans (resetPulseRef_after v))

/-! ### Every command -/

theorem CommandEnd.of_exec {i : Instr} {op : Opcode} {s t u : State} (hx : exec i s = .next t)
    (hu : exec i s = .next u) (h : CommandEnd op s u) : CommandEnd op s t := by
  obtain rfl := Host.Outcome.next.inj (hu.symm.trans hx)
  exact h

/-- An accepted command with no host access to land ends in one of the three ways. -/
theorem exec_commandEnd {s t : State} {i : Instr} {op : Opcode} (hop : i.opcode? = some op) (ha : Accepts op s)
    (hx : exec i s = .next t) : CommandEnd op s t := by
  cases i <;> cases hop
  case init ign => exact .of_exec hx (initRunsItsBody ign s ha) (initRef_commandEnd _ s)
  case regWrite a x => exact .of_exec hx (regWriteRunsItsBody a x s ha) (regWriteRef_commandEnd _ s a x)
  case regRead a ign => exact .of_exec hx (regReadRunsItsBody a ign s ha) (regReadRef_commandEnd _ s a)
  case bulkWrite ign => exact .of_exec hx (bulkWriteRunsItsBody ign s ha) (bulkWriteRef_commandEnd _ s)
  case startRecord ign => exact .of_exec hx (startRecordRunsItsBody ign s ha) (startRecordRef_commandEnd _ s)
  case readBlock ign => exact .of_exec hx (readBlockRunsItsBody ign s ha) (readBlockRef_commandEnd _ s)
  case startDecode ign => exact .of_exec hx (startDecodeRunsItsBody ign s ha) (startDecodeRef_commandEnd _ s)
  case emitHeader ign => exact .of_exec hx (emitHeaderRunsItsBody ign s ha) (emitHeaderRef_commandEnd _ s)
  case writeBlock ign => exact .of_exec hx (writeBlockRunsItsBody ign s ha) (writeBlockRef_commandEnd _ s)
  case stop ign => exact .of_exec hx (stopRunsItsBody ign s ha) (stopRef_commandEnd _ s)

/-- Settles O40: of the ends of a command, only the one with a failed last answer has the code BUS_ERROR. -/
theorem busErrorOutcome : Obligations.BusErrorOutcome := by
  intro s t i op hop ha hx hcode
  cases exec_commandEnd hop ha hx with
  | noDeviceError hbus => exact absurd hcode hbus
  | busError ev _ h => exact ⟨h.fsm, h.berr, h.idle, h.result, ev, h.trace, h.last, h.words⟩
  | verifyFailed _ hhw => simp [hcode] at hhw

/-- Settles O41: of the ends of a command, only the one of INIT's readback has the code HW_NOT_RESPONDING. -/
theorem verifyFailure : Obligations.VerifyFailure := by
  intro s t i op hop ha hx hcode
  cases exec_commandEnd hop ha hx with
  | noDeviceError _ hhw => exact absurd hcode hhw
  | busError _ hbus => simp [hcode] at hbus
  | verifyFailed hinit _ h => exact ⟨hinit, h.verify, h.fsm, h.initFlag, h.readback⟩

end Sys2Proof.Machine
end

section
/-! SUPPORT and the proof of O46. Controller reset as an input (spec/70_reset_and_hazards.md R340, R341), and the
values it leaves (spec/10_state.md R58). -/

namespace Sys2Proof.Machine

/-- A memory that nothing has written holds no value (R40). -/
@[simp] theorem Memory.read?_nil (a : Nat) : Memory.read? [] a = none := rfl

/-- A reset is no host access, so no guard can refuse it: it takes effect in every state. -/
theorem perform_reset (s : State) : perform .reset s = .next (controllerReset s) := rfl

/-- STATUS reads 0 after reset: STATE = UNINIT, RESULT_CODE = OK and every flag clear. -/
theorem statusWord_reset : statusWord State.reset = 0 := by decide

/-- Settles O46: the next state is `controllerReset s`, whose fields the layer of State gives one by one; both memories
are empty there. -/
theorem resetValues : Obligations.ResetValues := by
  constructor
  · intro s
    exact ⟨controllerReset s, perform_reset s, by simp⟩
  · exact ⟨rfl, statusWord_reset, rfl, rfl⟩

end Sys2Proof.Machine
end
